-- ==== Sys2Proof/Word.lean ====
section
/-! DEFINITION. The words of the block: CW32 command words (rule R73), bytes (rule R10) and text. -/

namespace Sys2Proof

/-- A CW32 command word: 32 bits, bit 0 the least significant (rules R11, R73). -/
abbrev Word := BitVec 32

/-- `u8` of rule R10: a port byte, an EC register, an operand field. -/
abbrev Byte := BitVec 8

/-- Text of a file, of a tool's output, of a command: its characters in order. -/
abbrev Text := List Char

end Sys2Proof
end

