-- ==== Sys2Proof/Syntax.lean ====
section
/-! DEFINITION. The operations of the block: one constructor per row of spec/opcode_table.json (rules R75, R76). -/

namespace Sys2Proof

/-- A fan channel: `id ∈ {1, 2}` (rule R18, FanChannel). -/
inductive Channel where
  | one
  | two
  deriving DecidableEq, Repr

/-- The operations, in the table's order. Operand fields are bytes as the word carries them (rule R74); a
channel operand and `RATE_LIMIT`'s override operand have only the values rule R77 (c), (d) admits. -/
inductive Instr where
  /-- `SET p` (rule R242). -/
  | set (percent : Byte)
  /-- `SET1 p` (rule R243). -/
  | set1 (percent : Byte)
  /-- `SET2 p` (rule R244). -/
  | set2 (percent : Byte)
  /-- `DUMP` (rule R245). -/
  | dump
  /-- `AUTO` (rule R246). -/
  | auto
  /-- `ACQUIRE` (rule R100). -/
  | acquire
  /-- `EC_READ addr` (rule R104). -/
  | ecRead (addr : Byte)
  /-- `EC_WRITE cmd, addr, value` (rule R106). -/
  | ecWrite (cmd addr value : Byte)
  /-- `CPU_TEMP_READ` (rule R140). -/
  | cpuTempRead
  /-- `GPU_TEMP_EC_READ` (rule R141). -/
  | gpuTempEcRead
  /-- `FAN_DUTY_READ ch` (rule R142). -/
  | fanDutyRead (ch : Channel)
  /-- `FAN_RPM_READ ch` (rule R144). -/
  | fanRpmRead (ch : Channel)
  /-- `FAN_DUTY_WRITE ch, percent` (rule R146). -/
  | fanDutyWrite (ch : Channel) (percent : Byte)
  /-- `RESOLVE_CPU` (rule R171). -/
  | resolveCpu
  /-- `RESOLVE_GPU` (rule R172). -/
  | resolveGpu
  /-- `TARGET_DUTY hot, last` (rule R201). -/
  | targetDuty (hot last : Byte)
  /-- `RATE_LIMIT override, last, target` (rule R203). -/
  | rateLimit (override : Bool) (last target : Byte)
  /-- `CONTROL_CYCLE` (rule R204). -/
  | controlCycle
  /-- `REPORT` (rule R206). -/
  | report
  deriving DecidableEq, Repr

end Sys2Proof
end

