-- ==== Sys2Proof/WellFormed.lean ====
section
/-! DEFINITION. The operand-range checks of rule R77 (e). The checks (c) and (d) are carried by the types of
the channel and override operands. -/

namespace Sys2Proof

/-- A percent operand that rule R77 (e) admits: 0..100. -/
abbrev PercentOperand (b : Byte) : Prop := b.toNat ≤ 100

/-- An operation whose operands rule R77 admits: `last ≤ 100` for `TARGET_DUTY` and `RATE_LIMIT`, `target ≤ 100`
for `RATE_LIMIT`. A percent above 100 of a host command or of `FAN_DUTY_WRITE` is a legal encoding (rule R74). -/
abbrev WellFormed (i : Instr) : Prop :=
  match i with
  | .set _ => True
  | .set1 _ => True
  | .set2 _ => True
  | .dump => True
  | .auto => True
  | .acquire => True
  | .ecRead _ => True
  | .ecWrite _ _ _ => True
  | .cpuTempRead => True
  | .gpuTempEcRead => True
  | .fanDutyRead _ => True
  | .fanRpmRead _ => True
  | .fanDutyWrite _ _ => True
  | .resolveCpu => True
  | .resolveGpu => True
  | .targetDuty _ last => PercentOperand last
  | .rateLimit _ last target => PercentOperand last ∧ PercentOperand target
  | .controlCycle => True
  | .report => True

end Sys2Proof
end

