-- ==== Sys2Proof/Decode.lean ====
section
/-! DEFINITION. Decoding CW32 words (rules R73 to R78, R83), total on any word and on any bytes, rejecting by
name; then the encoder, written from the same tables. -/

namespace Sys2Proof

/-- Why a word is illegal (rule R77), or why bytes hold no word (rule R83). -/
inductive DecodeError where
  /-- (a): `OP` is not 0x01–0x05 or 0x10–0x1D. -/
  | unassignedOp
  /-- (b): a field the operation's row marks 0 is nonzero. -/
  | reservedNonzero
  /-- (c): `ch ∉ {1, 2}`. -/
  | badChannel
  /-- (d): `override ∉ {0, 1}`. -/
  | badOverride
  /-- (e): `last > 100` or `target > 100`. -/
  | badPercent
  /-- Fewer than the four bytes of a word. -/
  | truncated
  deriving DecidableEq, Repr

/-- `OP = w[31:24]` (rule R73). -/
def opField (w : Word) : Byte := w.extractLsb' 24 8

/-- `A = w[23:16]`. -/
def aField (w : Word) : Byte := w.extractLsb' 16 8

/-- `B = w[15:8]`. -/
def bField (w : Word) : Byte := w.extractLsb' 8 8

/-- `C = w[7:0]`. -/
def cField (w : Word) : Byte := w.extractLsb' 0 8

/-- A word from its four fields (rule R73). -/
def packWord (op a b c : Byte) : Word := op ++ a ++ b ++ c

/-- Rule R77 (b) for fields `fs` that the row marks 0, then the operation. -/
def withReserved (fs : List Byte) (k : Except DecodeError Instr) : Except DecodeError Instr :=
  if fs.all (· = 0) then k else .error .reservedNonzero

/-- Rule R77 (c): a channel operand. -/
def decodeChannel (b : Byte) : Except DecodeError Channel :=
  if b = 1 then .ok .one else if b = 2 then .ok .two else .error .badChannel

/-- Rule R77 (d): an override operand. -/
def decodeOverride (b : Byte) : Except DecodeError Bool :=
  if b = 0 then .ok false else if b = 1 then .ok true else .error .badOverride

/-- Rule R77 (e): the operation only if these percent operands are 0..100. -/
def withPercents (ps : List Byte) (i : Instr) : Except DecodeError Instr :=
  if ps.all (·.toNat ≤ 100) then .ok i else .error .badPercent

/-- `decode(w)` of rule R78: the operation named by `OP` with its operands, or the reason the word is illegal.
One line per row of rules R75 and R76. -/
def decode (w : Word) : Except DecodeError Instr :=
  let a := aField w
  let b := bField w
  let c := cField w
  match (opField w).toNat with
  | 0x01 => withReserved [a, b] (.ok (.set c))
  | 0x02 => withReserved [a, b] (.ok (.set1 c))
  | 0x03 => withReserved [a, b] (.ok (.set2 c))
  | 0x04 => withReserved [a, b, c] (.ok .dump)
  | 0x05 => withReserved [a, b, c] (.ok .auto)
  | 0x10 => withReserved [a, b, c] (.ok .acquire)
  | 0x11 => withReserved [a, b] (.ok (.ecRead c))
  | 0x12 => .ok (.ecWrite a b c)
  | 0x13 => withReserved [a, b, c] (.ok .cpuTempRead)
  | 0x14 => withReserved [a, b, c] (.ok .gpuTempEcRead)
  | 0x15 => withReserved [a, b] ((decodeChannel c).map .fanDutyRead)
  | 0x16 => withReserved [a, b] ((decodeChannel c).map .fanRpmRead)
  | 0x17 => withReserved [a] ((decodeChannel b).map (.fanDutyWrite · c))
  | 0x18 => withReserved [a, b, c] (.ok .resolveCpu)
  | 0x19 => withReserved [a, b, c] (.ok .resolveGpu)
  | 0x1A => withReserved [a] (withPercents [c] (.targetDuty b c))
  | 0x1B => (decodeOverride a).bind fun o => withPercents [b, c] (.rateLimit o b c)
  | 0x1C => withReserved [a, b, c] (.ok .controlCycle)
  | 0x1D => withReserved [a, b, c] (.ok .report)
  | _ => .error .unassignedOp

/-- A word from its bytes, most significant first (rule R83). -/
def wordOfBytes (b3 b2 b1 b0 : Byte) : Word := packWord b3 b2 b1 b0

/-- Decoding from bytes: the first four bytes are one word, most significant first (rule R83); the rest is
left over. -/
def decodeBytes (bs : List Byte) : Except DecodeError (Instr × List Byte) :=
  match bs with
  | b3 :: b2 :: b1 :: b0 :: rest => (decode (wordOfBytes b3 b2 b1 b0)).map (·, rest)
  | _ => .error .truncated

/-- The words of a CW32 program given as bytes (rule R83); `none` if the bytes do not make whole words. -/
def programOfBytes (bs : List Byte) : Option (List Word) :=
  match bs with
  | [] => some []
  | b3 :: b2 :: b1 :: b0 :: rest => (programOfBytes rest).map (wordOfBytes b3 b2 b1 b0 :: ·)
  | _ => none

/-- The channel operand's byte (rule R76). -/
def encodeChannel (ch : Channel) : Byte :=
  match ch with
  | .one => 1
  | .two => 2

/-- The override operand's byte (rule R76). -/
def encodeOverride (o : Bool) : Byte := if o then 1 else 0

/-- The word of an operation (rules R73, R75, R76). -/
def encode (i : Instr) : Word :=
  match i with
  | .set p => packWord 0x01 0 0 p
  | .set1 p => packWord 0x02 0 0 p
  | .set2 p => packWord 0x03 0 0 p
  | .dump => packWord 0x04 0 0 0
  | .auto => packWord 0x05 0 0 0
  | .acquire => packWord 0x10 0 0 0
  | .ecRead addr => packWord 0x11 0 0 addr
  | .ecWrite cmd addr value => packWord 0x12 cmd addr value
  | .cpuTempRead => packWord 0x13 0 0 0
  | .gpuTempEcRead => packWord 0x14 0 0 0
  | .fanDutyRead ch => packWord 0x15 0 0 (encodeChannel ch)
  | .fanRpmRead ch => packWord 0x16 0 0 (encodeChannel ch)
  | .fanDutyWrite ch p => packWord 0x17 0 (encodeChannel ch) p
  | .resolveCpu => packWord 0x18 0 0 0
  | .resolveGpu => packWord 0x19 0 0 0
  | .targetDuty hot last => packWord 0x1A 0 hot last
  | .rateLimit o last target => packWord 0x1B (encodeOverride o) last target
  | .controlCycle => packWord 0x1C 0 0 0
  | .report => packWord 0x1D 0 0 0

/-- The bytes of an operation, most significant first (rule R83). -/
def encodeBytes (i : Instr) : List Byte :=
  let w := encode i
  [opField w, aField w, bField w, cField w]

/-- The `match` column of opcode_table.json for an operation's row. -/
def rowMatch (i : Instr) : Word :=
  match i with
  | .set _ => 0x01000000
  | .set1 _ => 0x02000000
  | .set2 _ => 0x03000000
  | .dump => 0x04000000
  | .auto => 0x05000000
  | .acquire => 0x10000000
  | .ecRead _ => 0x11000000
  | .ecWrite _ _ _ => 0x12000000
  | .cpuTempRead => 0x13000000
  | .gpuTempEcRead => 0x14000000
  | .fanDutyRead _ => 0x15000000
  | .fanRpmRead _ => 0x16000000
  | .fanDutyWrite _ _ => 0x17000000
  | .resolveCpu => 0x18000000
  | .resolveGpu => 0x19000000
  | .targetDuty _ _ => 0x1A000000
  | .rateLimit _ _ _ => 0x1B000000
  | .controlCycle => 0x1C000000
  | .report => 0x1D000000

/-- The `mask` column of opcode_table.json for an operation's row. -/
def rowMask (i : Instr) : Word :=
  match i with
  | .set _ => 0xFFFFFF00
  | .set1 _ => 0xFFFFFF00
  | .set2 _ => 0xFFFFFF00
  | .dump => 0xFFFFFFFF
  | .auto => 0xFFFFFFFF
  | .acquire => 0xFFFFFFFF
  | .ecRead _ => 0xFFFFFF00
  | .ecWrite _ _ _ => 0xFF000000
  | .cpuTempRead => 0xFFFFFFFF
  | .gpuTempEcRead => 0xFFFFFFFF
  | .fanDutyRead _ => 0xFFFFFF00
  | .fanRpmRead _ => 0xFFFFFF00
  | .fanDutyWrite _ _ => 0xFFFF0000
  | .resolveCpu => 0xFFFFFFFF
  | .resolveGpu => 0xFFFFFFFF
  | .targetDuty _ _ => 0xFFFF0000
  | .rateLimit _ _ _ => 0xFF000000
  | .controlCycle => 0xFFFFFFFF
  | .report => 0xFFFFFFFF

/-- The operation the decoder reads from an instruction whose `nbits` bits are `w`, the bits above being 0: the
word's bytes laid out most significant first (rule R83) and given to `decodeBytes`. -/
def decodeTableWord (nbits w : Nat) : Option Instr :=
  let word : Word := BitVec.ofNat 32 (w % 2 ^ nbits)
  match decodeBytes [opField word, aField word, bField word, cField word] with
  | .ok (i, _) => some i
  | .error _ => none

end Sys2Proof
end

