-- ==== Sys2Proof/Config.lean ====
section
/-! DEFINITION. The configuration record of rule R7, the reference configuration `RC` of rule R290, and the
free values the environment's unstated answers are taken from (rule R285). -/

namespace Sys2Proof

/-- A parameter given once per fan channel (`SUB_ADDR[1..2]`, `REG_DUTY[1..2]`, … of rule R7). -/
structure PerChannel (α : Type) where
  one : α
  two : α
  deriving DecidableEq, Repr

/-- `ROUND_TIE` (rules R7, R16). -/
inductive RoundTie where
  | halfUp
  | halfEven
  deriving DecidableEq, Repr

/-- `READ_TIMEOUT_MODE` (rules R7, R105). -/
inductive ReadTimeoutMode where
  /-- `ABORT_SAMPLE`: abandon the remaining steps and read the data port once. -/
  | abortSample
  /-- `CONTINUE`: treat the timed-out wait as ended and go on. -/
  | continueSequence
  deriving DecidableEq, Repr

/-- The configuration record of rule R7. Fixed for the life of the process (rule R37). -/
structure Config where
  /-- `PORT_SC`, a 16-bit port number (rule R51). -/
  portSC : BitVec 16
  /-- `PORT_DATA`. -/
  portData : BitVec 16
  /-- `IBF_BIT`, a bit index 0..7 of the status byte. -/
  ibfBit : Fin 8
  /-- `OBF_BIT`. -/
  obfBit : Fin 8
  /-- `CMD_READ`. -/
  cmdRead : Byte
  /-- `CMD_SET_DUTY`. -/
  cmdSetDuty : Byte
  /-- `SUB_ADDR[1]`, `SUB_ADDR[2]`. -/
  subAddr : PerChannel Byte
  /-- `REG_CPU_TEMP`. -/
  regCpuTemp : Byte
  /-- `REG_GPU_TEMP`. -/
  regGpuTemp : Byte
  /-- `REG_DUTY[1]`, `REG_DUTY[2]`. -/
  regDuty : PerChannel Byte
  /-- `REG_RPM_HI[1]`, `REG_RPM_HI[2]`. -/
  regRpmHi : PerChannel Byte
  /-- `REG_RPM_LO[1]`, `REG_RPM_LO[2]`. -/
  regRpmLo : PerChannel Byte
  /-- `POLL_BUDGET`. -/
  pollBudget : Nat
  /-- `POLL_INTERVAL_MS`. -/
  pollIntervalMs : Nat
  /-- `TICK_MS`. -/
  tickMs : Nat
  /-- `MAX_TEMP`, °C. -/
  maxTemp : Int
  /-- `MIN_TEMP`, °C. -/
  minTemp : Int
  /-- `D`, the dead-band on each side, °C. -/
  deadBand : Int
  /-- `MIN_DUTY`, percent. -/
  minDuty : Int
  /-- `STEP`, percent per cycle. -/
  step : Int
  /-- `RPM_K`. -/
  rpmK : Nat
  /-- `DUTY_RAW_MAX`. -/
  dutyRawMax : Nat
  /-- `VENDOR_T_LO`, exclusive. -/
  vendorLo : Int
  /-- `VENDOR_T_HI`, exclusive. -/
  vendorHi : Int
  /-- `SYSFS_MAX_INPUTS`. -/
  sysfsMaxInputs : Nat
  /-- `GPU_DRIVER_ALLOWLIST`. -/
  allowList : List Text
  /-- `VENDOR_TOOL_PATH`. -/
  toolPath : Text
  /-- `ROUND_TIE`. -/
  roundTie : RoundTie
  /-- `READ_TIMEOUT_MODE`. -/
  readTimeoutMode : ReadTimeoutMode
  /-- `INIT_LAST`, an integer percent 0..100 (rule R7 gives the range as its type). -/
  initLast : Fin 101
  /-- `EXIT_FAIL`, any nonzero exit code. -/
  exitFail : { n : Int // n ≠ 0 }
  deriving DecidableEq, Repr

/-- The reference configuration `RC` of rule R290: the spec's choice for testing, no claim about a device. -/
def referenceConfig : Config where
  portSC := 0x66
  portData := 0x62
  ibfBit := 1
  obfBit := 0
  cmdRead := 0x80
  cmdSetDuty := 0x99
  subAddr := ⟨0x01, 0x02⟩
  regCpuTemp := 0xA0
  regGpuTemp := 0xA1
  regDuty := ⟨0xA2, 0xA3⟩
  regRpmHi := ⟨0xA4, 0xA6⟩
  regRpmLo := ⟨0xA5, 0xA7⟩
  pollBudget := 100
  pollIntervalMs := 1
  tickMs := 1000
  maxTemp := 80
  minTemp := 40
  deadBand := 2
  minDuty := 20
  step := 2
  rpmK := 2156220
  dutyRawMax := 255
  vendorLo := 0
  vendorHi := 130
  sysfsMaxInputs := 4
  allowList := [['g', 'p', 'u', 'A']]
  toolPath := ['/', 'o', 'p', 't', '/', 'v', 'e', 'n', 'd', 'o', 'r', '/', 'g', 'p', 'u', 't', 'o', 'o', 'l']
  roundTie := .halfUp
  readTimeoutMode := .abortSample
  initLast := 0
  exitFail := ⟨1, by decide⟩

/-- What one `RunTool` comes to (rules R14, R285): standard output, no run at all, or no return. -/
inductive ToolRun where
  /-- The tool ran and wrote this standard output. -/
  | output (t : Text)
  /-- The tool could not be run (`none` of rule R14). -/
  | notRun
  /-- The tool never returns (rule R285, entry I6). -/
  | neverReturns
  deriving DecidableEq, Repr, Inhabited

/-! Free values (log 2): the `n`-th answer that no supplied answer covers. They have no body: a claim holds
whatever they are (rule R285: "a draw under no law"). -/

namespace Config

/-- The OS's answer to `OsAcquirePorts()` (rule R14). -/
opaque freeGrant : Nat → Bool

/-- A byte the EC puts on a port (rules R13, R285). -/
opaque freeByte : Nat → Byte

/-- `SysfsList()`: the hwmon entries present, by handle (rule R14). -/
opaque freeEntries : Nat → List Nat

/-- The content of a `name` file (rule R14). -/
opaque freeName : Nat → Option Text

/-- The content of a `temp<k>_input` file (rule R14). -/
opaque freeTemp : Nat → Option Text

/-- `FileExists(path)` (rule R14). -/
opaque freeFileTest : Nat → Bool

/-- `RunTool(path)` (rule R14). -/
opaque freeToolRun : Nat → ToolRun

/-- Whether the interrupt source raises the stop flag (rule R279). -/
opaque freeStop : Nat → Bool

/-- The rounded percentage of a raw byte under a `DUTY_RAW_MAX` of 0, where rule R143 divides by it (log 36). -/
opaque freeDutyPercent : Byte → Int

/-- The raw byte of a percentage under a `DUTY_RAW_MAX` whose rounded raw value is no byte (rule R147; log 36). -/
opaque freeDutyByte : Nat → Int → Byte

end Config

end Sys2Proof
end

