-- ==== Sys2Proof/Machine/State.lean ====
section
/-! DEFINITION. The state of the block (rules R20 to R41), of the environment agents it reads, and the values the
model itself keeps; the reasons a step can stop; the machine after reset. Plain data throughout. -/

namespace Sys2Proof.Machine

/-! ## Errors -/

/-- A command as the host user gives it: the text of rule R80 split into its word and its optional argument, or
the operation of a CW32 word given as the command (program P3; logs 19, 25). -/
inductive Command where
  | text (word : Text) (arg : Option Text)
  | encoded (i : Instr)
  deriving DecidableEq, Repr

/-- The value an `InvalidInput` error records (rule R270). -/
inductive Rejected where
  /-- A percent outside [0,100]. -/
  | percent (v : Int)
  /-- A missing argument or one that is no decimal integer (rule R249). -/
  | argument (t : Option Text)
  /-- A command that is none of the five (rule R240). -/
  | command (c : Command)
  deriving DecidableEq, Repr

/-- The source's error taxonomy (rule R270). -/
inductive ErrorKind where
  | permissionError
  | timeoutError (k : Nat)
  | sensorUnavailable (stage : Nat)
  | invalidInput (v : Rejected)
  deriving DecidableEq, Repr

/-! ## Block state types -/

/-- `S.session` (rule R22). -/
inductive Session where
  | none
  | held
  | denied
  deriving DecidableEq, Repr

/-- `S.chan.phase` (rule R24). -/
inductive ChanPhase where
  | idle
  | rW1
  | rW2
  | rW3
  | wW1
  | wW2
  | wW3
  | wW4
  | done
  deriving DecidableEq, Repr

/-- `S.chan.kind` (rule R24). -/
inductive ChanKind where
  | none
  | read
  | write
  deriving DecidableEq, Repr

/-- `S.chan.result` (rule R24): `Ok(u8)`, `Ok(unit)` or `Err(TimeoutError(k))`. -/
inductive ChanResult where
  | byte (v : Byte)
  | unit
  | timeout (k : Nat)
  deriving DecidableEq, Repr

/-- `S.chan`, the EC transaction sequencer (rule R24). -/
structure Chan where
  phase : ChanPhase
  kind : ChanKind
  cmd : Byte
  addr : Byte
  value : Byte
  attempt : Nat
  timedOut : Bool
  result : Option ChanResult
  /-- The errors of the waits that expired, in order: the info rule R270 records for a read and for a write. The model's
  own field (log 33). -/
  timeouts : List ErrorKind
  deriving DecidableEq, Repr

/-- `S.loop.phase` (rule R30). -/
inductive LoopPhase where
  | off
  | top
  | cycle
  | preSleep
  | sleeping
  | postSleep
  | exited
  deriving DecidableEq, Repr

/-- `S.cmd.phase` (rule R33). -/
inductive CmdPhase where
  | start
  | acquiring
  | dispatch
  | running
  | ended
  deriving DecidableEq, Repr

/-- `S.cmd`, the host-command sequencer (rule R33). -/
structure Cmd where
  phase : CmdPhase
  failed : Bool
  deriving DecidableEq, Repr

/-! ## Values -/

/-- The two ports (rule R50); no other port is expressible (rule R51). -/
inductive Port where
  | sc
  | data
  deriving DecidableEq, Repr

/-- The domain of a reading (rule R18). -/
inductive Domain where
  | cpu
  | gpu
  deriving DecidableEq, Repr

/-- The source of a reading (rule R18). -/
inductive Source where
  | driverSysfs
  | vendorTool
  | ecFallback
  deriving DecidableEq, Repr

/-- TemperatureReading (rule R18), `value ∈ ℤ` in °C. -/
structure Reading where
  domain : Domain
  value : Int
  source : Source
  deriving DecidableEq, Repr

/-- One fan of a report (rule R206): duty in percent, the raw counter, the exact rational rpm (rule R145). -/
structure FanReport where
  duty : Int
  raw16 : BitVec 16
  rpm : Rat
  deriving DecidableEq, Repr

/-- The values a `Report` event carries (rule R206). -/
structure Report where
  cpu : Reading
  gpu : Reading
  commanded : Option Int
  fan1 : FanReport
  fan2 : FanReport
  deriving DecidableEq, Repr

/-- The events of `S.trace` (rule R34), each with the answer it got. An hwmon entry is an opaque handle (log 20). -/
inductive Event where
  /-- `PortIn(p) -> v` (rule R13). -/
  | portIn (p : Port) (v : Byte)
  /-- `PortOut(p, v)` (rule R13). -/
  | portOut (p : Port) (v : Byte)
  /-- `Sleep(ms)` (rule R13). -/
  | sleep (ms : Nat)
  /-- `SysfsList()` (rule R14). -/
  | sysfsList (entries : List Nat)
  /-- `SysfsName(e)` (rule R14). -/
  | sysfsName (entry : Nat) (content : Option Text)
  /-- `SysfsTemp(e, k)` (rule R14). -/
  | sysfsTemp (entry k : Nat) (content : Option Text)
  /-- `FileExists(path)` (rule R14). -/
  | fileExists (path : Text) (answer : Bool)
  /-- `RunTool(path)` (rule R14). -/
  | runTool (path : Text) (answer : ToolRun)
  /-- A `Report` event (rules R34, R206). -/
  | report (r : Report)
  deriving DecidableEq, Repr

/-- What an operation returned to its caller (rule R15). -/
inductive OpResult where
  /-- `Ok` with no value. -/
  | ok
  /-- `Err(e)`. -/
  | err (e : ErrorKind)
  /-- `EC_READ`: the byte and the `timed_out` flag (rule R104). -/
  | ecByte (v : Byte) (timedOut : Bool)
  /-- A temperature in °C, a duty in percent (rules R140, R141, R142, R203). -/
  | number (n : Int)
  /-- `FAN_RPM_READ` (rule R144). -/
  | rpm (raw16 : BitVec 16) (rpm : Rat)
  /-- `RESOLVE_CPU`, `RESOLVE_GPU` (rules R171, R172). -/
  | reading (r : Reading)
  /-- `TARGET_DUTY` (rule R201). -/
  | target (target : Int) (override : Bool)
  deriving DecidableEq, Repr

/-- Model faults (rule R275), the values of `S.fault` (rule R35). -/
inductive FaultKind where
  | badConfig
  | illegalEncoding
  | noSession
  | doubleAcquire
  | noControlState
  | channelBusy
  deriving DecidableEq, Repr

/-! ## Environment agents -/

/-- Where `REF_EC` stands in a command (rule R291). -/
inductive RefStage where
  /-- No command, or an ignored one: operand bytes are ignored. -/
  | idle
  /-- After `CMD_READ`: the address byte is next. -/
  | readAddr
  /-- After `CMD_SET_DUTY`: the sub-address is next. -/
  | dutySub
  /-- After the sub-address: the value is next. -/
  | dutyValue (sub : Byte)
  deriving DecidableEq, Repr

/-- The deterministic reference EC of rule R291: `REF_EC`, or `REF_EC_BUSY` when `busy`. -/
structure RefEc where
  /-- The register file `R[0x00..0xFF]` (rule R38) as cells in canonical form; an unlisted register holds 0x00. -/
  regs : List Host.Cell
  /-- The output latch. -/
  latch : Option Byte
  /-- The last byte a data-port read returned, 0x00 if none. -/
  lastByte : Byte
  stage : RefStage
  busy : Bool
  deriving DecidableEq, Repr

/-- The EC agent (rules R20, R285). -/
inductive Ec where
  /-- No law: its bytes are the supplied ones, in order, then free values (log 2). -/
  | lawless (supply : List Byte)
  /-- The reference EC of rule R291. -/
  | reference (r : RefEc)
  deriving DecidableEq, Repr

/-- The environment agents' answers still to come (rules R14, R20, R285): each list is used in order, and a question
that finds its list empty gets a free value (log 2). `count` counts the free values taken. -/
structure Env where
  /-- Answers of `OsAcquirePorts()`. -/
  grants : List Bool
  ec : Ec
  /-- Answers of `SysfsList()`. -/
  entryLists : List (List Nat)
  /-- Answers of `SysfsName(e)`. -/
  names : List (Option Text)
  /-- Answers of `SysfsTemp(e, k)`. -/
  temps : List (Option Text)
  /-- Answers of `FileExists(path)`. -/
  fileTests : List Bool
  /-- Answers of `RunTool(path)`. -/
  toolRuns : List ToolRun
  /-- Whether the interrupt source raises the stop flag, one answer per step (log 3). -/
  stops : List Bool
  count : Nat
  deriving DecidableEq, Repr

/-- What the host user started (rules R83, R240, R312). -/
inductive Invocation where
  /-- Nothing yet. -/
  | nothing
  /-- `PROCESS(cmd)` (rule R240). -/
  | process (c : Command)
  /-- A CW32 program; the words still to run, the next one first (rule R83). -/
  | program (words : List Word)
  deriving DecidableEq, Repr

/-! ## The state -/

/-- The machine's state. The fields down to `fault` are the spec's (rule R41); the rest are the model's own. -/
structure State where
  /-- The configuration (rules R7, R37). -/
  cfg : Config
  /-- `S.session` (rule R22). -/
  session : Session
  /-- `S.acquire_count` (rule R23). -/
  acquireCount : Nat
  /-- `S.chan` (rule R24). -/
  chan : Chan
  /-- `S.ctl`: absent, or present with `last` (rule R25). -/
  ctl : Option Int
  /-- `S.stop` (rule R26). -/
  stop : Bool
  /-- The controller's condition flag `override`; none while no cycle or `TARGET_DUTY` has set it (rules R27, R28; log 10). -/
  override : Option Bool
  /-- `S.loop.phase` (rule R30). -/
  loop : LoopPhase
  /-- `S.exit` (rule R32). -/
  exit : Option Int
  /-- `S.cmd` (rule R33). -/
  cmd : Cmd
  /-- `S.trace` (rule R34), oldest event first. -/
  trace : List Event
  /-- `S.fault` (rule R35). -/
  fault : Option FaultKind
  /-- What the last operation returned to its caller (rule R15; log 4). -/
  ret : Option OpResult
  /-- A `RunTool` was called that never returns (rule R285; log 5). -/
  stuckInTool : Bool
  /-- The environment agents (log 2). -/
  env : Env
  /-- What the host user started (log 6). -/
  invocation : Invocation
  deriving DecidableEq, Repr

/-! ## How a step can stop -/

/-- Why a step is not taken although something is left to run. -/
inductive Fault where
  /-- `S.fault` is set: "No block step is enabled after it is set" (rule R35). Raised by `step` only. Safe: the
  spec gives the block no further step. -/
  | modelFault (f : FaultKind)
  /-- The block waits for a `RunTool` that never returns (rule R285). Raised by `step` only. Safe: the block takes no
  further step (entry I6, "stuck"). -/
  | toolNeverReturns
  deriving DecidableEq, Repr

/-- Why there is no step to take. -/
inductive Refusal where
  /-- An instruction without a meaning in this model. Raised by `exec` only, for arms not modelled. Safe. -/
  | notModelled (mnemonic : String)
  /-- The host user has started neither a command nor a program. Raised by `step` only. Safe. -/
  | nothingToRun
  /-- The command has ended or the program's last word has run (rules R83, R248). Raised by `step` only. Safe. -/
  | ended
  deriving DecidableEq, Repr

/-- The outcome of an operation inside a step: it returned a value, or the block stopped inside it, having raised
a model fault (rule R275) or called a tool that never returns (rule R285). -/
inductive Res (α : Type) where
  | done (a : α) (s : State)
  | halted (s : State)
  deriving DecidableEq, Repr

/-! ## Reset -/

/-- `S.chan` at reset (rules R24, R41). `cmd`, `addr`, `value` are unspecified there: 0 is the model's (log 9). -/
def Chan.reset : Chan where
  phase := .idle
  kind := .none
  cmd := 0
  addr := 0
  value := 0
  attempt := 0
  timedOut := false
  result := none
  timeouts := []

/-- The environment of which nothing is known: every answer is a free value (rules R41, R310). -/
def Env.unknown : Env where
  grants := []
  ec := .lawless []
  entryLists := []
  names := []
  temps := []
  fileTests := []
  toolRuns := []
  stops := []
  count := 0

/-- The block at process start (rules R41, R310) under a configuration, in an environment, with what the host user
starts. -/
def State.boot (c : Config) (e : Env) (inv : Invocation) : State where
  cfg := c
  session := .none
  acquireCount := 0
  chan := .reset
  ctl := none
  stop := false
  override := none
  loop := .off
  exit := none
  cmd := ⟨.start, false⟩
  trace := []
  fault := none
  ret := none
  stuckInTool := false
  env := e
  invocation := inv

/-- The machine right after reset (rules R41, R310). The configuration is the model's choice (log 7). -/
def State.reset : State := .boot referenceConfig .unknown .nothing

end Sys2Proof.Machine
end

