-- ==== Sys2Proof/Machine/Operands.lean ====
section
/-! DEFINITION. Parameters and operands: the configuration checks of rule R8, the per-channel parameters, the
port numbers, the unit conversions of rules R16, R143, R145, R147, and the text forms of rules R174, R175, R249. -/

namespace Sys2Proof.Machine

/-! ## Configuration -/

/-- The checks of rule R8. -/
def configOk (c : Config) : Bool :=
  c.portSC ≠ c.portData && c.ibfBit ≠ c.obfBit && decide (1 ≤ c.pollBudget) && decide (c.minTemp < c.maxTemp) &&
    decide (0 ≤ c.deadBand) && decide (0 ≤ c.minDuty) && decide (c.minDuty ≤ 100) && decide (1 ≤ c.step) &&
    decide (1 ≤ c.sysfsMaxInputs) && decide (c.vendorLo < c.vendorHi)

/-- A per-channel parameter at a channel. -/
def forChannel {α : Type} (p : PerChannel α) (ch : Channel) : α :=
  match ch with
  | .one => p.one
  | .two => p.two

/-- The number of a port (rules R7, R50). -/
def portNumber (c : Config) (p : Port) : BitVec 16 :=
  match p with
  | .sc => c.portSC
  | .data => c.portData

/-! ## Rounding and conversions -/

/-- `clamp(x, lo, hi)` (rule R16). -/
def clamp (x lo hi : Int) : Int := min hi (max lo x)

/-- `RoundT(num / den)` for `den > 0` (rule R16): the nearest integer, ties by `ROUND_TIE`. -/
def roundQuot (tie : RoundTie) (num den : Int) : Int :=
  let q := num / den
  let r := num % den
  if 2 * r < den then q
  else if den < 2 * r then q + 1
  else
    match tie with
    | .halfUp => q + 1
    | .halfEven => if q % 2 = 0 then q else q + 1

/-- `DutyFromRaw(raw)` (rule R143), 255 being `DUTY_RAW_MAX` (rule R7). The quotient by a `DUTY_RAW_MAX` of 0 is a free
value (log 36). -/
def dutyFromRaw (c : Config) (raw : Byte) : Int :=
  clamp (if c.dutyRawMax = 0 then Config.freeDutyPercent raw
    else roundQuot c.roundTie (100 * raw.toNat) c.dutyRawMax) 0 100

/-- `RawFromDuty(p)` for `p ∈ 0..100` (rule R147), 255 being `DUTY_RAW_MAX` (rule R7). A rounded value that is no byte
leaves the byte free (log 36). -/
def rawFromDuty (c : Config) (p : Int) : Byte :=
  let raw := roundQuot c.roundTie (c.dutyRawMax * p) 100
  if raw ≤ 255 then BitVec.ofInt 8 raw else Config.freeDutyByte c.dutyRawMax p

/-- `RpmFromRaw(raw16)` (rule R145): exact over ℚ, 0 for a stopped fan. -/
def rpmFromRaw (rpmK : Nat) (raw16 : BitVec 16) : Rat :=
  if raw16 = 0 then 0 else mkRat rpmK raw16.toNat

/-- `MilliToC(m) = floorDiv(m, 1000)` (rule R175). -/
def milliToC (m : Int) : Int := m / 1000

/-! ## Text -/

/-- ASCII whitespace: space, tab, line feed, vertical tab, form feed, carriage return (log 17). -/
def isAsciiSpace (c : Char) : Bool :=
  c = ' ' || (decide (9 ≤ c.toNat) && decide (c.toNat ≤ 13))

/-- `t` with trailing ASCII whitespace removed (rule R174). -/
def trimRight (t : Text) : Text := (t.reverse.dropWhile isAsciiSpace).reverse

/-- `t` with leading and trailing ASCII whitespace removed (rule R175). -/
def trimText (t : Text) : Text := trimRight (t.dropWhile isAsciiSpace)

/-- A decimal digit. -/
def isDecDigit (c : Char) : Bool := decide (48 ≤ c.toNat) && decide (c.toNat ≤ 57)

/-- One or more decimal digits, as a number. -/
def parseDigits (t : Text) : Option Nat :=
  if t = [] then none
  else if t.all isDecDigit then some (t.foldl (fun n c => 10 * n + (c.toNat - 48)) 0)
  else none

/-- An optional `-` followed by one or more decimal digits, with nothing else (rules R175, R249). -/
def parseDecimal (t : Text) : Option Int :=
  match t with
  | '-' :: ds => (parseDigits ds).map fun n : Nat => -(n : Int)
  | ds => (parseDigits ds).map fun n : Nat => (n : Int)

/-- `ParseInt(txt)` (rule R175). -/
def parseInt (t : Text) : Option Int := parseDecimal (trimText t)

/-- `AllowListed(n)` (rule R174). -/
def allowListed (c : Config) (name : Text) : Bool := c.allowList.contains (trimRight name)

/-- The field of the tool's output that is parsed (rule R176): the first line, up to its first comma. -/
def vendorField (out : Text) : Text := (out.takeWhile (· ≠ '\n')).takeWhile (· ≠ ',')

/-- The vendor tool's value in its accepted range (rule R176). -/
def vendorValue (c : Config) (out : Text) : Option Int :=
  match parseInt (vendorField out) with
  | none => none
  | some v => if c.vendorLo < v ∧ v < c.vendorHi then some v else none

/-- A sysfs input's usable value in °C (rules R173, R175): an integer text with a milli-value above 0. -/
def sysfsValue (txt : Option Text) : Option Int :=
  match txt.bind parseInt with
  | none => none
  | some m => if m ≤ 0 then none else some (milliToC m)

/-- The hotter of the best value so far and a new one (rule R173). -/
def hotter (best new : Option Int) : Option Int :=
  match best, new with
  | none, n => n
  | some b, none => some b
  | some b, some n => some (max b n)

/-! ## Percent operands of the manual commands -/

/-- Percent validation (rules R241, R249): a value in 0..100, or the rejected value. -/
def validPercent (p : Int) : Except Rejected Int :=
  if 0 ≤ p ∧ p ≤ 100 then .ok p else .error (.percent p)

/-- The textual argument of `set`, `set1`, `set2` (rule R249). -/
def argPercent (arg : Option Text) : Except Rejected Int :=
  match arg.bind parseDecimal with
  | none => .error (.argument arg)
  | some p => validPercent p

/-! ## Error codes -/

/-- The error codes of rule R270. -/
def errorCode (e : ErrorKind) : Nat :=
  match e with
  | .permissionError => 1
  | .timeoutError _ => 2
  | .sensorUnavailable _ => 3
  | .invalidInput _ => 4

end Sys2Proof.Machine
end

