-- ==== Sys2Proof/Machine/Flags.lean ====
section
/-! DEFINITION. The condition bits: the EC status conditions of rules R31, R36, R102, and the writers of the block's
flags `S.chan.timed_out` (rule R24), `override` (rule R28) and `S.stop` (rule R26). -/

namespace Sys2Proof.Machine

/-- `IBF_EMPTY(s)`: the input-buffer-empty condition of a status byte (rule R102). -/
def ibfEmpty (c : Config) (status : Byte) : Bool := !status.getLsbD c.ibfBit.val

/-- `OBF_FULL(s)`: the output-buffer-full condition of a status byte (rule R102). -/
def obfFull (c : Config) (status : Byte) : Bool := status.getLsbD c.obfBit.val

/-- The override condition: `hot ≥ MAX_TEMP` (rule R28). -/
def overrideAt (c : Config) (hot : Int) : Bool := decide (c.maxTemp ≤ hot)

/-- Wait `k` of a transaction expired: `TimeoutError(k)` is raised (rules R270, R272) and `S.chan.timed_out <- true`
(rules R104, R105, R106). -/
def markTimedOut (k : Nat) (s : State) : State :=
  { s with chan := { s.chan with timedOut := true, timeouts := s.chan.timeouts ++ [.timeoutError k] } }

/-- Writing the `override` flag (rules R28, R201). -/
def setOverride (o : Bool) (s : State) : State := { s with override := some o }

/-- The flag is transient: discarded at the end of the cycle (rule R27). -/
def clearOverride (s : State) : State := { s with override := none }

/-- `S.stop <- true` when `raised` (rules R26, R279): raising twice is raising once, nothing clears it. -/
def raiseStop (raised : Bool) (s : State) : State := { s with stop := s.stop || raised }

end Sys2Proof.Machine
end

