-- ==== Sys2Proof/Machine/Ops.lean ====
section
/-! DEFINITION. The shared operations: raising a model fault (rule R275) and returning an error (rules R277, R278), the
register cells of the reference EC, the environment's answers, the port, sleep and sensor primitives of rules R13 and
R14, and the bounded wait of rule R101. -/

namespace Sys2Proof.Machine

/-! ## Faults, errors and results -/

/-- Raising a model fault (rule R275): `S.fault <- F` and nothing else. The mark is sticky: a fault already set stays
(rule R35). No vector, no saved state, no mode (rule R277). -/
def raise (f : FaultKind) (s : State) : State :=
  match s.fault with
  | none => { s with fault := some f }
  | some _ => s

/-- `fault F` inside an operation (rule R15): the block stops there. -/
def faultRes {α : Type} (f : FaultKind) (s : State) : Res α := .halted (raise f s)

/-- Go on with an operation's value, unless the block stopped inside it. -/
def andThen {α β : Type} (r : Res α) (k : α → State → Res β) : Res β :=
  match r with
  | .done a s => k a s
  | .halted s => .halted s

/-- The result an operation without a value returned: `Ok` or `Err(e)` (rule R15). -/
def unitResult (r : Except ErrorKind Unit) : OpResult :=
  match r with
  | .ok _ => .ok
  | .error e => .err e

/-- The state an operation returned in (rules R15, R278): its result is recorded and the caller goes on. An operation
the block stopped in returned nothing (log 29). -/
def returned {α : Type} (result : α → OpResult) (r : Res α) : State :=
  match r with
  | .done a s => { s with ret := some (result a) }
  | .halted s => { s with ret := none }

/-- The return of an operation run as an instruction. -/
def finish {α : Type} (result : α → OpResult) (r : Res α) : Host.Outcome State Fault Refusal :=
  .next (returned result r)

/-- An event appended to the trace (rule R34). -/
def emit (e : Event) (s : State) : State := { s with trace := s.trace ++ [e] }

/-- The environment after an answer. -/
def withEnv (e : Env) (s : State) : State := { s with env := e }

/-! ## Register cells (the EC register file of rule R38 under the reference EC of rule R291)

A list of (address, byte) cells, addresses strictly rising, none above 0xFF, none holding 0x00, which an unlisted
register reads as. -/

/-- The byte at an address. -/
def cellRead (m : List Host.Cell) (a : Nat) : Byte :=
  match m with
  | [] => 0
  | (k, v) :: rest => if k = a then v else cellRead rest a

/-- A byte stored at an address, keeping the canonical form. -/
def cellWrite (m : List Host.Cell) (a : Nat) (v : Byte) : List Host.Cell :=
  match m with
  | [] => if v = 0 then [] else [(a, v)]
  | (k, x) :: rest =>
    if a < k then (if v = 0 then (k, x) :: rest else (a, v) :: (k, x) :: rest)
    else if a = k then (if v = 0 then rest else (a, v) :: rest)
    else (k, x) :: cellWrite rest a v

/-- The cells from address `lo` on are in canonical form. -/
def cellsFrom (lo : Nat) (m : List Host.Cell) : Bool :=
  match m with
  | [] => true
  | (k, v) :: rest => decide (lo ≤ k) && decide (k < 256) && decide (v ≠ 0) && cellsFrom (k + 1) rest

/-- The canonical form of a register file. -/
def Memory.wf (m : List Host.Cell) : Bool := cellsFrom 0 m

/-! ## The reference EC (rule R291) -/

/-- The status byte of `REF_EC`: IBF 0, OBF 1 exactly when the latch is full, other bits 0. Of `REF_EC_BUSY`: IBF 1,
OBF 0. -/
def refStatus (c : Config) (r : RefEc) : Byte :=
  if r.busy then BitVec.twoPow 8 c.ibfBit.val
  else if r.latch.isSome then BitVec.twoPow 8 c.obfBit.val
  else 0

/-- A data-port read: the latch, emptied; with an empty latch the last byte returned; 0xFF when busy. -/
def refDataIn (r : RefEc) : Byte × RefEc :=
  if r.busy then (0xFF, r)
  else
    match r.latch with
    | some v => (v, { r with latch := none, lastByte := v })
    | none => (r.lastByte, r)

/-- A command byte: `CMD_READ` and `CMD_SET_DUTY` begin a command, any other is ignored with its operands (log 18). -/
def refCommand (c : Config) (v : Byte) (r : RefEc) : RefEc :=
  if v = c.cmdRead then { r with stage := .readAddr }
  else if v = c.cmdSetDuty then { r with stage := .dutySub }
  else { r with stage := .idle }

/-- `R[REG_DUTY[ch]] <- v` for the channel a sub-address names. -/
def refSetDuty (c : Config) (sub v : Byte) (ch : Channel) (m : List Host.Cell) : List Host.Cell :=
  if forChannel c.subAddr ch = sub then cellWrite m (forChannel c.regDuty ch).toNat v else m

/-- An operand byte on the data port. -/
def refDataOut (c : Config) (v : Byte) (r : RefEc) : RefEc :=
  match r.stage with
  | .idle => r
  | .readAddr => { r with stage := .idle, latch := some (cellRead r.regs v.toNat) }
  | .dutySub => { r with stage := .dutyValue v }
  | .dutyValue sub =>
    { r with stage := .idle, regs := refSetDuty c sub v .two (refSetDuty c sub v .one r.regs) }

/-! ## The environment's answers (rules R14, R285)

Each takes the next supplied answer, or a free value when none is left (log 2). -/

/-- `OsAcquirePorts()`. -/
def drawGrant (e : Env) : Bool × Env :=
  match e.grants with
  | a :: rest => (a, { e with grants := rest })
  | [] => (Config.freeGrant e.count, { e with count := e.count + 1 })

/-- `SysfsList()`. -/
def drawEntries (e : Env) : List Nat × Env :=
  match e.entryLists with
  | a :: rest => (a, { e with entryLists := rest })
  | [] => (Config.freeEntries e.count, { e with count := e.count + 1 })

/-- `SysfsName(e)`. -/
def drawName (e : Env) : Option Text × Env :=
  match e.names with
  | a :: rest => (a, { e with names := rest })
  | [] => (Config.freeName e.count, { e with count := e.count + 1 })

/-- `SysfsTemp(e, k)`. -/
def drawTemp (e : Env) : Option Text × Env :=
  match e.temps with
  | a :: rest => (a, { e with temps := rest })
  | [] => (Config.freeTemp e.count, { e with count := e.count + 1 })

/-- `FileExists(path)`. -/
def drawFileTest (e : Env) : Bool × Env :=
  match e.fileTests with
  | a :: rest => (a, { e with fileTests := rest })
  | [] => (Config.freeFileTest e.count, { e with count := e.count + 1 })

/-- `RunTool(path)`. -/
def drawToolRun (e : Env) : ToolRun × Env :=
  match e.toolRuns with
  | a :: rest => (a, { e with toolRuns := rest })
  | [] => (Config.freeToolRun e.count, { e with count := e.count + 1 })

/-- The interrupt source's move of one step (rule R279). -/
def drawStop (e : Env) : Bool × Env :=
  match e.stops with
  | a :: rest => (a, { e with stops := rest })
  | [] => (Config.freeStop e.count, { e with count := e.count + 1 })

/-- A byte the EC answers on a port (rules R36, R285, R291). -/
def drawPort (c : Config) (p : Port) (e : Env) : Byte × Env :=
  match e.ec with
  | .lawless (b :: rest) => (b, { e with ec := .lawless rest })
  | .lawless [] => (Config.freeByte e.count, { e with count := e.count + 1 })
  | .reference r =>
    match p with
    | .sc => (refStatus c r, e)
    | .data => ((refDataIn r).1, { e with ec := .reference (refDataIn r).2 })

/-- The EC after a byte on a port (rules R59, R291). A lawless EC's later answers are draws whatever was sent. -/
def ecAfterOut (c : Config) (p : Port) (v : Byte) (ec : Ec) : Ec :=
  match ec with
  | .lawless bs => .lawless bs
  | .reference r =>
    match p with
    | .sc => .reference (refCommand c v r)
    | .data => .reference (refDataOut c v r)

/-! ## Port and sleep primitives (rule R13) -/

/-- `PortIn(p)`: the EC's answer, and the event. -/
def portIn (p : Port) (s : State) : Byte × State :=
  let a := drawPort s.cfg p s.env
  (a.1, emit (.portIn p a.1) (withEnv a.2 s))

/-- `PortOut(p, v)`: the event, and the EC takes the byte. -/
def portOut (p : Port) (v : Byte) (s : State) : State :=
  emit (.portOut p v) (withEnv { s.env with ec := ecAfterOut s.cfg p v s.env.ec } s)

/-- `Sleep(ms)`: the event and nothing else (rule R323). -/
def sleep (ms : Nat) (s : State) : State := emit (.sleep ms) s

/-! ## Sensor primitives (rule R14) -/

/-- `SysfsList()`. -/
def sysfsList (s : State) : List Nat × State :=
  let a := drawEntries s.env
  (a.1, emit (.sysfsList a.1) (withEnv a.2 s))

/-- `SysfsName(e)`. -/
def sysfsName (entry : Nat) (s : State) : Option Text × State :=
  let a := drawName s.env
  (a.1, emit (.sysfsName entry a.1) (withEnv a.2 s))

/-- `SysfsTemp(e, k)`. -/
def sysfsTemp (entry k : Nat) (s : State) : Option Text × State :=
  let a := drawTemp s.env
  (a.1, emit (.sysfsTemp entry k a.1) (withEnv a.2 s))

/-- `FileExists(VENDOR_TOOL_PATH)`. -/
def toolExists (s : State) : Bool × State :=
  let a := drawFileTest s.env
  (a.1, emit (.fileExists s.cfg.toolPath a.1) (withEnv a.2 s))

/-- `RunTool(VENDOR_TOOL_PATH)`: the output, or none if it could not be run; the block stops in a tool that never
returns (rule R285; log 5). -/
def runTool (s : State) : Res (Option Text) :=
  let a := drawToolRun s.env
  let t := emit (.runTool s.cfg.toolPath a.1) (withEnv a.2 s)
  match a.1 with
  | .output txt => .done (some txt) t
  | .notRun => .done none t
  | .neverReturns => .halted { t with stuckInTool := true }

/-- The interrupt source's move of one step (rules R279, R280; log 3). -/
def interrupt (s : State) : State :=
  let a := drawStop s.env
  raiseStop a.1 (withEnv a.2 s)

/-! ## The wait (rule R101) -/

/-- `S.chan.attempt <- n`. -/
def setAttempt (n : Nat) (s : State) : State := { s with chan := { s.chan with attempt := n } }

/-- `S.chan.phase <- p` (rule R12). -/
def setPhase (p : ChanPhase) (s : State) : State := { s with chan := { s.chan with phase := p } }

/-- The polls of a wait with `left` attempts still allowed: one status read each, a sleep between two. -/
def poll (cond : Byte → Bool) (left : Nat) (s : State) : Bool × State :=
  match left with
  | 0 => (false, s)
  | n + 1 =>
    let a := portIn .sc (setAttempt (s.chan.attempt + 1) s)
    if cond a.1 then (true, a.2)
    else if n = 0 then (false, a.2)
    else poll cond n (sleep a.2.cfg.pollIntervalMs a.2)

/-- `Wait(cond)`. -/
def wait (cond : Byte → Bool) (s : State) : Bool × State :=
  poll cond s.cfg.pollBudget (setAttempt 0 s)

end Sys2Proof.Machine
end

