-- ==== Sys2Proof/Machine/Channel.lean ====
section
/-! DEFINITION. The EC Channel: ACQUIRE (rule R100), EC_READ (rules R104, R105), EC_WRITE (rule R106), and the step-level
sequencer of rule R108. -/

namespace Sys2Proof.Machine

/-! ## Session -/

/-- `ACQUIRE()` (rule R100). -/
def acquire (s : State) : Res (Except ErrorKind Unit) :=
  if 1 ≤ s.acquireCount then faultRes .doubleAcquire s
  else
    let a := drawGrant s.env
    .done (if a.1 then .ok () else .error .permissionError)
      { s with acquireCount := 1, env := a.2, session := if a.1 then .held else .denied }

/-- The preconditions of a transaction, in order: the session (rule R103), then an idle channel (rule R110). -/
def channelFault (s : State) : Option FaultKind :=
  if s.session ≠ .held then some .noSession
  else if s.chan.phase ≠ .idle then some .channelBusy
  else none

/-- What the caller's taking of the result writes, in `DONE` (rule R108): `phase <- IDLE`, `kind <- NONE`. A whole
transaction ends in `DONE`; as a transition of its own it is `chanTake`. -/
def takeResult (s : State) : State := { s with chan := { s.chan with phase := .idle, kind := .none } }

/-! ## Register read -/

/-- The entry of a read (rule R104). -/
def beginRead (addr : Byte) (s : State) : State :=
  { s with chan := { s.chan with kind := .read, addr := addr, timedOut := false, timeouts := [] } }

/-- Wait `k` of a read in its phase: whether the sequence goes on to the next port step. An expired wait raises
`TimeoutError(k)` as the flag `timed_out` and, under `CONTINUE`, is treated as ended (rules R105, R270). -/
def readWait (k : Nat) (cond : Byte → Bool) (p : ChanPhase) (s : State) : Bool × State :=
  let w := wait cond (setPhase p s)
  if w.1 then w
  else
    match w.2.cfg.readTimeoutMode with
    | .abortSample => (false, markTimedOut k w.2)
    | .continueSequence => (true, markTimedOut k w.2)

/-- The data-port read that ends a read: step (6) of rule R104, and the sample of its `TIMEOUT` branch. -/
def readSample (s : State) : Byte × State :=
  let a := portIn .data s
  (a.1, { a.2 with chan := { a.2.chan with phase := .done, result := some (.byte a.1) } })

/-- Steps (1) to (6) of rule R104 after the entry; ends in phase `DONE`. -/
def readSequence (s : State) : Byte × State :=
  let w1 := readWait 1 (ibfEmpty s.cfg) .rW1 s
  if w1.1 then
    let w2 := readWait 2 (ibfEmpty s.cfg) .rW2 (portOut .sc s.cfg.cmdRead w1.2)
    if w2.1 then
      let w3 := readWait 3 (obfFull s.cfg) .rW3 (portOut .data w2.2.chan.addr w2.2)
      readSample w3.2
    else readSample w2.2
  else readSample w1.2

/-- `EcRead(addr)` (rule R104): the byte and the `timed_out` flag, the result taken by the caller. -/
def ecRead (addr : Byte) (s : State) : Res (Byte × Bool) :=
  match channelFault s with
  | some f => faultRes f s
  | none =>
    let r := readSequence (beginRead addr s)
    .done (r.1, r.2.chan.timedOut) (takeResult r.2)

/-! ## Register write -/

/-- The entry of a write (rule R106). -/
def beginWrite (cmd addr value : Byte) (s : State) : State :=
  { s with chan := { s.chan with kind := .write, cmd := cmd, addr := addr, value := value, timedOut := false,
                                 timeouts := [] } }

/-- `FAIL(k)` of rule R106: no further port event. -/
def writeFail (k : Nat) (s : State) : Except ErrorKind Unit × State :=
  let t := markTimedOut k s
  (.error (.timeoutError k), { t with chan := { t.chan with phase := .done, result := some (.timeout k) } })

/-- The end of a write that was confirmed. -/
def writeDone (s : State) : Except ErrorKind Unit × State :=
  (.ok (), { s with chan := { s.chan with phase := .done, result := some .unit } })

/-- Steps (1) to (4) of rule R106 after the entry; ends in phase `DONE`. -/
def writeSequence (s : State) : Except ErrorKind Unit × State :=
  let w1 := wait (ibfEmpty s.cfg) (setPhase .wW1 s)
  if w1.1 then
    let w2 := wait (ibfEmpty s.cfg) (setPhase .wW2 (portOut .sc w1.2.chan.cmd w1.2))
    if w2.1 then
      let w3 := wait (ibfEmpty s.cfg) (setPhase .wW3 (portOut .data w2.2.chan.addr w2.2))
      if w3.1 then
        let w4 := wait (ibfEmpty s.cfg) (setPhase .wW4 (portOut .data w3.2.chan.value w3.2))
        if w4.1 then writeDone w4.2 else writeFail 4 w4.2
      else writeFail 3 w3.2
    else writeFail 2 w2.2
  else writeFail 1 w1.2

/-- `EcWrite(cmd, addr, value)` (rule R106): `Ok` or `Err(TimeoutError(k))`, the result taken by the caller. -/
def ecWrite (cmd addr value : Byte) (s : State) : Res (Except ErrorKind Unit) :=
  match channelFault s with
  | some f => faultRes f s
  | none =>
    let r := writeSequence (beginWrite cmd addr value s)
    .done r.1 (takeResult r.2)

/-! ## The step-level sequencer (rule R108)

One step is one status read, with the sleep or the port event that may follow it. -/

/-- The condition a wait phase polls for (rules R24, R102); none for `IDLE` and `DONE`. -/
def phaseCondition (c : Config) (p : ChanPhase) : Option (Byte → Bool) :=
  match p with
  | .idle => none
  | .rW1 => some (ibfEmpty c)
  | .rW2 => some (ibfEmpty c)
  | .rW3 => some (obfFull c)
  | .wW1 => some (ibfEmpty c)
  | .wW2 => some (ibfEmpty c)
  | .wW3 => some (ibfEmpty c)
  | .wW4 => some (ibfEmpty c)
  | .done => none

/-- The move out of a wait phase whose condition holds. -/
def chanAdvance (s : State) : State :=
  match s.chan.phase with
  | .rW1 => setAttempt 0 (setPhase .rW2 (portOut .sc s.cfg.cmdRead s))
  | .rW2 => setAttempt 0 (setPhase .rW3 (portOut .data s.chan.addr s))
  | .rW3 => (readSample s).2
  | .wW1 => setAttempt 0 (setPhase .wW2 (portOut .sc s.chan.cmd s))
  | .wW2 => setAttempt 0 (setPhase .wW3 (portOut .data s.chan.addr s))
  | .wW3 => setAttempt 0 (setPhase .wW4 (portOut .data s.chan.value s))
  | .wW4 => (writeDone s).2
  | .idle => s
  | .done => s

/-- The move of an expired read wait `k` (rule R108: `ABORT_SAMPLE` samples the data port, `CONTINUE` goes on). -/
def chanExpireRead (k : Nat) (s : State) : State :=
  match s.cfg.readTimeoutMode with
  | .abortSample => (readSample (markTimedOut k s)).2
  | .continueSequence => chanAdvance (markTimedOut k s)

/-- The move out of a wait phase whose last attempt failed. -/
def chanExpire (s : State) : State :=
  match s.chan.phase with
  | .rW1 => chanExpireRead 1 s
  | .rW2 => chanExpireRead 2 s
  | .rW3 => chanExpireRead 3 s
  | .wW1 => (writeFail 1 s).2
  | .wW2 => (writeFail 2 s).2
  | .wW3 => (writeFail 3 s).2
  | .wW4 => (writeFail 4 s).2
  | .idle => s
  | .done => s

/-- One transition of `S.chan` (rule R108); none in `IDLE` and `DONE`, which only a caller leaves. -/
def chanStep (s : State) : Option State :=
  match phaseCondition s.cfg s.chan.phase with
  | none => none
  | some cond =>
    let a := portIn .sc (setAttempt (s.chan.attempt + 1) s)
    if cond a.1 then some (chanAdvance a.2)
    else if a.2.chan.attempt < a.2.cfg.pollBudget then some (sleep a.2.cfg.pollIntervalMs a.2)
    else some (chanExpire a.2)

/-- At most `n` transitions, stopping where none is enabled. -/
def chanRun (n : Nat) (s : State) : State :=
  match n with
  | 0 => s
  | k + 1 =>
    match chanStep s with
    | none => s
    | some t => chanRun k t

/-- A call enters a wait phase from `IDLE` alone, with the session held, `attempt` 0 (rules R103, R108); otherwise it is
the fault `NoSession` or `ChannelBusy` (rules R103, R110). -/
def chanCall (p : ChanPhase) (entry : State → State) (s : State) : Res Unit :=
  match channelFault s with
  | some f => faultRes f s
  | none => .done () (setAttempt 0 (setPhase p (entry s)))

/-- `IDLE`, `EcRead(a)` called → `R_W1` (rule R108). -/
def chanCallRead (addr : Byte) (s : State) : Res Unit := chanCall .rW1 (beginRead addr) s

/-- `IDLE`, `EcWrite(c, a, v)` called → `W_W1` (rule R108). -/
def chanCallWrite (cmd addr value : Byte) (s : State) : Res Unit := chanCall .wW1 (beginWrite cmd addr value) s

/-- `DONE`, the caller takes the result → `IDLE` (rule R108); no result is taken in another phase. -/
def chanTake (s : State) : Option State := if s.chan.phase = .done then some (takeResult s) else none

/-! ## Meanings -/

/-- `ACQUIRE` (rule R100). -/
def execAcquire (s : State) : Host.Outcome State Fault Refusal := finish unitResult (acquire s)

/-- `EC_READ addr` (rule R104). -/
def execEcRead (addr : Byte) (s : State) : Host.Outcome State Fault Refusal :=
  finish (fun r => .ecByte r.1 r.2) (ecRead addr s)

/-- `EC_WRITE cmd, addr, value` (rule R106). -/
def execEcWrite (cmd addr value : Byte) (s : State) : Host.Outcome State Fault Refusal :=
  finish unitResult (ecWrite cmd addr value s)

end Sys2Proof.Machine
end

