-- ==== Sys2Proof/Machine/RegisterMap.lean ====
section
/-! DEFINITION. The Register Map (rules R140 to R150): register reads and writes with their unit conversions. It holds
no state (rule R150); the `timed_out` flag of its reads is ignored (rule R149). -/

namespace Sys2Proof.Machine

/-- One EC read, its byte alone (rule R149). -/
def readByte (addr : Byte) (s : State) : Res Byte :=
  andThen (ecRead addr s) fun r t => .done r.1 t

/-- `CPU_TEMP_READ()` (rule R140): an unsigned byte in °C. -/
def cpuTempRead (s : State) : Res Int :=
  andThen (readByte s.cfg.regCpuTemp s) fun b t => .done (b.toNat : Int) t

/-- `GPU_TEMP_EC_READ()` (rule R141). -/
def gpuTempEcRead (s : State) : Res Int :=
  andThen (readByte s.cfg.regGpuTemp s) fun b t => .done (b.toNat : Int) t

/-- `FAN_DUTY_READ(ch)` (rule R142). -/
def fanDutyRead (ch : Channel) (s : State) : Res Int :=
  andThen (readByte (forChannel s.cfg.regDuty ch) s) fun raw t => .done (dutyFromRaw s.cfg raw) t

/-- `FAN_RPM_READ(ch)` (rule R144): the high byte first, then the low byte. -/
def fanRpmRead (ch : Channel) (s : State) : Res (BitVec 16 × Rat) :=
  andThen (readByte (forChannel s.cfg.regRpmHi ch) s) fun hi t =>
    andThen (readByte (forChannel s.cfg.regRpmLo ch) t) fun lo u =>
      let raw16 : BitVec 16 := hi ++ lo
      .done (raw16, rpmFromRaw s.cfg.rpmK raw16) u

/-- `FAN_DUTY_WRITE(ch, percent)` (rule R146). -/
def fanDutyWrite (ch : Channel) (percent : Int) (s : State) : Res (Except ErrorKind Unit) :=
  ecWrite s.cfg.cmdSetDuty (forChannel s.cfg.subAddr ch) (rawFromDuty s.cfg (clamp percent 0 100)) s

/-- `CPU_TEMP_READ` (rule R140). -/
def execCpuTempRead (s : State) : Host.Outcome State Fault Refusal := finish .number (cpuTempRead s)

/-- `GPU_TEMP_EC_READ` (rule R141). -/
def execGpuTempEcRead (s : State) : Host.Outcome State Fault Refusal := finish .number (gpuTempEcRead s)

/-- `FAN_DUTY_READ ch` (rule R142). -/
def execFanDutyRead (ch : Channel) (s : State) : Host.Outcome State Fault Refusal :=
  finish .number (fanDutyRead ch s)

/-- `FAN_RPM_READ ch` (rule R144). -/
def execFanRpmRead (ch : Channel) (s : State) : Host.Outcome State Fault Refusal :=
  finish (fun r => .rpm r.1 r.2) (fanRpmRead ch s)

/-- `FAN_DUTY_WRITE ch, percent` (rule R146). -/
def execFanDutyWrite (ch : Channel) (percent : Byte) (s : State) : Host.Outcome State Fault Refusal :=
  finish unitResult (fanDutyWrite ch percent.toNat s)

end Sys2Proof.Machine
end

