-- ==== Sys2Proof/Machine/TempMux.lean ====
section
/-! DEFINITION. The temperature multiplexer (rules R170 to R183): the CPU domain from the EC, the GPU domain from sysfs,
else the vendor tool, else the EC. It holds no state (rules R29, R182). -/

namespace Sys2Proof.Machine

/-- `RESOLVE_CPU()` (rule R171). -/
def resolveCpu (s : State) : Res Reading :=
  andThen (cpuTempRead s) fun v t => .done ⟨.cpu, v, .ecFallback⟩ t

/-- The inputs `temp<k>_input` … of one accepted entry, `left` of them from `k` on (rule R173). -/
def scanInputs (entry k left : Nat) (best : Option Int) (s : State) : Option Int × State :=
  match left with
  | 0 => (best, s)
  | n + 1 =>
    let a := sysfsTemp entry k s
    scanInputs entry (k + 1) n (hotter best (sysfsValue a.1)) a.2

/-- The hwmon entries in the listed order (rule R173): only an allow-listed entry's inputs are read. -/
def scanEntries (entries : List Nat) (best : Option Int) (s : State) : Option Int × State :=
  match entries with
  | [] => (best, s)
  | e :: rest =>
    let a := sysfsName e s
    match a.1 with
    | none => scanEntries rest best a.2
    | some n =>
      if allowListed a.2.cfg n then
        let b := scanInputs e 1 a.2.cfg.sysfsMaxInputs best a.2
        scanEntries rest b.1 b.2
      else scanEntries rest best a.2

/-- A stage's value, or `SensorUnavailable(stage)` (rules R270, R273). -/
def stageResult (stage : Nat) (v : Option Int) : Except ErrorKind Int :=
  match v with
  | none => .error (.sensorUnavailable stage)
  | some n => .ok n

/-- `SysfsStage()`, stage 1 (rule R173). -/
def sysfsStage (s : State) : Except ErrorKind Int × State :=
  let l := sysfsList s
  let r := scanEntries l.1 none l.2
  (stageResult 1 r.1, r.2)

/-- `VendorStage()`, stage 2 (rule R176). -/
def vendorStage (s : State) : Res (Except ErrorKind Int) :=
  let x := toolExists s
  if x.1 then
    andThen (runTool x.2) fun out t => .done (stageResult 2 (out.bind (vendorValue s.cfg))) t
  else .done (stageResult 2 none) x.2

/-- Stage 3, the EC fallback: always usable (rule R177). -/
def ecStage (s : State) : Res Reading :=
  andThen (gpuTempEcRead s) fun v t => .done ⟨.gpu, v, .ecFallback⟩ t

/-- After stage 2 (rule R172): its value, else stage 3. -/
def afterVendor (r2 : Except ErrorKind Int) (s : State) : Res Reading :=
  match r2 with
  | .ok v => .done ⟨.gpu, v, .vendorTool⟩ s
  | .error _ => ecStage s

/-- After stage 1 (rule R172): its value, else stages 2 and 3. -/
def afterSysfs (r1 : Except ErrorKind Int) (s : State) : Res Reading :=
  match r1 with
  | .ok v => .done ⟨.gpu, v, .driverSysfs⟩ s
  | .error _ => andThen (vendorStage s) afterVendor

/-- `RESOLVE_GPU()` (rule R172): the first usable value, each stage only if the earlier gave none. -/
def resolveGpu (s : State) : Res Reading :=
  let r1 := sysfsStage s
  afterSysfs r1.1 r1.2

/-- `HOT(cpu, gpu)` (rule R180). -/
def hot (cpu gpu : Reading) : Int := max cpu.value gpu.value

/-- `RESOLVE_CPU` (rule R171). -/
def execResolveCpu (s : State) : Host.Outcome State Fault Refusal := finish .reading (resolveCpu s)

/-- `RESOLVE_GPU` (rule R172). -/
def execResolveGpu (s : State) : Host.Outcome State Fault Refusal := finish .reading (resolveGpu s)

end Sys2Proof.Machine
end

