-- ==== Sys2Proof/Machine/Controller.lean ====
section
/-! DEFINITION. The duty controller (rules R200 to R213): target, rate limit, the control cycle, the report, the auto
loop. -/

namespace Sys2Proof.Machine

/-! ## Arithmetic -/

/-- `RoundT(Interp(hot))` (rule R202): the linear map over one common denominator, rounded. -/
def interpRounded (c : Config) (hot : Int) : Int :=
  roundQuot c.roundTie (c.minDuty * (c.maxTemp - c.minTemp) + (100 - c.minDuty) * (hot - c.minTemp))
    (c.maxTemp - c.minTemp)

/-- The target of `TARGET_DUTY(hot, last)` (rule R201). -/
def targetValue (c : Config) (hot last : Int) : Int :=
  if c.maxTemp ≤ hot then 100
  else if last = 0 ∧ hot ≤ c.minTemp + c.deadBand then 0
  else if last ≠ 0 ∧ hot < c.minTemp - c.deadBand then 0
  else if hot ≤ c.minTemp then c.minDuty
  else clamp (interpRounded c hot) 0 100

/-- `TARGET_DUTY(hot, last)` (rule R201): the target and the override condition. -/
def targetDuty (c : Config) (hot last : Int) : Int × Bool := (targetValue c hot last, overrideAt c hot)

/-- `RATE_LIMIT(override, last, target)` (rule R203). -/
def rateLimit (c : Config) (override : Bool) (last target : Int) : Int :=
  if override then 100
  else if last < target then min target (last + c.step)
  else max target (last - c.step)

/-! ## Report -/

/-- The duty and rpm of one channel, duty first (rule R206). -/
def fanReport (ch : Channel) (s : State) : Res FanReport :=
  andThen (fanDutyRead ch s) fun d t =>
    andThen (fanRpmRead ch t) fun r u => .done ⟨d, r.1, r.2⟩ u

/-- `REPORT(cpu, gpu)` (rule R206). -/
def reportWith (cpu gpu : Reading) (s : State) : Res Unit :=
  andThen (fanReport .one s) fun f1 t =>
    andThen (fanReport .two t) fun f2 u => .done () (emit (.report ⟨cpu, gpu, u.ctl, f1, f2⟩) u)

/-- The standalone `REPORT()` (rule R206): it resolves the temperatures itself. -/
def reportAlone (s : State) : Res Unit :=
  andThen (resolveCpu s) fun cpu t =>
    andThen (resolveGpu t) fun gpu u => reportWith cpu gpu u

/-! ## The control cycle -/

/-- Both channel writes, channel 1 first, both attempted (rule R205). -/
def writeBoth (duty : Int) (s : State) : Res (Except ErrorKind Unit × Except ErrorKind Unit) :=
  andThen (fanDutyWrite .one duty s) fun r1 t =>
    andThen (fanDutyWrite .two duty t) fun r2 u => .done (r1, r2) u

/-- Both writes returned `Ok`. -/
def bothOk (r : Except ErrorKind Unit × Except ErrorKind Unit) : Bool :=
  match r with
  | (.ok _, .ok _) => true
  | _ => false

/-- Step 4 of the cycle (rules R204, R205): write a changed duty, and take it as `last` only if both writes
succeeded. -/
def applyDuty (last duty : Int) (s : State) : Res Unit :=
  if duty = last then .done () s
  else
    andThen (writeBoth duty s) fun r t =>
      .done () (if bothOk r then { t with ctl := some duty } else t)

/-- `CONTROL_CYCLE()` (rule R204). `RATE_LIMIT` reads the `override` flag `TARGET_DUTY` set (rule R28). -/
def controlCycle (s : State) : Res Unit :=
  match s.ctl with
  | none => faultRes .noControlState s
  | some last =>
    andThen (resolveCpu s) fun cpu t =>
      andThen (resolveGpu t) fun gpu u =>
        let target := targetDuty u.cfg (hot cpu gpu) last
        let v := setOverride target.2 u
        let duty := rateLimit v.cfg (v.override == some true) last target.1
        andThen (applyDuty last duty v) fun _ w =>
          andThen (reportWith cpu gpu w) fun _ x => .done () (clearOverride x)

/-! ## The auto loop -/

/-- The loop phases in which the loop is in progress (rule R211). -/
def loopRunning (p : LoopPhase) : Bool :=
  match p with
  | .off => false
  | .top => true
  | .cycle => true
  | .preSleep => true
  | .sleeping => true
  | .postSleep => true
  | .exited => false

/-- The start of `AUTO_LOOP()`: the ControlState is created and the phase becomes `TOP` (rule R207). It is built on EC
operations, so it needs the session (rule R103; log 13). Nothing leaves `EXITED` (rule R207; log 14). -/
def startLoop (s : State) : Res Unit :=
  match channelFault s with
  | some f => faultRes f s
  | none =>
    if s.loop = .exited then .done () s
    else .done () { s with ctl := some (s.cfg.initLast.val : Int), loop := .top }

/-- `EXIT` of the loop: the ControlState is discarded and `AUTO_LOOP` returns `Ok` (rules R207, R210;
log 35). -/
def exitLoop (s : State) : State := { s with ctl := none, loop := .exited, ret := some .ok }

/-- One transition of `S.loop.phase` (rules R207, R208, R209). -/
def loopStep (s : State) : Host.Outcome State Fault Refusal :=
  match s.loop with
  | .off => .next s
  | .top => .next (if s.stop then exitLoop s else { s with loop := .cycle })
  | .cycle =>
    match controlCycle s with
    | .done _ t => .next { t with loop := .preSleep }
    | .halted t => .next t
  | .preSleep => .next (if s.stop then exitLoop s else { s with loop := .sleeping })
  | .sleeping => .next { (sleep s.cfg.tickMs s) with loop := .postSleep }
  | .postSleep => .next (if s.stop then exitLoop s else { s with loop := .top })
  | .exited => .next s

/-! ## Meanings -/

/-- `TARGET_DUTY hot, last` (rule R201). A `last` above 100 is illegal (rule R77 (e)). -/
def execTargetDuty (hot last : Byte) (s : State) : Host.Outcome State Fault Refusal :=
  if PercentOperand last then
    let t := targetDuty s.cfg hot.toNat last.toNat
    .next { (setOverride t.2 s) with ret := some (.target t.1 t.2) }
  else .next (raise .illegalEncoding s)

/-- `RATE_LIMIT override, last, target` (rule R203). A `last` or `target` above 100 is illegal (rule R77 (e)). -/
def execRateLimit (override : Bool) (last target : Byte) (s : State) : Host.Outcome State Fault Refusal :=
  if PercentOperand last ∧ PercentOperand target then
    .next { s with ret := some (.number (rateLimit s.cfg override last.toNat target.toNat)) }
  else .next (raise .illegalEncoding s)

/-- `CONTROL_CYCLE` (rule R204). -/
def execControlCycle (s : State) : Host.Outcome State Fault Refusal := finish (fun _ => .ok) (controlCycle s)

/-- `REPORT` (rule R206), the standalone form. -/
def execReport (s : State) : Host.Outcome State Fault Refusal := finish (fun _ => .ok) (reportAlone s)

end Sys2Proof.Machine
end

