-- ==== Sys2Proof/Machine/HostCommands.lean ====
section
/-! DEFINITION. The host commands (rules R240 to R250): the rules of SET, SET1, SET2, DUMP and AUTO, and PROCESS, which runs
one of them per process. -/

namespace Sys2Proof.Machine

/-! ## The commands' rules -/

/-- `S.cmd.failed <- true` (rule R33). -/
def failCommand (s : State) : State := { s with cmd := { s.cmd with failed := true } }

/-- Whether every write of `SET` succeeded (rule R242): both are attempted. -/
def writeForSet (p : Int) (s : State) : Res Bool := andThen (writeBoth p s) fun r t => .done (bothOk r) t

/-- Whether the one write of `SET1` or `SET2` succeeded (rules R243, R244). -/
def writeForOne (ch : Channel) (p : Int) (s : State) : Res Bool :=
  andThen (fanDutyWrite ch p s) fun r t => .done r.isOk t

/-- A manual command after its writes: a failed write fails the command, and the status is reported once whatever the
outcome (rules R242 to R244). What the command returns after a failed write the rules leave open: `Ok` is the model's
choice (log 37). -/
def reportAfter (ok : Bool) (s : State) : Res (Except ErrorKind Unit) :=
  andThen (reportAlone (if ok then s else failCommand s)) fun _ t => .done (.ok ()) t

/-- A manual command (rules R241 to R244): the preconditions of the EC operations it is built on (rules R103, R276),
validation before any EC transaction, the writes, the report. -/
def manualCommand (p : Except Rejected Int) (write : Int → State → Res Bool) (s : State) :
    Res (Except ErrorKind Unit) :=
  match channelFault s with
  | some f => faultRes f s
  | none =>
    match p with
    | .error v => .done (.error (.invalidInput v)) (failCommand s)
    | .ok n => andThen (write n s) reportAfter

/-- `SET(p)` (rule R242). -/
def setCommand (p : Except Rejected Int) (s : State) : Res (Except ErrorKind Unit) :=
  manualCommand p writeForSet s

/-- `SET1(p)` (rule R243). -/
def set1Command (p : Except Rejected Int) (s : State) : Res (Except ErrorKind Unit) :=
  manualCommand p (writeForOne .one) s

/-- `SET2(p)` (rule R244). -/
def set2Command (p : Except Rejected Int) (s : State) : Res (Except ErrorKind Unit) :=
  manualCommand p (writeForOne .two) s

/-- `DUMP()` (rule R245): the standalone report. -/
def dumpCommand (s : State) : Res (Except ErrorKind Unit) :=
  andThen (reportAlone s) fun _ t => .done (.ok ()) t

/-! ## Command texts (rule R80) -/

/-- The five host commands with their validated or rejected argument. -/
inductive HostCommand where
  | set (p : Except Rejected Int)
  | set1 (p : Except Rejected Int)
  | set2 (p : Except Rejected Int)
  | dump
  | auto

/-- The host command a command word names (rule R80); `none` for an unknown one. -/
def commandOfText (word : Text) (arg : Option Text) : Option HostCommand :=
  if word = ['s', 'e', 't'] then some (.set (argPercent arg))
  else if word = ['s', 'e', 't', '1'] then some (.set1 (argPercent arg))
  else if word = ['s', 'e', 't', '2'] then some (.set2 (argPercent arg))
  else if word = ['d', 'u', 'm', 'p'] then some .dump
  else if word = ['a', 'u', 't', 'o'] then some .auto
  else none

/-- The host command an operation is (rule R75); `none` for an internal operation. -/
def commandOfInstr (i : Instr) : Option HostCommand :=
  match i with
  | .set p => some (.set (validPercent p.toNat))
  | .set1 p => some (.set1 (validPercent p.toNat))
  | .set2 p => some (.set2 (validPercent p.toNat))
  | .dump => some .dump
  | .auto => some .auto
  | .acquire => none
  | .ecRead _ => none
  | .ecWrite _ _ _ => none
  | .cpuTempRead => none
  | .gpuTempEcRead => none
  | .fanDutyRead _ => none
  | .fanRpmRead _ => none
  | .fanDutyWrite _ _ => none
  | .resolveCpu => none
  | .resolveGpu => none
  | .targetDuty _ _ => none
  | .rateLimit _ _ _ => none
  | .controlCycle => none
  | .report => none

/-- The host command a process was started with (rule R240). -/
def commandOf (c : Command) : Option HostCommand :=
  match c with
  | .text word arg => commandOfText word arg
  | .encoded i => commandOfInstr i

/-! ## PROCESS (rule R240), one phase a step -/

/-- `S.cmd.phase <- p`. -/
def setCmdPhase (p : CmdPhase) (s : State) : State := { s with cmd := { s.cmd with phase := p } }

/-- The end of a process with an exit status (rules R32, R247). -/
def endProcess (status : Int) (s : State) : State := setCmdPhase .ended { s with exit := some status }

/-- The exit status of a command that ran: `EXIT_FAIL` if it failed, else 0 (rules R240, R247). -/
def exitStatus (s : State) : Int := if s.cmd.failed then s.cfg.exitFail.val else 0

/-- The end of a command's rule: the process ends with its status. -/
def endCommand (r : Res (Except ErrorKind Unit)) : Host.Outcome State Fault Refusal :=
  match r with
  | .done a t => .next (endProcess (exitStatus t) { t with ret := some (unitResult a) })
  | .halted t => .next t

/-- `ACQUIRING`: a denied session ends the process (rules R100, R240, R271). -/
def processAcquire (s : State) : Host.Outcome State Fault Refusal :=
  match acquire s with
  | .halted t => .next t
  | .done (.ok _) t => .next (setCmdPhase .dispatch { t with ret := some .ok })
  | .done (.error e) t => .next (endProcess s.cfg.exitFail.val { t with ret := some (.err e) })

/-- An unknown command fails and ends the process (rules R240, R274). -/
def unknownCommand (c : Command) (s : State) : State :=
  endProcess s.cfg.exitFail.val
    { (failCommand s) with ret := some (.err (.invalidInput (.command c))) }

/-- `AUTO` run by `PROCESS`: the loop is started, runs in steps of its own (`loopStep`), and the process ends once it
has exited (rules R207, R246). It leaves `ret` to the loop's `EXIT` (log 35). -/
def processAuto (s : State) : Host.Outcome State Fault Refusal :=
  if s.loop = .exited then .next (endProcess (exitStatus s) s)
  else
    match startLoop s with
    | .done _ t => .next t
    | .halted t => .next t

/-- `RUNNING`: the command's rule. -/
def processRun (h : HostCommand) (s : State) : Host.Outcome State Fault Refusal :=
  match h with
  | .set p => endCommand (setCommand p s)
  | .set1 p => endCommand (set1Command p s)
  | .set2 p => endCommand (set2Command p s)
  | .dump => endCommand (dumpCommand s)
  | .auto => processAuto s

/-- One step of `PROCESS(cmd)` (rule R240). -/
def processStep (c : Command) (s : State) : Host.Outcome State Fault Refusal :=
  match s.cmd.phase with
  | .start => .next (setCmdPhase .acquiring s)
  | .acquiring => processAcquire s
  | .dispatch =>
    match commandOf c with
    | none => .next (unknownCommand c s)
    | some _ => .next (setCmdPhase .running s)
  | .running =>
    match commandOf c with
    | none => .next (unknownCommand c s)
    | some h => processRun h s
  | .ended => .refused .ended

/-! ## Meanings: a host-command word of a CW32 program runs the command's rule alone (log 11) -/

/-- `SET p` (rule R242). -/
def execSet (percent : Byte) (s : State) : Host.Outcome State Fault Refusal :=
  finish unitResult (setCommand (validPercent percent.toNat) s)

/-- `SET1 p` (rule R243). -/
def execSet1 (percent : Byte) (s : State) : Host.Outcome State Fault Refusal :=
  finish unitResult (set1Command (validPercent percent.toNat) s)

/-- `SET2 p` (rule R244). -/
def execSet2 (percent : Byte) (s : State) : Host.Outcome State Fault Refusal :=
  finish unitResult (set2Command (validPercent percent.toNat) s)

/-- `DUMP` (rule R245). -/
def execDump (s : State) : Host.Outcome State Fault Refusal := finish unitResult (dumpCommand s)

/-- `AUTO` (rule R246): the loop is started; its phases are steps of their own (`loopStep`, log 1). Rule R207 returns `Ok`
at `EXIT`; what `ret` holds in between is the model's choice (log 35). -/
def execAuto (s : State) : Host.Outcome State Fault Refusal := finish (fun _ => .ok) (startLoop s)

end Sys2Proof.Machine
end

