-- ==== Sys2Proof/Machine/Dispatch.lean ====
section
/-! DEFINITION. One arm per operation: its meaning. -/

namespace Sys2Proof.Machine

def exec (i : Instr) (s : State) : Host.Outcome State Fault Refusal :=
  match i with
  | .set p => Sys2Proof.Machine.execSet p s
  | .set1 p => Sys2Proof.Machine.execSet1 p s
  | .set2 p => Sys2Proof.Machine.execSet2 p s
  | .dump => Sys2Proof.Machine.execDump s
  | .auto => Sys2Proof.Machine.execAuto s
  | .acquire => Sys2Proof.Machine.execAcquire s
  | .ecRead addr => Sys2Proof.Machine.execEcRead addr s
  | .ecWrite cmd addr value => Sys2Proof.Machine.execEcWrite cmd addr value s
  | .cpuTempRead => Sys2Proof.Machine.execCpuTempRead s
  | .gpuTempEcRead => Sys2Proof.Machine.execGpuTempEcRead s
  | .fanDutyRead ch => Sys2Proof.Machine.execFanDutyRead ch s
  | .fanRpmRead ch => Sys2Proof.Machine.execFanRpmRead ch s
  | .fanDutyWrite ch p => Sys2Proof.Machine.execFanDutyWrite ch p s
  | .resolveCpu => Sys2Proof.Machine.execResolveCpu s
  | .resolveGpu => Sys2Proof.Machine.execResolveGpu s
  | .targetDuty hot last => Sys2Proof.Machine.execTargetDuty hot last s
  | .rateLimit o last target => Sys2Proof.Machine.execRateLimit o last target s
  | .controlCycle => Sys2Proof.Machine.execControlCycle s
  | .report => Sys2Proof.Machine.execReport s

end Sys2Proof.Machine
end

