-- ==== Sys2Proof/Machine/Sequencer.lean ====
section
/-! DEFINITION. What runs next (rules R21, R83, R240, R312): the auto loop while it is in progress, else the process's
next phase, else the program's next word. -/

namespace Sys2Proof.Machine

/-- The next word of a CW32 program: decoded first, an illegal one raising `IllegalEncoding` with no other effect
(rules R77, R276); else run with the program moved past it (rule R83). -/
def wordStep (w : Word) (rest : List Word) (s : State) : Host.Outcome State Fault Refusal :=
  match decode w with
  | .error _ => .next (raise .illegalEncoding s)
  | .ok i => exec i { s with invocation := .program rest }

/-- One step of the block, when one is enabled. -/
def blockStep (s : State) : Host.Outcome State Fault Refusal :=
  if loopRunning s.loop then loopStep s
  else
    match s.invocation with
    | .nothing => .refused .nothingToRun
    | .process c => processStep c s
    | .program [] => .refused .ended
    | .program (w :: rest) => wordStep w rest s

/-- The interrupt source moves after each step (rules R279, R280; log 3). -/
def withInterrupt (o : Host.Outcome State Fault Refusal) : Host.Outcome State Fault Refusal :=
  match o with
  | .next t => .next (interrupt t)
  | .fault r => .fault r
  | .refused r => .refused r

/-- A step of the machine: none after a model fault (rule R35) or inside a tool that never returns (rule R285); a bad
configuration is refused before the block runs (rules R8, R275, R276). -/
def machineStep (s : State) : Host.Outcome State Fault Refusal :=
  match s.fault with
  | some f => .fault (.modelFault f)
  | none =>
    if s.stuckInTool then .fault .toolNeverReturns
    else if configOk s.cfg then withInterrupt (blockStep s)
    else .next (raise .badConfig s)

/-- A program with its next word replaced by `w`. -/
def placeWord (w : Word) (inv : Invocation) : Invocation :=
  match inv with
  | .nothing => .program [w]
  | .process _ => .program [w]
  | .program ws => .program (w :: ws.tail)

end Sys2Proof.Machine
end

