-- ==== Sys2Proof/Machine/Step.lean ====
section
/-! DEFINITION. The machine's step, and the placing of one word where it fetches its next instruction. -/

namespace Sys2Proof.Machine

/-- One step of the machine. -/
def step (s : State) : Host.Outcome State Fault Refusal := machineStep s

/-- `s` with the instruction whose `nbits` bits are `w` placed as the next word of its CW32 program (rule R83;
log 28). -/
def State.withFetchWord (s : State) (nbits w : Nat) : State :=
  { s with invocation := placeWord (BitVec.ofNat 32 (w % 2 ^ nbits)) s.invocation }

end Sys2Proof.Machine
end

