-- ==== Sys2Proof/Safety.lean ====
section
/-! DEFINITION. The terms claims are stated in: the invariant of every step, what an operation may change, what a trace
shows, and the named assumptions about the EC of rule R285. -/

namespace Sys2Proof.Machine

/-! ## Readiness and frames -/

/-- The preconditions of an EC operation hold (rules R103, R110). -/
abbrev Ready (s : State) : Prop := s.session = .held ∧ s.chan.phase = .idle

/-- `t` differs from `s` only in the EC channel's sequencer, the trace and the EC agent (with its count of free values):
what an EC transaction may write (rules R104, R106). -/
abbrev OnlyChannel (s t : State) : Prop :=
  t = { s with chan := t.chan, trace := t.trace, env := { s.env with ec := t.env.ec, count := t.env.count } }

/-- `t` differs from `s` only in the EC channel, the trace and the environment's answers: what a report, a resolver or
a read-only command may write (rules R172, R206). -/
abbrev OnlyObservation (s t : State) : Prop :=
  t = { s with chan := t.chan, trace := t.trace, env := t.env }

/-! ## What a trace shows -/

/-- A status read. -/
def isStatusRead (e : Event) : Bool :=
  match e with
  | .portIn .sc _ => true
  | _ => false

/-- A data-port read. -/
def isDataRead (e : Event) : Bool :=
  match e with
  | .portIn .data _ => true
  | _ => false

/-- A sleep. -/
def isSleep (e : Event) : Bool :=
  match e with
  | .sleep _ => true
  | _ => false

/-- A port event. -/
def isPortEvent (e : Event) : Bool :=
  match e with
  | .portIn _ _ => true
  | .portOut _ _ => true
  | _ => false

/-- The bytes sent, in order, each with its port. -/
def sent (es : List Event) : List (Port × Byte) :=
  es.filterMap fun e =>
    match e with
    | .portOut p v => some (p, v)
    | _ => none

/-- The events of a wait whose status reads answered `bs` (rule R101): a sleep between two reads, none before the first
or after the last. -/
def waitEvents (intervalMs : Nat) (bs : List Byte) : List Event :=
  match bs with
  | [] => []
  | b :: rest =>
    match rest with
    | [] => [.portIn .sc b]
    | _ :: _ => .portIn .sc b :: .sleep intervalMs :: waitEvents intervalMs rest

/-- The usable values of the sysfs inputs read, in °C (rules R173, R175). -/
def sysfsValues (es : List Event) : List Int :=
  es.filterMap fun e =>
    match e with
    | .sysfsTemp _ _ txt => sysfsValue txt
    | _ => none

/-- An event that sends a byte comes right after a status read; that read showed the input buffer empty, unless the
mode is `CONTINUE`, which sends after a timed-out wait by design (rule R315). -/
def sendAwaited (c : Config) (last : Option Event) (e : Event) : Bool :=
  match e with
  | .portOut _ _ =>
    match last with
    | some (.portIn .sc v) => ibfEmpty c v || c.readTimeoutMode == .continueSequence
    | _ => false
  | _ => true

/-- Every byte sent directly follows the status read that ended a wait (rule R315). `last` is the event before `es`. -/
def sendsAreAwaited (c : Config) (last : Option Event) (es : List Event) : Bool :=
  match es with
  | [] => true
  | e :: rest => sendAwaited c last e && sendsAreAwaited c (some e) rest

/-! ## Numbers as the rules state them -/

/-- `n` is the nearest integer to `q`; a tie goes as `ROUND_TIE` says (rule R16). -/
def IsRound (tie : RoundTie) (q : Rat) (n : Int) : Prop :=
  -(1 / 2 : Rat) ≤ n - q ∧ (n : Rat) - q ≤ 1 / 2 ∧
    (n - q = 1 / 2 ∨ n - q = -(1 / 2 : Rat) →
      match tie with
      | .halfUp => n - q = 1 / 2
      | .halfEven => n % 2 = 0)

/-- `Interp(hot)`, exactly over ℚ (rule R202). -/
def interp (c : Config) (hot : Int) : Rat :=
  c.minDuty + (100 - c.minDuty) * (hot - c.minTemp) / (c.maxTemp - c.minTemp)

/-- `target` is the target of rule R201, branch by branch. -/
def IsTarget (c : Config) (hot last target : Int) : Prop :=
  if c.maxTemp ≤ hot then target = 100
  else if last = 0 ∧ hot ≤ c.minTemp + c.deadBand then target = 0
  else if last ≠ 0 ∧ hot < c.minTemp - c.deadBand then target = 0
  else if hot ≤ c.minTemp then target = c.minDuty
  else IsRound c.roundTie (interp c hot) target

/-- The rpm of a raw counter, exactly over ℚ (rule R145). -/
def rpmOf (c : Config) (raw16 : Nat) : Rat := if raw16 = 0 then 0 else (c.rpmK : Rat) / raw16

/-- `d` is the percentage of a raw duty byte (rule R143): rounded and clamped. Where `DUTY_RAW_MAX` is 0 the quotient is no
number and only the clamp holds (log 36). -/
def IsDutyOf (c : Config) (raw : Byte) (d : Int) : Prop :=
  0 ≤ d ∧ d ≤ 100 ∧
    (0 < c.dutyRawMax → ∃ n, IsRound c.roundTie (100 * raw.toNat / c.dutyRawMax) n ∧ d = min 100 (max 0 n))

/-- `raw` is the raw byte of the percentage `p` (rule R147). Where the rounded value is above 255 the byte is free
(log 36). -/
def IsRawOf (c : Config) (p : Int) (raw : Byte) : Prop :=
  ∀ n : Int, IsRound c.roundTie (c.dutyRawMax * p / 100) n → n ≤ 255 → (raw.toNat : Int) = n

/-- `v` is the greatest of `vs`. -/
def IsGreatestOf (v : Int) (vs : List Int) : Prop := v ∈ vs ∧ ∀ x ∈ vs, x ≤ v

/-! ## The events of each operation, as the rules list them -/

/-- A wait whose status reads answered `bs` (rule R101): it ends at the first read that shows the condition, or, with
`ok = false`, after `POLL_BUDGET` reads none of which does. -/
def WaitEnds (c : Config) (cond : Byte → Bool) (ok : Bool) (bs : List Byte) : Prop :=
  bs ≠ [] ∧ bs.length ≤ c.pollBudget ∧ (∀ x ∈ bs.dropLast, cond x = false) ∧
    (∀ x, bs.getLast? = some x → cond x = ok) ∧ (ok = false → bs.length = c.pollBudget)

/-- The error of wait `k` if it expired (rules R270, R272). -/
def timeoutOf (k : Nat) (ok : Bool) : List ErrorKind := if ok then [] else [.timeoutError k]

/-- The events of `EcRead(addr)` with the byte it returns and the errors of its waits that expired, in order (rules R70,
R104, R105, R270); the flag it returns says whether there is one. -/
def ReadEvents (c : Config) (addr v : Byte) (timeouts : List ErrorKind) (es : List Event) : Prop :=
  ∃ ok1 bs1, WaitEnds c (ibfEmpty c) ok1 bs1 ∧
    if ok1 = false ∧ c.readTimeoutMode = .abortSample then
      timeouts = [.timeoutError 1] ∧ es = waitEvents c.pollIntervalMs bs1 ++ [.portIn .data v]
    else ∃ ok2 bs2, WaitEnds c (ibfEmpty c) ok2 bs2 ∧
      if ok2 = false ∧ c.readTimeoutMode = .abortSample then
        timeouts = timeoutOf 1 ok1 ++ [.timeoutError 2] ∧
          es = waitEvents c.pollIntervalMs bs1 ++ [.portOut .sc c.cmdRead] ++ waitEvents c.pollIntervalMs bs2 ++
            [.portIn .data v]
      else ∃ ok3 bs3, WaitEnds c (obfFull c) ok3 bs3 ∧
        timeouts = timeoutOf 1 ok1 ++ timeoutOf 2 ok2 ++ timeoutOf 3 ok3 ∧
        es = waitEvents c.pollIntervalMs bs1 ++ [.portOut .sc c.cmdRead] ++ waitEvents c.pollIntervalMs bs2 ++
          [.portOut .data addr] ++ waitEvents c.pollIntervalMs bs3 ++ [.portIn .data v]

/-- The events of `EcWrite(cmd, addr, value)` with its result (rules R71, R106). -/
def WriteEvents (c : Config) (cmd addr value : Byte) (r : Except ErrorKind Unit) (es : List Event) : Prop :=
  ∃ ok1 bs1, WaitEnds c (ibfEmpty c) ok1 bs1 ∧
    if ok1 = false then r = .error (.timeoutError 1) ∧ es = waitEvents c.pollIntervalMs bs1
    else ∃ ok2 bs2, WaitEnds c (ibfEmpty c) ok2 bs2 ∧
      if ok2 = false then
        r = .error (.timeoutError 2) ∧
          es = waitEvents c.pollIntervalMs bs1 ++ [.portOut .sc cmd] ++ waitEvents c.pollIntervalMs bs2
      else ∃ ok3 bs3, WaitEnds c (ibfEmpty c) ok3 bs3 ∧
        if ok3 = false then
          r = .error (.timeoutError 3) ∧
            es = waitEvents c.pollIntervalMs bs1 ++ [.portOut .sc cmd] ++ waitEvents c.pollIntervalMs bs2 ++
              [.portOut .data addr] ++ waitEvents c.pollIntervalMs bs3
        else ∃ ok4 bs4, WaitEnds c (ibfEmpty c) ok4 bs4 ∧
          (r = if ok4 = false then .error (.timeoutError 4) else .ok ()) ∧
          es = waitEvents c.pollIntervalMs bs1 ++ [.portOut .sc cmd] ++ waitEvents c.pollIntervalMs bs2 ++
            [.portOut .data addr] ++ waitEvents c.pollIntervalMs bs3 ++ [.portOut .data value] ++
            waitEvents c.pollIntervalMs bs4

/-- The events of `FAN_DUTY_WRITE(ch, p)` with its result (rules R146, R147). -/
def DutyWriteEvents (c : Config) (ch : Channel) (p : Int) (r : Except ErrorKind Unit) (es : List Event) : Prop :=
  ∃ raw : Byte, IsRawOf c (min 100 (max 0 p)) raw ∧ WriteEvents c c.cmdSetDuty (forChannel c.subAddr ch) raw r es

/-- A trace whose port events are those of whole handshakes, one after the other, each by the rules of its kind (rules
R104 to R106, R315): a byte is sent only where `ReadEvents` or `WriteEvents` has it, after a wait of its own. -/
inductive HandshakeTrace (c : Config) : List Event → Prop where
  | nil : HandshakeTrace c []
  | other (e : Event) (es : List Event) : isPortEvent e = false → HandshakeTrace c es → HandshakeTrace c (e :: es)
  | read (addr v : Byte) (timeouts : List ErrorKind) (es rest : List Event) :
      ReadEvents c addr v timeouts es → HandshakeTrace c rest → HandshakeTrace c (es ++ rest)
  | write (cmd addr value : Byte) (r : Except ErrorKind Unit) (es rest : List Event) :
      WriteEvents c cmd addr value r es → HandshakeTrace c rest → HandshakeTrace c (es ++ rest)

/-- The events of `RESOLVE_CPU()` with its reading (rules R140, R171). -/
def CpuEvents (c : Config) (r : Reading) (es : List Event) : Prop :=
  ∃ (b : Byte) (timeouts : List ErrorKind), ReadEvents c c.regCpuTemp b timeouts es ∧ r = ⟨.cpu, b.toNat, .ecFallback⟩

/-- The events of the scan of one hwmon entry: its name, then its inputs from 1 on (rule R173). -/
def entryEvents (entry : Nat) (name : Option Text) (temps : List (Option Text)) : List Event :=
  .sysfsName entry name :: temps.mapIdx fun k txt => .sysfsTemp entry (k + 1) txt

/-- The events of the scan of the listed entries (rules R173, R174): of an entry with an allow-listed name
`SYSFS_MAX_INPUTS` inputs are read, of any other none. -/
inductive ScanEvents (c : Config) : List Nat → List Event → Prop where
  | nil : ScanEvents c [] []
  | cons (entry : Nat) (name : Option Text) (temps : List (Option Text)) (entries : List Nat) (es : List Event) :
      temps.length = (if name.any (allowListed c) then c.sysfsMaxInputs else 0) → ScanEvents c entries es →
        ScanEvents c (entry :: entries) (entryEvents entry name temps ++ es)

/-- The events of stage 2 with its value (rules R176, R178). -/
inductive ToolEvents (c : Config) : Option Int → List Event → Prop where
  | absent : ToolEvents c none [.fileExists c.toolPath false]
  | notRun : ToolEvents c none [.fileExists c.toolPath true, .runTool c.toolPath .notRun]
  | ran (txt : Text) :
      ToolEvents c (vendorValue c txt) [.fileExists c.toolPath true, .runTool c.toolPath (.output txt)]

/-- The events of `RESOLVE_GPU()` with its reading (rules R172, R173, R176 to R178). -/
inductive GpuEvents (c : Config) : Reading → List Event → Prop where
  | sysfs (entries : List Nat) (scan : List Event) (v : Int) :
      ScanEvents c entries scan → IsGreatestOf v (sysfsValues scan) →
        GpuEvents c ⟨.gpu, v, .driverSysfs⟩ (.sysfsList entries :: scan)
  | tool (entries : List Nat) (scan run : List Event) (v : Int) :
      ScanEvents c entries scan → sysfsValues scan = [] → ToolEvents c (some v) run →
        GpuEvents c ⟨.gpu, v, .vendorTool⟩ (.sysfsList entries :: scan ++ run)
  | ec (entries : List Nat) (scan run read : List Event) (b : Byte) (timeouts : List ErrorKind) :
      ScanEvents c entries scan → sysfsValues scan = [] → ToolEvents c none run →
        ReadEvents c c.regGpuTemp b timeouts read →
          GpuEvents c ⟨.gpu, b.toNat, .ecFallback⟩ (.sysfsList entries :: scan ++ run ++ read)

/-- The events of one fan's part of a report with its values (rules R142, R144, R206). -/
def FanEvents (c : Config) (ch : Channel) (f : FanReport) (es : List Event) : Prop :=
  ∃ (raw hi lo : Byte) (t1 t2 t3 : List ErrorKind) (e1 e2 e3 : List Event),
    ReadEvents c (forChannel c.regDuty ch) raw t1 e1 ∧ ReadEvents c (forChannel c.regRpmHi ch) hi t2 e2 ∧
      ReadEvents c (forChannel c.regRpmLo ch) lo t3 e3 ∧ es = e1 ++ e2 ++ e3 ∧
      IsDutyOf c raw f.duty ∧ f.raw16.toNat = 256 * hi.toNat + lo.toNat ∧
      f.rpm = rpmOf c f.raw16.toNat

/-- The events of `REPORT(cpu, gpu)`, `commanded` being the ControlState's value (rule R206). -/
def ReportEvents (c : Config) (cpu gpu : Reading) (commanded : Option Int) (es : List Event) : Prop :=
  ∃ f1 f2 e1 e2, FanEvents c .one f1 e1 ∧ FanEvents c .two f2 e2 ∧
    es = e1 ++ e2 ++ [.report ⟨cpu, gpu, commanded, f1, f2⟩]

/-- The events of the standalone `REPORT()` (rule R206). -/
def StatusEvents (c : Config) (commanded : Option Int) (es : List Event) : Prop :=
  ∃ cpu gpu e1 e2 e3, CpuEvents c cpu e1 ∧ GpuEvents c gpu e2 ∧ ReportEvents c cpu gpu commanded e3 ∧
    es = e1 ++ e2 ++ e3

/-! ## Text as the rules state it -/

/-- The value of decimal digits, the most significant first. -/
def digitsValue (ds : Text) : Nat := Nat.ofDigits 10 (ds.reverse.map fun d => d.toNat - 48)

/-- An optional `-` followed by one or more decimal digits, with nothing else, and its value (rules R175, R249). -/
def IsDecimal (t : Text) (n : Int) : Prop :=
  ∃ ds : Text, ds ≠ [] ∧ (∀ d ∈ ds, d.isDigit = true) ∧
    ((t = ds ∧ n = digitsValue ds) ∨ (t = '-' :: ds ∧ n = -(digitsValue ds : Int)))

/-- ASCII whitespace alone (log 17). -/
def IsBlank (t : Text) : Prop := ∀ c ∈ t, isAsciiSpace c = true

/-- `m` is `t` with its trailing ASCII whitespace removed (rule R174). -/
def IsTrimmedRight (t m : Text) : Prop :=
  ∃ tail, t = m ++ tail ∧ IsBlank tail ∧ ∀ c, m.getLast? = some c → isAsciiSpace c = false

/-- `field` is the first line of `out` up to its first comma (rule R176). -/
def IsFirstField (out field : Text) : Prop :=
  '\n' ∉ field ∧ ',' ∉ field ∧ ∃ rest, out = field ++ rest ∧ (∀ c, rest.head? = some c → c = '\n' ∨ c = ',')

/-! ## The channel's transitions (rule R108) -/

/-- The rows of a wait phase whose status read showed the condition `cond`: the events after that read and the channel
then. `ch` is the channel after the read, counted in `attempt`. -/
inductive HeldRow (c : Config) (ch : Chan) : (Byte → Bool) → List Event → Chan → Prop where
  | rW1 : ch.phase = .rW1 →
      HeldRow c ch (ibfEmpty c) [.portOut .sc c.cmdRead] { ch with phase := .rW2, attempt := 0 }
  | rW2 : ch.phase = .rW2 →
      HeldRow c ch (ibfEmpty c) [.portOut .data ch.addr] { ch with phase := .rW3, attempt := 0 }
  | rW3 (v : Byte) : ch.phase = .rW3 →
      HeldRow c ch (obfFull c) [.portIn .data v] { ch with phase := .done, result := some (.byte v) }
  | wW1 : ch.phase = .wW1 →
      HeldRow c ch (ibfEmpty c) [.portOut .sc ch.cmd] { ch with phase := .wW2, attempt := 0 }
  | wW2 : ch.phase = .wW2 →
      HeldRow c ch (ibfEmpty c) [.portOut .data ch.addr] { ch with phase := .wW3, attempt := 0 }
  | wW3 : ch.phase = .wW3 →
      HeldRow c ch (ibfEmpty c) [.portOut .data ch.value] { ch with phase := .wW4, attempt := 0 }
  | wW4 : ch.phase = .wW4 →
      HeldRow c ch (ibfEmpty c) [] { ch with phase := .done, result := some .unit }

/-- The channel with the timeout of wait `k` recorded (rules R104 to R106, R270). -/
def withTimeout (k : Nat) (ch : Chan) : Chan :=
  { ch with timedOut := true, timeouts := ch.timeouts ++ [.timeoutError k] }

/-- The rows of a wait phase whose last status read did not show the condition. -/
inductive ExpiredRow (c : Config) (ch : Chan) : List Event → Chan → Prop where
  | sample (k : Nat) (v : Byte) : (ch.phase, k) ∈ [(ChanPhase.rW1, 1), (.rW2, 2), (.rW3, 3)] →
      c.readTimeoutMode = .abortSample →
        ExpiredRow c ch [.portIn .data v] { withTimeout k ch with phase := .done, result := some (.byte v) }
  | goOn (k : Nat) (cond : Byte → Bool) (es : List Event) (ch' : Chan) :
      (ch.phase, k) ∈ [(ChanPhase.rW1, 1), (.rW2, 2), (.rW3, 3)] → c.readTimeoutMode = .continueSequence →
        HeldRow c (withTimeout k ch) cond es ch' → ExpiredRow c ch es ch'
  | fail (k : Nat) : (ch.phase, k) ∈ [(ChanPhase.wW1, 1), (.wW2, 2), (.wW3, 3), (.wW4, 4)] →
      ExpiredRow c ch [] { withTimeout k ch with phase := .done, result := some (.timeout k) }

/-- A transition by the status read `b` from a channel `ch`, whose `attempt` counts the reads made before it: the events
after the read and the channel then. -/
def ReadRow (c : Config) (ch : Chan) (b : Byte) (es : List Event) (ch' : Chan) : Prop :=
  let read := { ch with attempt := ch.attempt + 1 }
  ∃ cond, (∃ es' ch'', HeldRow c read cond es' ch'') ∧
    (cond b = true → HeldRow c read cond es ch') ∧
    (cond b = false → read.attempt < c.pollBudget → es = [.sleep c.pollIntervalMs] ∧ ch' = read) ∧
    (cond b = false → read.attempt = c.pollBudget → ExpiredRow c read es ch')

/-! ## How an operation returns -/

/-- The channel is left as its caller takes the result: idle (rule R108). -/
abbrev ChannelLeft (t : State) : Prop := t.chan.phase = .idle ∧ t.chan.kind = .none

/-- `t` is `s` after an operation that emitted `es` and returned `r`, having written only the channel, the trace and
the EC agent with its count of free values (rules R104, R106). -/
abbrev Transacts (s : State) (r : OpResult) (es : List Event) (t : State) : Prop :=
  ChannelLeft t ∧
    t = { s with chan := t.chan, trace := s.trace ++ es, ret := some r,
                 env := { s.env with ec := t.env.ec, count := t.env.count } }

/-- `t` is `s` after an operation that emitted `es` and returned `r`, having written only the channel, the trace and
the environment, of which the OS's grants and the interrupt source are untouched (rules R172, R206). -/
abbrev Observes (s : State) (r : OpResult) (es : List Event) (t : State) : Prop :=
  t.chan.phase = .idle ∧
    t = { s with chan := t.chan, trace := s.trace ++ es, ret := some r,
                 env := { t.env with grants := s.env.grants, stops := s.env.stops } }

/-- As `Observes`, the status reported after the events `before` (rule R206). -/
def ReportsAfter (s : State) (before : List Event) (t : State) : Prop :=
  ∃ es, StatusEvents s.cfg s.ctl es ∧ Observes s .ok (before ++ es) t

/-- From `s`, after the events `before`, the block has stopped in stage 2 of `RESOLVE_GPU()`, in a tool that never returns
(rule R285, entry I6; log 5): nothing is returned and no step follows. -/
def StopsInTool (s : State) (before : List Event) (t : State) : Prop :=
  ∃ entries scan, ScanEvents s.cfg entries scan ∧ sysfsValues scan = [] ∧ t.chan.phase = .idle ∧
    t = { s with chan := t.chan, ret := none, stuckInTool := true,
                 trace := s.trace ++ (before ++ (.sysfsList entries :: scan) ++
                   [.fileExists s.cfg.toolPath true, .runTool s.cfg.toolPath .neverReturns]),
                 env := { t.env with grants := s.env.grants, stops := s.env.stops } } ∧
    (t.fault = none → step t = .fault .toolNeverReturns)

/-- The standalone report, after the events `before`, has stopped in the tool (rules R206, R285): the CPU was read, and
nothing after the GPU is. -/
def ReportStops (s : State) (before : List Event) (t : State) : Prop :=
  ∃ cpu e1, CpuEvents s.cfg cpu e1 ∧ StopsInTool s (before ++ e1) t

/-- The writes of `SET(p)` with their events (rule R242); `failed` is the command's failure mark after them. -/
def BothWritten (s : State) (p : Int) (failed : Bool) (es : List Event) : Prop :=
  ∃ r1 r2 w1 w2, DutyWriteEvents s.cfg .one p r1 w1 ∧ DutyWriteEvents s.cfg .two p r2 w2 ∧ es = w1 ++ w2 ∧
    (failed = true ↔ s.cmd.failed = true ∨ ¬(r1 = .ok () ∧ r2 = .ok ()))

/-- The write of `SET1(p)` or `SET2(p)` with its events (rules R243, R244); `failed` as in `BothWritten`. -/
def OneWritten (s : State) (ch : Channel) (p : Int) (failed : Bool) (es : List Event) : Prop :=
  ∃ r, DutyWriteEvents s.cfg ch p r es ∧ (failed = true ↔ s.cmd.failed = true ∨ r ≠ .ok ())

/-- `s` with the command's failure mark. -/
def withFailed (failed : Bool) (s : State) : State := { s with cmd := { s.cmd with failed := failed } }

/-- `t` is `s` after a completed `CONTROL_CYCLE()` that began with the ControlState `last` (rules R204, R205). -/
def CycleCompletes (s : State) (last : Int) (t : State) : Prop :=
  ∃ cpu gpu target e1 e2 e3 e4 last', CpuEvents s.cfg cpu e1 ∧ GpuEvents s.cfg gpu e2 ∧
    IsTarget s.cfg (max cpu.value gpu.value) last target ∧
    (let duty := if s.cfg.maxTemp ≤ max cpu.value gpu.value then 100
      else if last < target then min target (last + s.cfg.step) else max target (last - s.cfg.step)
     (duty = last ∧ e3 = [] ∧ last' = last) ∨
      (duty ≠ last ∧ ∃ r1 r2 w1 w2, DutyWriteEvents s.cfg .one duty r1 w1 ∧
        DutyWriteEvents s.cfg .two duty r2 w2 ∧ e3 = w1 ++ w2 ∧
        (r1 = .ok () ∧ r2 = .ok () → last' = duty) ∧ (¬(r1 = .ok () ∧ r2 = .ok ()) → last' = last))) ∧
    ReportEvents s.cfg cpu gpu (some last') e4 ∧
    Observes { s with ctl := some last', override := none } .ok (e1 ++ e2 ++ e3 ++ e4) t

/-- The next run of the vendor tool, if there is one, returns (rule R285: it may also never return). -/
abbrev ToolReturns (s : State) : Prop := ∃ a rest, s.env.toolRuns = a :: rest ∧ a ≠ .neverReturns

/-- A step of the block is enabled: no model fault, no tool that never returns, an admitted configuration (rules R8,
R35, R285). -/
abbrev Enabled (s : State) : Prop := s.fault = none ∧ s.stuckInTool = false ∧ configOk s.cfg = true

/-- What runs next is the next word of a CW32 program (rules R83, R207): the loop is not in progress. -/
abbrev NextWord (s : State) (w : Word) (rest : List Word) : Prop :=
  Enabled s ∧ loopRunning s.loop = false ∧ s.invocation = .program (w :: rest)

/-- What runs next is a phase of `PROCESS(c)` (rule R240): the loop is not in progress. -/
abbrev InProcess (s : State) (c : Command) : Prop :=
  Enabled s ∧ loopRunning s.loop = false ∧ s.invocation = .process c

/-- The operation faults at its entry without a session, having done nothing (rule R103). -/
abbrev NeedsSession (i : Instr) (s : State) : Prop :=
  s.session ≠ .held → s.fault = none → exec i s = .next { s with fault := some .noSession, ret := none }

/-- A function of the next state, on an outcome. -/
def onNext (f : State → State) (o : Host.Outcome State Fault Refusal) : Host.Outcome State Fault Refusal :=
  match o with
  | .next t => .next (f t)
  | .fault r => .fault r
  | .refused r => .refused r

/-- A function of the state, on the end of an operation. -/
def onState {α : Type} (f : State → State) (r : Res α) : Res α :=
  match r with
  | .done a t => .done a (f t)
  | .halted t => .halted (f t)

/-- The five host commands (rules R75, R80). -/
def IsHostCommand (c : Command) : Prop :=
  match c with
  | .text word _ => String.ofList word ∈ ["set", "set1", "set2", "dump", "auto"]
  | .encoded i => (opField (encode i)).toNat ∈ [1, 2, 3, 4, 5]

/-- What holds of a process between two steps, beside the invariant (rule R240): no model fault; `ACQUIRE` is still to
come before `DISPATCH`; from there on the session is held until the process ends. -/
def ProcessInv (s : State) : Prop :=
  s.fault = none ∧
    ((s.cmd.phase = .start ∨ s.cmd.phase = .acquiring) ∧ s.session = .none ∧ s.loop = .off ∨
      (s.cmd.phase = .dispatch ∨ s.cmd.phase = .running) ∧ s.session = .held ∨ s.cmd.phase = .ended)

/-- The operations that begin with an EC transaction or are host commands built on one (rules R103, R110). -/
def needsChannel (i : Instr) : Bool :=
  match i with
  | .set _ => true
  | .set1 _ => true
  | .set2 _ => true
  | .dump => true
  | .auto => true
  | .acquire => false
  | .ecRead _ => true
  | .ecWrite _ _ _ => true
  | .cpuTempRead => true
  | .gpuTempEcRead => true
  | .fanDutyRead _ => true
  | .fanRpmRead _ => true
  | .fanDutyWrite _ _ => true
  | .resolveCpu => true
  | .resolveGpu => false
  | .targetDuty _ _ => false
  | .rateLimit _ _ _ => false
  | .controlCycle => false
  | .report => true

/-- The operations that send no byte that could store (every one but the duty and EC writes, the commands and the
cycle built on them). -/
def storesNothing (i : Instr) : Bool :=
  match i with
  | .set _ => false
  | .set1 _ => false
  | .set2 _ => false
  | .dump => true
  | .auto => true
  | .acquire => true
  | .ecRead _ => true
  | .ecWrite _ _ _ => false
  | .cpuTempRead => true
  | .gpuTempEcRead => true
  | .fanDutyRead _ => true
  | .fanRpmRead _ => true
  | .fanDutyWrite _ _ => false
  | .resolveCpu => true
  | .resolveGpu => true
  | .targetDuty _ _ => true
  | .rateLimit _ _ _ => true
  | .controlCycle => false
  | .report => true

/-- A word is illegal: conditions (a) to (e) of rule R77 on its fields. -/
def IllegalWord (w : Word) : Prop :=
  let op := (w.toNat / 2 ^ 24)
  let a := (w.toNat / 2 ^ 16) % 256
  let b := (w.toNat / 2 ^ 8) % 256
  let c := w.toNat % 256
  (¬(1 ≤ op ∧ op ≤ 5) ∧ ¬(0x10 ≤ op ∧ op ≤ 0x1D)) ∨
    (a ≠ 0 ∧ op ≠ 0x12 ∧ op ≠ 0x1B) ∨
    (b ≠ 0 ∧ op ≠ 0x12 ∧ op ≠ 0x17 ∧ op ≠ 0x1A ∧ op ≠ 0x1B) ∨
    (c ≠ 0 ∧ (op = 0x04 ∨ op = 0x05 ∨ op = 0x10 ∨ op = 0x13 ∨ op = 0x14 ∨ op = 0x18 ∨ op = 0x19 ∨ op = 0x1C ∨
      op = 0x1D)) ∨
    ((op = 0x15 ∨ op = 0x16) ∧ c ≠ 1 ∧ c ≠ 2) ∨ (op = 0x17 ∧ b ≠ 1 ∧ b ≠ 2) ∨
    (op = 0x1B ∧ a ≠ 0 ∧ a ≠ 1) ∨
    ((op = 0x1A ∨ op = 0x1B) ∧ 100 < (if op = 0x1A then c else b)) ∨ (op = 0x1B ∧ 100 < c)

/-! ## The EC's good behaviour (rule R285): premises a claim may take, no law of the model

Each is a promise of the EC at a state and from there on, whatever the block does next. -/

/-- `t` is reached from `s` by EC transactions, by operations that store nothing and by any other change that leaves the
EC agent alone; no write that succeeded among them has a command and an address that `barred` names. -/
inductive EcRun (barred : Byte → Byte → Prop) (s : State) : State → Prop where
  | refl : EcRun barred s s
  | read (addr : Byte) (r : Byte × Bool) (t u : State) :
      EcRun barred s t → ecRead addr t = .done r u → EcRun barred s u
  | write (cmd addr value : Byte) (r : Except ErrorKind Unit) (t u : State) :
      EcRun barred s t → ¬(barred cmd addr ∧ r = .ok ()) → ecWrite cmd addr value t = .done r u → EcRun barred s u
  | operation (i : Instr) (t u : State) :
      EcRun barred s t → storesNothing i = true → exec i t = .next u → EcRun barred s u
  | elsewhere (t u : State) :
      EcRun barred s t → u.cfg = t.cfg → u.env.ec = t.env.ec → t.env.count ≤ u.env.count → EcRun barred s u

/-- Every later state: no write is barred. -/
abbrev EcLater (s t : State) : Prop := EcRun (fun _ _ => False) s t

/-- Every later state up to the next successful set-duty write of a channel (rule R285, `EC_DUTY_ECHO`). -/
abbrev UntilNextDutyWrite (ch : Channel) (s t : State) : Prop :=
  EcRun (fun cmd addr => cmd = s.cfg.cmdSetDuty ∧ addr = forChannel s.cfg.subAddr ch) s t

/-- `EC_RESPONSIVE`: every wait's condition holds within `POLL_BUDGET` reads, so no transaction times out. -/
def EcResponsive (s : State) : Prop :=
  ∀ t, EcLater s t →
    (∀ addr v timedOut u, ecRead addr t = .done (v, timedOut) u → timedOut = false) ∧
      ∀ cmd addr value r u, ecWrite cmd addr value t = .done r u → r = .ok ()

/-- `EC_DUTY_ECHO` (rule R39): after a successful set-duty write of `raw` for a channel, every read of its duty register
returns `raw`, until the next such write. -/
def EcDutyEcho (s : State) : Prop :=
  ∀ t, EcLater s t → ∀ ch raw u, ecWrite t.cfg.cmdSetDuty (forChannel t.cfg.subAddr ch) raw t = .done (.ok ()) u →
    ∀ v, UntilNextDutyWrite ch u v →
      ∀ b timedOut w, ecRead (forChannel v.cfg.regDuty ch) v = .done (b, timedOut) w → b = raw

/-- `EC_READ_TRUE`, for an EC that holds the byte `holds t addr` at a state and an address: a read that does not time out
returns the byte the EC holds at its address. -/
def EcReadTrue (holds : State → Byte → Byte) (s : State) : Prop :=
  ∀ t, EcLater s t → ∀ addr v u, ecRead addr t = .done (v, false) u → v = holds t addr

/-- The byte the reference EC of rule R291 holds at an address; of a lawless EC the state has no register file. -/
def refHolds (s : State) (addr : Byte) : Byte :=
  match s.env.ec with
  | .lawless _ => 0
  | .reference r => cellRead r.regs addr.toNat

/-! ## The invariant -/

/-- A reference EC's register file is in canonical form (log 18). -/
def ecCellsOk (ec : Ec) : Bool :=
  match ec with
  | .lawless _ => true
  | .reference r => Memory.wf r.regs

/-- What holds between any two steps. -/
structure StepInv (s : State) : Prop where
  /-- No transaction is in progress (rule R110). -/
  channelIdle : s.chan.phase = .idle ∧ s.chan.kind = .none
  /-- The attempt counter stays within the budget (rules R24, R283). -/
  attempts : s.chan.attempt ≤ s.cfg.pollBudget
  /-- The session is decided by the one `ACQUIRE` (rules R22, R23). -/
  session : (s.session = .none ∧ s.acquireCount = 0) ∨ (s.session ≠ .none ∧ s.acquireCount = 1)
  /-- The ControlState exists exactly while the loop is in progress (rule R211). -/
  controller : s.ctl.isSome = loopRunning s.loop
  /-- The loop runs only in a granted session (rules R22, R103). -/
  loopSession : loopRunning s.loop = true → s.session = .held
  /-- `last ∈ 0..100` (rule R25). -/
  lastRange : ∀ last, s.ctl = some last → 0 ≤ last ∧ last ≤ 100
  /-- The exit status is written when the process ends, and is 0 or `EXIT_FAIL` (rule R32). -/
  exitStatus : (s.exit = none ∧ s.cmd.phase ≠ .ended) ∨
    (s.cmd.phase = .ended ∧ (s.exit = some 0 ∨ s.exit = some s.cfg.exitFail.val))
  /-- A reference EC's registers keep their canonical form. -/
  registers : ecCellsOk s.env.ec = true

end Sys2Proof.Machine
end

