-- ==== Sys2Proof/Certificates/Slice0/Obligations.lean ====
section
/-! DEFINITION. The statements for the provers. Each says which rule of spec/ it formalises. -/

open Sys2Proof Sys2Proof.Machine

/-! ## Encoding -/

/-- Every operation with admitted operands decodes from its word, and from its bytes with whatever follows left over
(rules R73 to R78, R83). -/
def Obligations.DecodeInvertsEncode : Prop :=
  ∀ (i : Instr) (rest : List Byte), WellFormed i →
    decode (encode i) = .ok i ∧ decodeBytes (encodeBytes i ++ rest) = .ok (i, rest)

/-- Rule R78: the decoder names the row whose match and mask fit, with the word's own operands; within a row only the
operand-range checks of rule R77 (c) to (e) can refuse. -/
def Obligations.DecodeFollowsTheOpcodeTable : Prop :=
  (∀ w i, decode w = .ok i → w &&& rowMask i = rowMatch i ∧ encode i = w ∧ WellFormed i) ∧
    (∀ w i j, w &&& rowMask i = rowMatch i → w &&& rowMask j = rowMatch j → rowMatch i = rowMatch j) ∧
      ∀ w i, w &&& rowMask i = rowMatch i →
        (∃ j, decode w = .ok j ∧ rowMatch j = rowMatch i) ∨
          decode w = .error .badChannel ∨ decode w = .error .badOverride ∨ decode w = .error .badPercent

/-- Rule R77: a word is refused exactly on the conditions (a) to (e); executing one raises `IllegalEncoding`, with no
other effect and no event. (That the interrupt source's own move is the only other change of that step is the model's
choice, log 3.) -/
def Obligations.ExactlyTheListedWordsAreIllegal : Prop :=
  (∀ w, (∃ e, decode w = .error e) ↔ IllegalWord w) ∧
    ∀ s w rest, NextWord s w rest → IllegalWord w →
      step s = .next (interrupt { s with fault := some .illegalEncoding })

/-- The worked encodings of rule R79. -/
def Obligations.WorkedEncodings : Prop :=
  decode 0x01000032 = .ok (.set 50) ∧ decode 0x02000064 = .ok (.set1 100) ∧ decode 0x03000000 = .ok (.set2 0) ∧
    decode 0x04000000 = .ok .dump ∧ decode 0x05000000 = .ok .auto ∧ decode 0x11000007 = .ok (.ecRead 0x07) ∧
    decode 0x1700021E = .ok (.fanDutyWrite .two 30) ∧ decode 0x1A002D00 = .ok (.targetDuty 45 0) ∧
    decode 0x1B00001E = .ok (.rateLimit false 0 30) ∧ decode 0x06000000 = .error .unassignedOp ∧
    decode 0x04000001 = .error .reservedNonzero

/-! ## The machine's step -/

/-- A step of a CW32 program runs the decoded word (rules R83, R312), with the program moved past it and the interrupt
source's move after it (log 3); the same for a program given as bytes, most significant first. -/
def Obligations.StepRunsTheDecodedWord : Prop :=
  (∀ s w rest i, NextWord s w rest → decode w = .ok i →
      step s = withInterrupt (exec i { s with invocation := .program rest })) ∧
    ∀ s bs rest i words, Enabled s → loopRunning s.loop = false → programOfBytes bs = some words →
      s.invocation = .program words → decodeBytes bs = .ok (i, rest) →
        ∃ left, programOfBytes rest = some left ∧
          step s = withInterrupt (exec i { s with invocation := .program left })

/-- Rule R310: at process start every piece of block state has the value of rule R41, whatever the configuration; the
environment is not reset. The reset of the channel's operand fields is log 9's choice and is not stated. -/
def Obligations.ResetState : Prop :=
  (∃ c e start, State.reset = State.boot c e start) ∧ ∀ c e start,
    let s := State.boot c e start
    s.cfg = c ∧ s.session = .none ∧ s.acquireCount = 0 ∧ s.chan.phase = .idle ∧ s.chan.kind = .none ∧
      s.chan.attempt = 0 ∧ s.chan.timedOut = false ∧ s.chan.result = none ∧ s.ctl = none ∧ s.stop = false ∧
      s.override = none ∧ s.loop = .off ∧ s.cmd.phase = .start ∧ s.cmd.failed = false ∧ s.exit = none ∧
      s.trace = [] ∧ s.fault = none ∧ s.env = e

/-- The invariant holds at process start, in every configuration and environment. -/
def Obligations.InvariantAtReset : Prop :=
  StepInv State.reset ∧ ∀ c e start, ecCellsOk e.ec = true → StepInv (State.boot c e start)

/-- Every step keeps the invariant: an idle channel, an attempt counter within its budget, a session decided by one
`ACQUIRE`, a ControlState exactly while the loop runs and in 0..100, the exit status written at the end of the process,
canonical register cells (rules R22 to R25, R32, R110, R211, R283). -/
def Obligations.InvariantKeptByEveryStep : Prop :=
  ∀ s t, StepInv s → step s = .next t → StepInv t

/-- Rule R35: the fault mark is none at reset, is never cleared, and enables no step. -/
def Obligations.FaultIsSticky : Prop :=
  State.reset.fault = none ∧ (∀ s f, s.fault = some f → step s = .fault (.modelFault f)) ∧
    ∀ i s t f, configOk s.cfg = true → exec i s = .next t → s.fault = some f → t.fault = some f

/-- Rule R8: a configuration that fails any check is refused before anything runs, with `BadConfig` and no other effect;
under an admitted one no step raises `BadConfig`. -/
def Obligations.BadConfigBeforeAnyStep : Prop :=
  ∀ s, s.fault = none → s.stuckInTool = false →
    let admitted := s.cfg.portSC ≠ s.cfg.portData ∧ s.cfg.ibfBit ≠ s.cfg.obfBit ∧ 1 ≤ s.cfg.pollBudget ∧
      s.cfg.minTemp < s.cfg.maxTemp ∧ 0 ≤ s.cfg.deadBand ∧ 0 ≤ s.cfg.minDuty ∧ s.cfg.minDuty ≤ 100 ∧
      1 ≤ s.cfg.step ∧ 1 ≤ s.cfg.sysfsMaxInputs ∧ s.cfg.vendorLo < s.cfg.vendorHi
    (¬admitted → step s = .next { s with fault := some .badConfig }) ∧
      (admitted → ∀ t, step s = .next t → t.fault ≠ some .badConfig)

/-- Rule R37: the configuration is read-only for the life of the process. -/
def Obligations.ConfigurationIsReadOnly : Prop :=
  (∀ s t, step s = .next t → t.cfg = s.cfg) ∧
    ∀ i s t, configOk s.cfg = true → exec i s = .next t → t.cfg = s.cfg

/-- Events are only ever appended to the trace (rule R34). -/
def Obligations.TraceOnlyGrows : Prop :=
  (∀ s t, step s = .next t → s.trace <+: t.trace) ∧
    ∀ i s t, configOk s.cfg = true → exec i s = .next t → s.trace <+: t.trace

/-- The session is written once, by the one `ACQUIRE` (rules R22, R23). -/
def Obligations.SessionIsDecidedOnce : Prop :=
  (∀ s t, step s = .next t → t.session ≠ s.session →
      s.acquireCount = 0 ∧ t.acquireCount = 1 ∧ (t.session = .held ∨ t.session = .denied)) ∧
    ∀ i s t, configOk s.cfg = true → exec i s = .next t → i ≠ .acquire →
      t.session = s.session ∧ t.acquireCount = s.acquireCount

/-- The stop flag only rises, only by the interrupt source, and raising it twice is raising it once (rules R26, R279). -/
def Obligations.StopOnlyRises : Prop :=
  (∀ s t, step s = .next t → s.stop = true → t.stop = true) ∧
    (∀ i s t, configOk s.cfg = true → exec i s = .next t → t.stop = s.stop) ∧
    ∀ t, ∃ raised stops count,
      interrupt t = { t with stop := t.stop || raised, env := { t.env with stops := stops, count := count } } ∧
        ∀ b rest, t.env.stops = b :: rest → raised = b ∧ stops = rest ∧ count = t.env.count

/-- Outside the check points `TOP`, `PRE_SLEEP` and `POST_SLEEP` the stop flag is not read: whatever it is, the block's
step is the same (rules R208, R250, R280). -/
def Obligations.StopIsReadOnlyAtCheckPoints : Prop :=
  (∀ i s b, exec i { s with stop := b } = onNext (fun t => { t with stop := b }) (exec i s)) ∧
    ∀ s b, s.loop ≠ .top → s.loop ≠ .preSleep → s.loop ≠ .postSleep →
      blockStep { s with stop := b } = onNext (fun t => { t with stop := b }) (blockStep s)

/-- What each operation leaves alone, whichever way it ends: the configuration, the stop flag, the exit status, the
command phase and the program always; the session but for `ACQUIRE`; the ControlState but for `AUTO` and
`CONTROL_CYCLE`; the loop but for `AUTO`; `override` but for `TARGET_DUTY` and `CONTROL_CYCLE`; the command's failure
mark but for the manual commands; the channel, the trace and the EC for the operations without EC traffic. -/
def Obligations.FrameOfEveryInstruction : Prop :=
  ∀ i s t, configOk s.cfg = true → exec i s = .next t →
    t.cfg = s.cfg ∧ t.stop = s.stop ∧ t.exit = s.exit ∧ t.cmd.phase = s.cmd.phase ∧ t.invocation = s.invocation ∧
      t.env.stops = s.env.stops ∧
      (i ≠ .acquire → t.session = s.session ∧ t.acquireCount = s.acquireCount ∧ t.env.grants = s.env.grants) ∧
      (i ≠ .auto → i ≠ .controlCycle → t.ctl = s.ctl) ∧ (i ≠ .auto → t.loop = s.loop) ∧
      ((∀ h l, i ≠ .targetDuty h l) → i ≠ .controlCycle → t.override = s.override) ∧
      ((∀ p, i ≠ .set p ∧ i ≠ .set1 p ∧ i ≠ .set2 p) → t.cmd.failed = s.cmd.failed) ∧
      ((i = .acquire ∨ i = .auto ∨ (∃ h l, i = .targetDuty h l) ∨ ∃ o l g, i = .rateLimit o l g) →
        t.chan = s.chan ∧ t.trace = s.trace ∧ t.env.ec = s.env.ec)

/-! ## EC channel -/

/-- Rule R100: the first `ACQUIRE` asks the OS and records its answer, emitting nothing; a second one is the fault
`DoubleAcquire`. -/
def Obligations.AcquireDecidesTheSession : Prop :=
  ∀ s,
    (s.acquireCount = 0 → ∃ granted grants count,
      exec .acquire s =
          .next { s with acquireCount := 1, session := if granted then .held else .denied,
                         ret := some (if granted then .ok else .err .permissionError),
                         env := { s.env with grants := grants, count := count } } ∧
        ∀ b rest, s.env.grants = b :: rest → granted = b ∧ grants = rest ∧ count = s.env.count) ∧
      (1 ≤ s.acquireCount → s.fault = none →
        exec .acquire s = .next { s with fault := some .doubleAcquire, ret := none })

/-- Rules R104, R105, R270: `EC_READ` completes whatever the EC answers, in either `READ_TIMEOUT_MODE`; its events are those
of the handshake, and only the channel is written. The model's readings: the flag says whether any wait expired, under
`CONTINUE` an early one too, and the index of each expired wait is kept beside it (log 33); the flag and the result stay
in the idle channel once the result is taken (log 15). -/
def Obligations.EcReadFollowsTheHandshake : Prop :=
  ∀ addr s, configOk s.cfg = true →
    (Ready s → ∃ v timeouts es t, exec (.ecRead addr) s = .next t ∧ ReadEvents s.cfg addr v timeouts es ∧
      Transacts s (.ecByte v (!timeouts.isEmpty)) es t ∧
      t.chan = { s.chan with phase := .idle, kind := .none, addr := addr, attempt := t.chan.attempt,
                             timedOut := !timeouts.isEmpty, result := some (.byte v), timeouts := timeouts }) ∧
      NeedsSession (.ecRead addr) s

/-- Rule R106: `EC_WRITE` completes whatever the EC answers, with `Ok` or the one wait that expired; its events are those
of the handshake, and only the channel is written. That the result and the flag stay in the idle channel once the result
is taken is the model's reading (log 15). -/
def Obligations.EcWriteFollowsTheHandshake : Prop :=
  ∀ cmd addr value s, configOk s.cfg = true →
    (Ready s → ∃ r es t, exec (.ecWrite cmd addr value) s = .next t ∧ WriteEvents s.cfg cmd addr value r es ∧
      Transacts s (unitResult r) es t ∧
      ((r = .ok () ∧ t.chan = ⟨.idle, .none, cmd, addr, value, t.chan.attempt, false, some .unit, []⟩) ∨
        ∃ k, r = .error (.timeoutError k) ∧
          t.chan = ⟨.idle, .none, cmd, addr, value, t.chan.attempt, true, some (.timeout k), [.timeoutError k]⟩)) ∧
      NeedsSession (.ecWrite cmd addr value) s

/-- The transactions whose every wait succeeds at its first poll: 6 port events for a read, 7 for a write (rule R109),
given an EC whose next bytes show it ready; the whole next state. What of it the idle channel keeps (result, flag,
attempt) is the model's reading (log 15). -/
def Obligations.QuickTransactions : Prop :=
  (∀ addr s b1 b2 b3 v rest, configOk s.cfg = true → Ready s → s.env.ec = .lawless (b1 :: b2 :: b3 :: v :: rest) →
      ibfEmpty s.cfg b1 = true → ibfEmpty s.cfg b2 = true → obfFull s.cfg b3 = true →
        exec (.ecRead addr) s =
          .next { s with
            chan := { s.chan with phase := .idle, kind := .none, addr := addr, attempt := 1, timedOut := false,
                                  result := some (.byte v), timeouts := [] }
            trace := s.trace ++ [.portIn .sc b1, .portOut .sc s.cfg.cmdRead, .portIn .sc b2, .portOut .data addr,
              .portIn .sc b3, .portIn .data v]
            env := { s.env with ec := .lawless rest }
            ret := some (.ecByte v false) }) ∧
    ∀ cmd addr value s b1 b2 b3 b4 rest, configOk s.cfg = true → Ready s →
      s.env.ec = .lawless (b1 :: b2 :: b3 :: b4 :: rest) → (∀ b ∈ [b1, b2, b3, b4], ibfEmpty s.cfg b = true) →
        exec (.ecWrite cmd addr value) s =
          .next { s with
            chan := ⟨.idle, .none, cmd, addr, value, 1, false, some .unit, []⟩
            trace := s.trace ++ [.portIn .sc b1, .portOut .sc cmd, .portIn .sc b2, .portOut .data addr,
              .portIn .sc b3, .portOut .data value, .portIn .sc b4]
            env := { s.env with ec := .lawless rest }
            ret := some .ok }

/-- The event bounds of rule R109: at most three waits' status reads and sleeps and one data read for a read, at most
four and none for a write; a write that failed at wait `k` sent `k - 1` bytes. -/
def Obligations.TransactionEventBounds : Prop :=
  ∀ s, configOk s.cfg = true → Ready s →
    (∀ addr, ∃ t es, exec (.ecRead addr) s = .next t ∧ t.trace = s.trace ++ es ∧
      es.countP isStatusRead ≤ 3 * s.cfg.pollBudget ∧ es.countP isSleep ≤ 3 * (s.cfg.pollBudget - 1) ∧
      es.countP isDataRead = 1 ∧ sent es <+: [(.sc, s.cfg.cmdRead), (.data, addr)]) ∧
      ∀ cmd addr value, ∃ t es r, exec (.ecWrite cmd addr value) s = .next t ∧ t.trace = s.trace ++ es ∧
        t.ret = some (unitResult r) ∧
        es.countP isStatusRead ≤ 4 * s.cfg.pollBudget ∧ es.countP isSleep ≤ 4 * (s.cfg.pollBudget - 1) ∧
        es.countP isDataRead = 0 ∧
        ((r = .ok () ∧ sent es = [(.sc, cmd), (.data, addr), (.data, value)]) ∨
          ∃ k, 1 ≤ k ∧ k ≤ 4 ∧ r = .error (.timeoutError k) ∧
            sent es = [(.sc, cmd), (.data, addr), (.data, value)].take (k - 1))

/-- Rules R103, R110: every operation that begins with an EC transaction faults at its entry, having done nothing, without
a held session, and, with one, while a transaction is in progress. -/
def Obligations.NoTransactionUnlessReady : Prop :=
  ∀ i s, needsChannel i = true → s.fault = none →
    (s.session ≠ .held → exec i s = .next { s with fault := some .noSession, ret := none }) ∧
      (s.session = .held → s.chan.phase ≠ .idle →
        exec i s = .next { s with fault := some .channelBusy, ret := none })

/-- The step-level sequencer of rule R108 and the transactions of rules R104 and R106 agree: from the call, at most three
(four) waits' transitions reach `DONE`, with the state the whole transaction ends in before its result is taken. -/
def Obligations.StepLevelSequencerAgrees : Prop :=
  ∀ s, configOk s.cfg = true → Ready s →
    (∀ addr, ∃ t, chanCallRead addr s = .done () t ∧ ∃ n ≤ 3 * s.cfg.pollBudget, ∃ v w,
      let u := chanRun n t
      u.chan.phase = .done ∧ u.chan.result = some (.byte v) ∧ chanTake u = some w ∧
        ecRead addr s = .done (v, u.chan.timedOut) w) ∧
      ∀ cmd addr value, ∃ t, chanCallWrite cmd addr value s = .done () t ∧ ∃ n ≤ 4 * s.cfg.pollBudget, ∃ r w,
        let u := chanRun n t
        u.chan.phase = .done ∧ chanTake u = some w ∧ ecWrite cmd addr value s = .done r w ∧
          ((r = .ok () ∧ u.chan.result = some .unit) ∨
            ∃ k, r = .error (.timeoutError k) ∧ u.chan.result = some (.timeout k))

/-- The operands left in the channel are never read by the next transaction (rules R24, R41: unspecified at reset, never
read in `IDLE`). -/
def Obligations.IdleOperandsAreNeverRead : Prop :=
  ∀ s cmd addr value, Ready s →
    let s' := { s with chan := { s.chan with cmd := cmd, addr := addr, value := value } }
    (∀ a, ecRead a s' = onState (fun t => { t with chan := { t.chan with cmd := cmd, value := value } }) (ecRead a s)) ∧
      ∀ c a v, ecWrite c a v s' = ecWrite c a v s

/-- Rule R315: the port events of a step or of an operation are those of whole handshakes, in which a byte is sent only
after a wait of its own: one that saw the input buffer empty, or, in a read under `CONTINUE`, one that expired after
`POLL_BUDGET` reads; after an expired wait a write sends nothing more, in either mode. So every byte sent directly follows
a status read, and that read showed the input buffer empty unless the mode is `CONTINUE`. -/
def Obligations.EverySendFollowsAWait : Prop :=
  let disciplined (s t : State) : Prop := ∃ es, t.trace = s.trace ++ es ∧ HandshakeTrace s.cfg es ∧
    ∀ last, sendsAreAwaited s.cfg last es = true
  (∀ s t, step s = .next t → disciplined s t) ∧
    ∀ i s t, configOk s.cfg = true → exec i s = .next t → disciplined s t

/-! ## The reference EC -/

/-- `REF_EC` keeps the three promises of rule R285, from any state on (rule R291). The echo is promised where `CMD_SET_DUTY`
differs from `CMD_READ` (log 18) and two channels with one duty register have one sub-address (rule R9 lets them share). -/
def Obligations.ReferenceEcIsWellBehaved : Prop :=
  ∀ s r, configOk s.cfg = true → s.env.ec = .reference r → r.busy = false → Memory.wf r.regs = true →
    EcResponsive s ∧ EcReadTrue refHolds s ∧
      (s.cfg.cmdSetDuty ≠ s.cfg.cmdRead → (s.cfg.regDuty.one = s.cfg.regDuty.two → s.cfg.subAddr.one = s.cfg.subAddr.two) →
        EcDutyEcho s)

/-- An operation that stores nothing leaves every EC register as it was (under the EC of rule R291, the only one that
holds a register file). -/
def Obligations.ReadsLeaveTheRegisterFile : Prop :=
  ∀ i s t r, configOk s.cfg = true → storesNothing i = true → s.env.ec = .reference r → exec i s = .next t →
    ∃ r', t.env.ec = .reference r' ∧ r'.regs = r.regs ∧ r'.busy = r.busy

/-- What the storing operations store (rules R59, R291): a completed set-duty write stores its value in the duty registers
of the channels its sub-address names, and nothing else; any other command byte stores nothing; a busy EC stores nothing;
the commands and the cycle store in duty registers only. That `CMD_READ` wins where the two codes are equal, and that a
value goes to every channel its sub-address names, is the model's choice (log 18). -/
def Obligations.WritesStoreOnlyTheDutyRegisters : Prop :=
  ∀ s r, configOk s.cfg = true → Ready s → s.env.ec = .reference r → Memory.wf r.regs = true →
    (∀ cmd addr value, ∃ t r', exec (.ecWrite cmd addr value) s = .next t ∧ t.env.ec = .reference r' ∧
      ∀ x, cellRead r'.regs x =
        if r.busy = false ∧ cmd = s.cfg.cmdSetDuty ∧ cmd ≠ s.cfg.cmdRead ∧
            ((s.cfg.subAddr.one = addr ∧ s.cfg.regDuty.one.toNat = x) ∨
              (s.cfg.subAddr.two = addr ∧ s.cfg.regDuty.two.toNat = x)) then value
        else cellRead r.regs x) ∧
      (∀ ch (p : Byte), ∃ t r', ∃ raw : Byte, exec (.fanDutyWrite ch p) s = .next t ∧ t.env.ec = .reference r' ∧
        IsRawOf s.cfg (min 100 p.toNat : Nat) raw ∧
        ∀ x, cellRead r'.regs x =
          if r.busy = false ∧ s.cfg.cmdSetDuty ≠ s.cfg.cmdRead ∧
              ((s.cfg.subAddr.one = forChannel s.cfg.subAddr ch ∧ s.cfg.regDuty.one.toNat = x) ∨
                (s.cfg.subAddr.two = forChannel s.cfg.subAddr ch ∧ s.cfg.regDuty.two.toNat = x)) then raw
          else cellRead r.regs x) ∧
      ∀ i t, (i = .controlCycle ∨ ∃ p, i = .set p ∨ i = .set1 p ∨ i = .set2 p) → exec i s = .next t →
        ∃ r', t.env.ec = .reference r' ∧
          ∀ x, x ≠ s.cfg.regDuty.one.toNat → x ≠ s.cfg.regDuty.two.toNat → cellRead r'.regs x = cellRead r.regs x

/-! ## Register map -/

/-- Rules R140, R141: the temperature reads make one EC read and return its byte, unsigned, whether or not it timed
out. -/
def Obligations.TemperatureReadsReturnTheByte : Prop :=
  ∀ s, configOk s.cfg = true →
    (Ready s → ∃ v timeouts es t, exec .cpuTempRead s = .next t ∧ ReadEvents s.cfg s.cfg.regCpuTemp v timeouts es ∧
      Transacts s (.number v.toNat) es t) ∧
      (Ready s → ∃ v timeouts es t, exec .gpuTempEcRead s = .next t ∧
        ReadEvents s.cfg s.cfg.regGpuTemp v timeouts es ∧ Transacts s (.number v.toNat) es t) ∧
      NeedsSession .cpuTempRead s ∧ NeedsSession .gpuTempEcRead s

/-- Rules R142, R143: one EC read, its byte scaled to the nearest percent, exactly over ℚ, and clamped; with
`DUTY_RAW_MAX = 255`, the value of rules R7 and R143, the clamp and the tie rule have no effect. What another
`DUTY_RAW_MAX` gives is the model's choice (log 36). -/
def Obligations.FanDutyReadIsTheRoundedPercent : Prop :=
  ∀ ch s, configOk s.cfg = true →
    (Ready s → ∃ raw timeouts es d t, exec (.fanDutyRead ch) s = .next t ∧
      ReadEvents s.cfg (forChannel s.cfg.regDuty ch) raw timeouts es ∧ Transacts s (.number d) es t ∧
      IsDutyOf s.cfg raw d ∧ (s.cfg.dutyRawMax = 255 → ∀ tie, IsRound tie (100 * raw.toNat / 255) d) ∧
      0 ≤ d ∧ d ≤ 100) ∧
      NeedsSession (.fanDutyRead ch) s

/-- Rules R144, R145: two EC reads, high byte first; the counter is big-endian and the rpm the exact quotient, 0 for a
stopped fan. -/
def Obligations.FanRpmReadIsExact : Prop :=
  ∀ ch s, configOk s.cfg = true →
    (Ready s → ∃ hi lo late1 late2 e1 e2 raw16 rpm t, exec (.fanRpmRead ch) s = .next t ∧
      ReadEvents s.cfg (forChannel s.cfg.regRpmHi ch) hi late1 e1 ∧
      ReadEvents s.cfg (forChannel s.cfg.regRpmLo ch) lo late2 e2 ∧ Transacts s (.rpm raw16 rpm) (e1 ++ e2) t ∧
      raw16.toNat = 256 * hi.toNat + lo.toNat ∧ rpm = rpmOf s.cfg raw16.toNat) ∧
      NeedsSession (.fanRpmRead ch) s

/-- Rules R146, R147: the percent clamped to 0..100, scaled to the nearest raw byte (by `DUTY_RAW_MAX`, 255 in rule R147),
written by one set-duty write to the channel's sub-address; the write's failure is the result. What another
`DUTY_RAW_MAX` sends is the model's choice (log 36). -/
def Obligations.FanDutyWriteSendsTheRoundedByte : Prop :=
  ∀ ch p s, configOk s.cfg = true →
    (Ready s → ∃ r es t, exec (.fanDutyWrite ch p) s = .next t ∧ DutyWriteEvents s.cfg ch p.toNat r es ∧
      Transacts s (unitResult r) es t) ∧
      NeedsSession (.fanDutyWrite ch p) s

/-- Rules R148, R39: with `DUTY_RAW_MAX = 255` the round trip of every percent is exact under either tie rule; through the
EC, under `EC_DUTY_ECHO`: a percent written with success is read back, now or later, until the channel's next
successful duty write. -/
def Obligations.DutyRoundTripIsExact : Prop :=
  (∀ c p, c.dutyRawMax = 255 → 0 ≤ p → p ≤ 100 → dutyFromRaw c (rawFromDuty c p) = p) ∧
    ∀ s t u ch (p : Byte), configOk s.cfg = true → s.cfg.dutyRawMax = 255 → p.toNat ≤ 100 → EcDutyEcho s →
      exec (.fanDutyWrite ch p) s = .next t → t.ret = some .ok → UntilNextDutyWrite ch t u → Ready u →
        ∃ w, exec (.fanDutyRead ch) u = .next w ∧ w.ret = some (.number p.toNat)

/-- The rpm falls strictly as the counter rises from 1 (rule R145). -/
def Obligations.RpmStrictlyDecreases : Prop :=
  ∀ (k : Nat) (a b : BitVec 16), 0 < k → a ≠ 0 → a < b → rpmFromRaw k b < rpmFromRaw k a ∧ 0 < rpmFromRaw k b

/-- `RoundT` of a quotient is the nearest integer, a tie going as `ROUND_TIE` says (rule R16); no other integer is. -/
def Obligations.RoundIsNearest : Prop :=
  ∀ (tie : RoundTie) (num den n : Int), 0 < den → (IsRound tie ((num : Rat) / den) n ↔ n = roundQuot tie num den)

/-! ## Temperature multiplexer -/

/-- Rule R171: the CPU reading is the byte of its register, tagged `ECFallback`. -/
def Obligations.ResolveCpuReadsTheEc : Prop :=
  ∀ s, configOk s.cfg = true →
    (Ready s → ∃ r es t, exec .resolveCpu s = .next t ∧ CpuEvents s.cfg r es ∧ Transacts s (.reading r) es t) ∧
      NeedsSession .resolveCpu s

/-- Rules R172, R173, R176 to R178: the GPU reading is the first usable value of sysfs, tool and EC, with exactly the
events of the stages that ran; only an EC reading writes the channel. A tool that never returns leaves the block stuck
(rule R285, entry I6); that this is a marked next state and then the fault `toolNeverReturns` is the model's choice
(log 5). -/
def Obligations.ResolveGpuTakesTheFirstUsableSource : Prop :=
  ∀ s, configOk s.cfg = true → Ready s →
    (ToolReturns s → ∃ r es t, exec .resolveGpu s = .next t ∧ GpuEvents s.cfg r es ∧
      Observes s (.reading r) es t ∧ (r.source ≠ .ecFallback → t.chan = s.chan)) ∧
      ∀ t, exec .resolveGpu s = .next t →
        (∃ r es, GpuEvents s.cfg r es ∧ Observes s (.reading r) es t) ∨
          ∃ entries scan, ScanEvents s.cfg entries scan ∧ sysfsValues scan = [] ∧
            t.trace = s.trace ++ (.sysfsList entries :: scan ++
              [.fileExists s.cfg.toolPath true, .runTool s.cfg.toolPath .neverReturns]) ∧
            t = { s with trace := t.trace, env := t.env, ret := none, stuckInTool := true } ∧
            (t.fault = none → step t = .fault .toolNeverReturns)

/-- Without a session the sysfs and tool stages still run, with their events, and may answer (rule R282); after them the EC
stage is the fault `NoSession`, with no port event (rules R103, R172). -/
def Obligations.GpuNeedsTheSessionOnlyForTheEc : Prop :=
  ∀ s, s.session ≠ .held → s.fault = none → ToolReturns s →
    ∃ t es, exec .resolveGpu s = .next t ∧ t.trace = s.trace ++ es ∧ (∀ e ∈ es, isPortEvent e = false) ∧
      t.chan = s.chan ∧
      ((∃ r, GpuEvents s.cfg r es ∧ r.source ≠ .ecFallback ∧ t.ret = some (.reading r) ∧ t.fault = none) ∨
        ((∃ entries scan run, ScanEvents s.cfg entries scan ∧ sysfsValues scan = [] ∧ ToolEvents s.cfg none run ∧
            es = .sysfsList entries :: scan ++ run) ∧
          t.ret = none ∧ t.fault = some .noSession))

/-- Rule R181: the ranges of the readings, under the source's vendor bounds 0 and 130; the hotter of the two is never
negative, and above 255 only through the GPU's, which is then from sysfs. -/
def Obligations.ReadingsStayInRange : Prop :=
  (∀ s t r, exec .resolveCpu s = .next t → t.ret = some (.reading r) → 0 ≤ r.value ∧ r.value ≤ 255) ∧
    (∀ s t r, s.cfg.vendorLo = 0 → s.cfg.vendorHi = 130 → exec .resolveGpu s = .next t →
      t.ret = some (.reading r) →
        match r.source with
        | .driverSysfs => 0 ≤ r.value
        | .vendorTool => 1 ≤ r.value ∧ r.value ≤ 129
        | .ecFallback => 0 ≤ r.value ∧ r.value ≤ 255) ∧
      ∀ cpu gpu : Reading, 0 ≤ cpu.value → cpu.value ≤ 255 →
        0 ≤ hot cpu gpu ∧ (255 < hot cpu gpu → 255 < gpu.value)

/-- `ParseInt` (rule R175) and the textual percent (rule R249). The textual percent reads exactly an optional `-` and one or
more decimal digits, leading zeros included, as their value; `ParseInt` the same after the whitespace around is removed.
So with whitespace around it a numeral, signed or not, is read, and a numeral followed by a foreign character is not. (Which
characters are ASCII whitespace is log 17's choice.) -/
def Obligations.ParseIntReadsDecimalNumerals : Prop :=
  (∀ t n, parseDecimal t = some n ↔ IsDecimal t n) ∧
    (∀ t n, parseInt t = some n ↔
      ∃ before mid after, t = before ++ mid ++ after ∧ IsBlank before ∧ IsBlank after ∧ IsDecimal mid n) ∧
    ∀ (n : Nat) (before after : Text), IsBlank (before ++ after) →
      parseInt (before ++ Nat.toDigits 10 n ++ after) = some (n : Int) ∧
        parseInt (before ++ ['-'] ++ Nat.toDigits 10 n ++ after) = some (-(n : Int)) ∧
        ∀ c tail, isDecDigit c = false → isAsciiSpace c = false →
          parseInt (before ++ Nat.toDigits 10 n ++ [c] ++ tail ++ after) = none

/-! ## Duty controller -/

/-- Rules R201, R202: the target and the override condition, for every integer temperature; as an instruction, nothing is
written but the `override` flag; a `last` above 100 is illegal. -/
def Obligations.TargetDutyFollowsTheRule : Prop :=
  (∀ c hot last, configOk c = true →
      IsTarget c hot last (targetDuty c hot last).1 ∧ ((targetDuty c hot last).2 = true ↔ c.maxTemp ≤ hot) ∧
        0 ≤ (targetDuty c hot last).1 ∧ (targetDuty c hot last).1 ≤ 100) ∧
    ∀ (hot last : Byte) s, configOk s.cfg = true →
      (last.toNat ≤ 100 → ∃ target, IsTarget s.cfg hot.toNat last.toNat target ∧
        exec (.targetDuty hot last) s =
          .next { s with override := some (decide (s.cfg.maxTemp ≤ hot.toNat)),
                         ret := some (.target target (decide (s.cfg.maxTemp ≤ hot.toNat))) }) ∧
        (100 < last.toNat → s.fault = none →
          exec (.targetDuty hot last) s = .next { s with fault := some .illegalEncoding })

/-- Rule R212: the properties P1 to P5 of the controller, and the shape of the target over the temperature. -/
def Obligations.ControllerLaws : Prop :=
  ∀ c, configOk c = true →
    (∀ hot last, c.maxTemp ≤ hot → targetDuty c hot last = (100, true)) ∧
      (∀ hot, hot ≤ c.minTemp + c.deadBand → hot < c.maxTemp → targetDuty c hot 0 = (0, false)) ∧
      (∀ hot last, last ≠ 0 → c.minTemp - c.deadBand ≤ hot → c.minDuty ≤ (targetDuty c hot last).1) ∧
      (∀ hot hot' last, hot ≤ hot' → (targetDuty c hot last).1 ≤ (targetDuty c hot' last).1) ∧
      (∀ hot last, c.minTemp < hot → hot < c.maxTemp → (last = 0 → c.minTemp + c.deadBand < hot) →
        IsRound c.roundTie (interp c hot) (targetDuty c hot last).1) ∧
      (∀ hot last, last ≠ 0 → hot < c.minTemp - c.deadBand → targetDuty c hot last = (0, false)) ∧
      (∀ hot last, last ≠ 0 → c.minTemp - c.deadBand ≤ hot → hot ≤ c.minTemp →
        (targetDuty c hot last).1 = c.minDuty) ∧
      (∀ last target, |rateLimit c false last target - last| ≤ c.step) ∧
      ∀ last target, rateLimit c true last target = 100

/-- Rule R203: the rate limiter, and its result between `last` and `target`; a `last` or `target` above 100 is illegal. -/
def Obligations.RateLimitFollowsTheRule : Prop :=
  ∀ o (last target : Byte) s, configOk s.cfg = true →
    (last.toNat ≤ 100 → target.toNat ≤ 100 → ∃ duty : Int,
      exec (.rateLimit o last target) s = .next { s with ret := some (.number duty) } ∧
        (o = true → duty = 100) ∧
        (o = false → last.toNat < target.toNat → duty = min (target.toNat : Int) (last.toNat + s.cfg.step)) ∧
        (o = false → target.toNat ≤ last.toNat → duty = max (target.toNat : Int) (last.toNat - s.cfg.step)) ∧
        (o = false → min (last.toNat : Int) target.toNat ≤ duty ∧ duty ≤ max (last.toNat : Int) target.toNat)) ∧
      (100 < last.toNat ∨ 100 < target.toNat → s.fault = none →
        exec (.rateLimit o last target) s = .next { s with fault := some .illegalEncoding })

/-- Rules R204, R205: the five steps of a cycle with their events in order; a changed duty is written to both channels,
channel 1 first, and becomes `last` only if both writes returned `Ok`; then the report. -/
def Obligations.ControlCycleRunsItsFiveSteps : Prop :=
  (∀ s last, configOk s.cfg = true → Ready s → ToolReturns s → s.ctl = some last →
      ∃ t, exec .controlCycle s = .next t ∧ CycleCompletes s last t) ∧
    (∀ s, s.ctl = none → s.fault = none →
      exec .controlCycle s = .next { s with fault := some .noControlState, ret := none }) ∧
      ∀ s last, s.ctl = some last → NeedsSession .controlCycle s

/-- From one step to the next the commanded duty moves by at most `STEP`, or jumps to 100 (rules R203, R205, P5). -/
def Obligations.LastMovesByAtMostStep : Prop :=
  ∀ s t a b, configOk s.cfg = true → StepInv s → step s = .next t → s.ctl = some a → t.ctl = some b → |b - a| ≤ s.cfg.step ∨ b = 100

/-- A CPU at or above `MAX_TEMP` forces both fans to full duty in the one cycle, under the well-behaved EC of rule R291
(rules R201, R203, R205); full duty is the raw value `DUTY_RAW_MAX`, 255 in rule R147 (log 36). -/
def Obligations.HotCpuForcesFullDuty : Prop :=
  ∀ s r last, Enabled s → StepInv s → s.loop = .cycle → ToolReturns s → s.ctl = some last → last ≠ 100 →
    s.env.ec = .reference r → r.busy = false → s.cfg.cmdSetDuty ≠ s.cfg.cmdRead → s.cfg.dutyRawMax ≤ 255 →
      s.cfg.maxTemp ≤ (cellRead r.regs s.cfg.regCpuTemp.toNat).toNat →
        ∃ t r', step s = .next t ∧ t.loop = .preSleep ∧ t.ctl = some 100 ∧ t.env.ec = .reference r' ∧
          ∀ ch, (cellRead r'.regs (forChannel s.cfg.regDuty ch).toNat).toNat = s.cfg.dutyRawMax

/-- The standalone report and `DUMP` (rules R206, R245): CPU, GPU, then duty and rpm of channel 1 and of channel 2, then
one report event; the ControlState is reported, never written. -/
def Obligations.ReportAndDumpReadEverythingOnce : Prop :=
  ∀ s, configOk s.cfg = true →
    (Ready s → ToolReturns s →
      (∃ t, exec .report s = .next t ∧ ReportsAfter s [] t) ∧
        ∃ t, exec .dump s = .next t ∧ ReportsAfter s [] t) ∧
      NeedsSession .report s ∧ NeedsSession .dump s

/-- The start of `AUTO` (rules R207, R246): the ControlState is created with `INIT_LAST` and the loop goes from `OFF` to
`TOP`; nothing leaves `EXITED`. Rule R207 gives `AUTO` no transition from the phases in progress: that it starts the loop
again there, and that it returns `Ok` in `EXITED`, is log 14's deduction; that it returns `Ok` as it starts, log 35's
choice. -/
def Obligations.AutoStartsTheLoop : Prop :=
  ∀ s, Ready s →
    (s.loop ≠ .exited →
      exec .auto s = .next { s with ctl := some (s.cfg.initLast.val : Int), loop := .top, ret := some .ok }) ∧
      (s.loop = .exited → exec .auto s = .next { s with ret := some .ok })

/-- The phases of the auto loop (rules R207 to R209): the flag is tested at `TOP`, `PRE_SLEEP` and `POST_SLEEP`, a cycle
is one `CONTROL_CYCLE`, the tick one sleep event; an exit discards the ControlState and emits nothing. The interrupt
source's move after each step is log 3's choice, what `ret` holds that of logs 4 and 35. -/
def Obligations.LoopPhasesFollowTheTable : Prop :=
  ∀ s, Enabled s →
    let leave := { s with ctl := none, loop := .exited, ret := some .ok }
    (s.loop = .top → step s = withInterrupt (.next (if s.stop then leave else { s with loop := .cycle }))) ∧
      (s.loop = .cycle → Ready s → ToolReturns s → s.ctl ≠ none →
        ∃ u, exec .controlCycle s = .next u ∧
          step s = withInterrupt (.next { u with loop := .preSleep, ret := s.ret })) ∧
      (s.loop = .preSleep →
        step s = withInterrupt (.next (if s.stop then leave else { s with loop := .sleeping }))) ∧
      (s.loop = .sleeping →
        step s = withInterrupt (.next { s with loop := .postSleep, trace := s.trace ++ [.sleep s.cfg.tickMs] })) ∧
      (s.loop = .postSleep → step s = withInterrupt (.next (if s.stop then leave else { s with loop := .top })))

/-- Only the stop flag ends the loop, and it does so within two steps (rule R210): without it the loop goes on; with it
raised, the cycle or sleep under way completes and the loop exits, the ControlState discarded, with no event after it. -/
def Obligations.OnlyTheStopFlagEndsTheLoop : Prop :=
  (∀ s t, loopRunning s.loop = true → s.stop = false → step s = .next t → loopRunning t.loop = true) ∧
    ∀ s, Enabled s → StepInv s → ToolReturns s → loopRunning s.loop = true → s.stop = true →
      ∃ n ≤ 2, ∃ t, Sys2Proof.core.run n s = .next t ∧ t.loop = .exited ∧ t.ctl = none ∧ t.fault = none ∧
        (s.loop ≠ .cycle → s.loop ≠ .sleeping → t.trace = s.trace)

/-! ## Host commands -/

/-- Rules R242 to R244: `SET` writes both channels, channel 1 first and both whatever the first returned, `SET1` and `SET2`
one; then the status is reported once; a failed write marks the command failed. The ControlState is not touched. That the
command returns `Ok` after a failed write is the model's choice (log 37). -/
def Obligations.ManualCommandsWriteThenReport : Prop :=
  ∀ s (p : Byte), configOk s.cfg = true → Ready s → ToolReturns s → p.toNat ≤ 100 →
    (∃ writes failed t, exec (.set p) s = .next t ∧ BothWritten s p.toNat failed writes ∧
      ReportsAfter (withFailed failed s) writes t) ∧
      (∃ writes failed t, exec (.set1 p) s = .next t ∧ OneWritten s .one p.toNat failed writes ∧
        ReportsAfter (withFailed failed s) writes t) ∧
      ∃ writes failed t, exec (.set2 p) s = .next t ∧ OneWritten s .two p.toNat failed writes ∧
        ReportsAfter (withFailed failed s) writes t

/-- Rules R241, R249: a percent outside 0..100, encoded or as text, and a text argument that is missing or no integer, is
rejected before any EC traffic: no event, no report, the command marked failed. What the error records is the model's
choice (log 22); that the process ends in the step that runs the command is log 21's deduction, the interrupt source's
move after that step log 3's choice. -/
def Obligations.InvalidPercentIsRejected : Prop :=
  (∀ s (p : Byte), Ready s → 100 < p.toNat → ∀ i ∈ [Instr.set p, .set1 p, .set2 p],
      exec i s = .next { s with cmd := ⟨s.cmd.phase, true⟩,
                                ret := some (.err (.invalidInput (.percent p.toNat))) }) ∧
    ∀ s word arg, InProcess s (.text word arg) → s.cmd.phase = .running → Ready s →
      String.ofList word ∈ ["set", "set1", "set2"] →
        (∀ n, arg.bind parseDecimal = some n → n < 0 ∨ 100 < n) →
          ∃ v, step s = withInterrupt (.next { s with cmd := ⟨.ended, true⟩, exit := some s.cfg.exitFail.val,
                                                      ret := some (.err (.invalidInput v)) })

/-- Rule R240: the phases of `PROCESS`: `ACQUIRE` first, a denied session or an unknown command ends the process with
`EXIT_FAIL` and no event, a known command runs; an ended process takes no step. The model's own readings: one phase a step
(log 21), an encoded internal operation is an unknown command (log 25), what the error of an unknown command records
(log 22), the interrupt source's move after each step (log 3). -/
def Obligations.ProcessFollowsItsPhases : Prop :=
  ∀ s c, InProcess s c →
    (s.cmd.phase = .start → step s = withInterrupt (.next { s with cmd := ⟨.acquiring, s.cmd.failed⟩ })) ∧
      (s.cmd.phase = .acquiring → s.acquireCount = 0 → ∃ granted u,
        exec .acquire s = .next u ∧ (u.session = .held ↔ granted = true) ∧
          step s = withInterrupt (.next
            (if granted then { u with cmd := ⟨.dispatch, s.cmd.failed⟩ }
             else { u with cmd := ⟨.ended, s.cmd.failed⟩, exit := some s.cfg.exitFail.val }))) ∧
      (s.cmd.phase = .dispatch → IsHostCommand c →
        step s = withInterrupt (.next { s with cmd := ⟨.running, s.cmd.failed⟩ })) ∧
      (s.cmd.phase = .dispatch → ¬IsHostCommand c →
        step s = withInterrupt (.next { s with cmd := ⟨.ended, true⟩, exit := some s.cfg.exitFail.val,
                                               ret := some (.err (.invalidInput (.command c))) })) ∧
      (s.cmd.phase = .ended → step s = .refused .ended)

/-- The exit status (rules R240, R247): a manual command or `dump` runs as its operation does and ends the process with
`EXIT_FAIL` if it failed and 0 if not, so a read timeout never fails it; `auto` starts the loop and ends the process
once the loop has exited. The model's own readings: `dump` and `auto` ignore an argument (log 19, unsafe), a word given as
the command means its operation (log 25), a command ends the process in the step that runs it (log 21), the interrupt
source's move after each step (log 3). -/
def Obligations.ProcessEndsWithItsExitStatus : Prop :=
  ∀ s c, InProcess s c → s.cmd.phase = .running → Ready s → ToolReturns s →
    let ends (i : Instr) : Prop := ∃ u, exec i s = .next u ∧
      step s = withInterrupt (.next { u with cmd := ⟨.ended, u.cmd.failed⟩,
                                             exit := some (if u.cmd.failed then s.cfg.exitFail.val else 0) })
    (∀ i, c = .encoded i → (i = .dump ∨ ∃ p, i = .set p ∨ i = .set1 p ∨ i = .set2 p) → ends i) ∧
      (∀ arg, c = .text "dump".toList arg → ends .dump) ∧
      (∀ arg (p : Byte), arg.bind parseDecimal = some (p.toNat : Int) →
        (c = .text "set".toList arg → ends (.set p)) ∧ (c = .text "set1".toList arg → ends (.set1 p)) ∧
          (c = .text "set2".toList arg → ends (.set2 p))) ∧
      (c = .encoded .auto ∨ (∃ arg, c = .text "auto".toList arg) →
        (s.loop = .off →
          step s = withInterrupt (.next { s with ctl := some (s.cfg.initLast.val : Int), loop := .top })) ∧
          (s.loop = .exited →
            step s = withInterrupt (.next { s with
              cmd := ⟨.ended, s.cmd.failed⟩,
              exit := some (if s.cmd.failed then s.cfg.exitFail.val else 0) })))

/-- None of the model faults can be reached through the host commands under a well-formed configuration (rules R103,
R275): a process starts with its invariant, and every step keeps it. -/
def Obligations.HostCommandsNeverFault : Prop :=
  (∀ c e cmd, ProcessInv (State.boot c e (.process cmd))) ∧
    ∀ s t c, s.invocation = .process c → configOk s.cfg = true → StepInv s → ProcessInv s → step s = .next t →
      ProcessInv t ∧ t.invocation = .process c

/-! ## What the sensors' texts mean, and a tool that never returns -/

/-- Rules R174 to R176: a name is allow-listed if, its trailing whitespace removed, it equals a member of the list; an input
is usable if it parses above 0, and its value is the millidegrees over 1000 rounded down; of the tool's output the first
line up to its first comma is parsed, and the value must lie strictly between the vendor bounds. (Which characters are
ASCII whitespace is log 17's choice.) -/
def Obligations.SensorTextsFollowTheRules : Prop :=
  (∀ c name, allowListed c name = true ↔ ∃ m ∈ c.allowList, IsTrimmedRight name m) ∧
    (∀ txt v, sysfsValue txt = some v ↔
      ∃ t m, txt = some t ∧ parseInt t = some m ∧ 0 < m ∧ 1000 * v ≤ m ∧ m < 1000 * (v + 1)) ∧
    ∀ c out v, vendorValue c out = some v ↔
      ∃ field, IsFirstField out field ∧ parseInt field = some v ∧ c.vendorLo < v ∧ v < c.vendorHi

/-- Rule R285, entry I6: whatever the tool does, a cycle, a report, a dump and a manual command either complete as their
rules say or have stopped in the tool, after the writes and the CPU read that come before it and with nothing after it; then
no step follows. That the stop is a marked next state and then the fault `toolNeverReturns` is the model's choice
(log 5), and so is it that a manual command returns `Ok` after a failed write (log 37). -/
def Obligations.ToolThatNeverReturnsStopsTheBlock : Prop :=
  ∀ s, configOk s.cfg = true → Ready s →
    (∀ last, s.ctl = some last → ∃ t, exec .controlCycle s = .next t ∧ (CycleCompletes s last t ∨ ReportStops s [] t)) ∧
      (∀ i, i = .report ∨ i = .dump → ∃ t, exec i s = .next t ∧ (ReportsAfter s [] t ∨ ReportStops s [] t)) ∧
      ∀ (p : Byte), p.toNat ≤ 100 →
        (∃ writes failed t, exec (.set p) s = .next t ∧ BothWritten s p.toNat failed writes ∧
          (ReportsAfter (withFailed failed s) writes t ∨ ReportStops (withFailed failed s) writes t)) ∧
          (∃ writes failed t, exec (.set1 p) s = .next t ∧ OneWritten s .one p.toNat failed writes ∧
            (ReportsAfter (withFailed failed s) writes t ∨ ReportStops (withFailed failed s) writes t)) ∧
          ∃ writes failed t, exec (.set2 p) s = .next t ∧ OneWritten s .two p.toNat failed writes ∧
            (ReportsAfter (withFailed failed s) writes t ∨ ReportStops (withFailed failed s) writes t)

/-! ## The channel's transitions, one at a time -/

/-- Rules R108, R103, R110: the transitions of the channel are the table's and no other. A call enters `R_W1` or `W_W1` from
`IDLE` with the session held, and elsewhere is a fault and no transition; a wait phase is left only by a status read, as its row
says; a result is taken in `DONE` alone. The model's own readings: the session is tested before the phase (log 12), the
result, flag and attempt stay when the result is taken (log 15), the index of an expired wait is kept (log 33). -/
def Obligations.ChannelTransitionsAreTheTables : Prop :=
  ∀ s,
    (∀ addr cmd value, Ready s →
      chanCallRead addr s = .done () { s with
        chan := { s.chan with phase := .rW1, kind := .read, addr := addr, attempt := 0, timedOut := false,
                              timeouts := [] } } ∧
        chanCallWrite cmd addr value s = .done () { s with
          chan := { s.chan with phase := .wW1, kind := .write, cmd := cmd, addr := addr, value := value, attempt := 0,
                                timedOut := false, timeouts := [] } }) ∧
      (∀ addr cmd value, ¬Ready s → s.fault = none →
        let faulted := { s with fault := some (if s.session = .held then .channelBusy else .noSession) }
        chanCallRead addr s = .halted faulted ∧ chanCallWrite cmd addr value s = .halted faulted) ∧
      (s.chan.phase = .idle ∨ s.chan.phase = .done → chanStep s = none) ∧
      (s.chan.phase ≠ .idle → s.chan.phase ≠ .done → s.chan.attempt < s.cfg.pollBudget → ∃ b es t,
        chanStep s = some t ∧ ReadRow s.cfg s.chan b es t.chan ∧ t.trace = s.trace ++ .portIn .sc b :: es ∧
          OnlyChannel s t) ∧
      (s.chan.phase = .done → chanTake s = some { s with chan := { s.chan with phase := .idle, kind := .none } }) ∧
      (s.chan.phase ≠ .done → chanTake s = none)
end

