-- ==== Sys2Proof/Laws/State.lean ====
section
/-! SUPPORT. One lemma per field per state update: what each named update leaves and writes. -/

namespace Sys2Proof.Machine

/-! `emit` -/

@[simp] theorem emit_cfg (e : Event) (s : State) : (emit e s).cfg = s.cfg := rfl
@[simp] theorem emit_session (e : Event) (s : State) : (emit e s).session = s.session := rfl
@[simp] theorem emit_acquireCount (e : Event) (s : State) : (emit e s).acquireCount = s.acquireCount := rfl
@[simp] theorem emit_chan (e : Event) (s : State) : (emit e s).chan = s.chan := rfl
@[simp] theorem emit_ctl (e : Event) (s : State) : (emit e s).ctl = s.ctl := rfl
@[simp] theorem emit_stop (e : Event) (s : State) : (emit e s).stop = s.stop := rfl
@[simp] theorem emit_override (e : Event) (s : State) : (emit e s).override = s.override := rfl
@[simp] theorem emit_loop (e : Event) (s : State) : (emit e s).loop = s.loop := rfl
@[simp] theorem emit_exit (e : Event) (s : State) : (emit e s).exit = s.exit := rfl
@[simp] theorem emit_cmd (e : Event) (s : State) : (emit e s).cmd = s.cmd := rfl
@[simp] theorem emit_trace (e : Event) (s : State) : (emit e s).trace = s.trace ++ [e] := rfl
@[simp] theorem emit_fault (e : Event) (s : State) : (emit e s).fault = s.fault := rfl
@[simp] theorem emit_ret (e : Event) (s : State) : (emit e s).ret = s.ret := rfl
@[simp] theorem emit_stuckInTool (e : Event) (s : State) : (emit e s).stuckInTool = s.stuckInTool := rfl
@[simp] theorem emit_env (e : Event) (s : State) : (emit e s).env = s.env := rfl
@[simp] theorem emit_invocation (e : Event) (s : State) : (emit e s).invocation = s.invocation := rfl

/-! `withEnv` -/

@[simp] theorem withEnv_cfg (e : Env) (s : State) : (withEnv e s).cfg = s.cfg := rfl
@[simp] theorem withEnv_session (e : Env) (s : State) : (withEnv e s).session = s.session := rfl
@[simp] theorem withEnv_acquireCount (e : Env) (s : State) : (withEnv e s).acquireCount = s.acquireCount := rfl
@[simp] theorem withEnv_chan (e : Env) (s : State) : (withEnv e s).chan = s.chan := rfl
@[simp] theorem withEnv_ctl (e : Env) (s : State) : (withEnv e s).ctl = s.ctl := rfl
@[simp] theorem withEnv_stop (e : Env) (s : State) : (withEnv e s).stop = s.stop := rfl
@[simp] theorem withEnv_override (e : Env) (s : State) : (withEnv e s).override = s.override := rfl
@[simp] theorem withEnv_loop (e : Env) (s : State) : (withEnv e s).loop = s.loop := rfl
@[simp] theorem withEnv_exit (e : Env) (s : State) : (withEnv e s).exit = s.exit := rfl
@[simp] theorem withEnv_cmd (e : Env) (s : State) : (withEnv e s).cmd = s.cmd := rfl
@[simp] theorem withEnv_trace (e : Env) (s : State) : (withEnv e s).trace = s.trace := rfl
@[simp] theorem withEnv_fault (e : Env) (s : State) : (withEnv e s).fault = s.fault := rfl
@[simp] theorem withEnv_ret (e : Env) (s : State) : (withEnv e s).ret = s.ret := rfl
@[simp] theorem withEnv_stuckInTool (e : Env) (s : State) : (withEnv e s).stuckInTool = s.stuckInTool := rfl
@[simp] theorem withEnv_env (e : Env) (s : State) : (withEnv e s).env = e := rfl
@[simp] theorem withEnv_invocation (e : Env) (s : State) : (withEnv e s).invocation = s.invocation := rfl

/-! `setAttempt` -/

@[simp] theorem setAttempt_cfg (n : Nat) (s : State) : (setAttempt n s).cfg = s.cfg := rfl
@[simp] theorem setAttempt_session (n : Nat) (s : State) : (setAttempt n s).session = s.session := rfl
@[simp] theorem setAttempt_acquireCount (n : Nat) (s : State) : (setAttempt n s).acquireCount = s.acquireCount := rfl
@[simp] theorem setAttempt_chan (n : Nat) (s : State) : (setAttempt n s).chan = { s.chan with attempt := n } := rfl
@[simp] theorem setAttempt_ctl (n : Nat) (s : State) : (setAttempt n s).ctl = s.ctl := rfl
@[simp] theorem setAttempt_stop (n : Nat) (s : State) : (setAttempt n s).stop = s.stop := rfl
@[simp] theorem setAttempt_override (n : Nat) (s : State) : (setAttempt n s).override = s.override := rfl
@[simp] theorem setAttempt_loop (n : Nat) (s : State) : (setAttempt n s).loop = s.loop := rfl
@[simp] theorem setAttempt_exit (n : Nat) (s : State) : (setAttempt n s).exit = s.exit := rfl
@[simp] theorem setAttempt_cmd (n : Nat) (s : State) : (setAttempt n s).cmd = s.cmd := rfl
@[simp] theorem setAttempt_trace (n : Nat) (s : State) : (setAttempt n s).trace = s.trace := rfl
@[simp] theorem setAttempt_fault (n : Nat) (s : State) : (setAttempt n s).fault = s.fault := rfl
@[simp] theorem setAttempt_ret (n : Nat) (s : State) : (setAttempt n s).ret = s.ret := rfl
@[simp] theorem setAttempt_stuckInTool (n : Nat) (s : State) : (setAttempt n s).stuckInTool = s.stuckInTool := rfl
@[simp] theorem setAttempt_env (n : Nat) (s : State) : (setAttempt n s).env = s.env := rfl
@[simp] theorem setAttempt_invocation (n : Nat) (s : State) : (setAttempt n s).invocation = s.invocation := rfl

/-! `setPhase` -/

@[simp] theorem setPhase_cfg (p : ChanPhase) (s : State) : (setPhase p s).cfg = s.cfg := rfl
@[simp] theorem setPhase_session (p : ChanPhase) (s : State) : (setPhase p s).session = s.session := rfl
@[simp] theorem setPhase_acquireCount (p : ChanPhase) (s : State) : (setPhase p s).acquireCount = s.acquireCount := rfl
@[simp] theorem setPhase_chan (p : ChanPhase) (s : State) : (setPhase p s).chan = { s.chan with phase := p } := rfl
@[simp] theorem setPhase_ctl (p : ChanPhase) (s : State) : (setPhase p s).ctl = s.ctl := rfl
@[simp] theorem setPhase_stop (p : ChanPhase) (s : State) : (setPhase p s).stop = s.stop := rfl
@[simp] theorem setPhase_override (p : ChanPhase) (s : State) : (setPhase p s).override = s.override := rfl
@[simp] theorem setPhase_loop (p : ChanPhase) (s : State) : (setPhase p s).loop = s.loop := rfl
@[simp] theorem setPhase_exit (p : ChanPhase) (s : State) : (setPhase p s).exit = s.exit := rfl
@[simp] theorem setPhase_cmd (p : ChanPhase) (s : State) : (setPhase p s).cmd = s.cmd := rfl
@[simp] theorem setPhase_trace (p : ChanPhase) (s : State) : (setPhase p s).trace = s.trace := rfl
@[simp] theorem setPhase_fault (p : ChanPhase) (s : State) : (setPhase p s).fault = s.fault := rfl
@[simp] theorem setPhase_ret (p : ChanPhase) (s : State) : (setPhase p s).ret = s.ret := rfl
@[simp] theorem setPhase_stuckInTool (p : ChanPhase) (s : State) : (setPhase p s).stuckInTool = s.stuckInTool := rfl
@[simp] theorem setPhase_env (p : ChanPhase) (s : State) : (setPhase p s).env = s.env := rfl
@[simp] theorem setPhase_invocation (p : ChanPhase) (s : State) : (setPhase p s).invocation = s.invocation := rfl

/-! `markTimedOut` -/

@[simp] theorem markTimedOut_cfg (k : Nat) (s : State) : (markTimedOut k s).cfg = s.cfg := rfl
@[simp] theorem markTimedOut_session (k : Nat) (s : State) : (markTimedOut k s).session = s.session := rfl
@[simp] theorem markTimedOut_acquireCount (k : Nat) (s : State) : (markTimedOut k s).acquireCount = s.acquireCount := rfl
@[simp] theorem markTimedOut_chan (k : Nat) (s : State) : (markTimedOut k s).chan =
    { s.chan with timedOut := true, timeouts := s.chan.timeouts ++ [.timeoutError k] } := rfl
@[simp] theorem markTimedOut_ctl (k : Nat) (s : State) : (markTimedOut k s).ctl = s.ctl := rfl
@[simp] theorem markTimedOut_stop (k : Nat) (s : State) : (markTimedOut k s).stop = s.stop := rfl
@[simp] theorem markTimedOut_override (k : Nat) (s : State) : (markTimedOut k s).override = s.override := rfl
@[simp] theorem markTimedOut_loop (k : Nat) (s : State) : (markTimedOut k s).loop = s.loop := rfl
@[simp] theorem markTimedOut_exit (k : Nat) (s : State) : (markTimedOut k s).exit = s.exit := rfl
@[simp] theorem markTimedOut_cmd (k : Nat) (s : State) : (markTimedOut k s).cmd = s.cmd := rfl
@[simp] theorem markTimedOut_trace (k : Nat) (s : State) : (markTimedOut k s).trace = s.trace := rfl
@[simp] theorem markTimedOut_fault (k : Nat) (s : State) : (markTimedOut k s).fault = s.fault := rfl
@[simp] theorem markTimedOut_ret (k : Nat) (s : State) : (markTimedOut k s).ret = s.ret := rfl
@[simp] theorem markTimedOut_stuckInTool (k : Nat) (s : State) : (markTimedOut k s).stuckInTool = s.stuckInTool := rfl
@[simp] theorem markTimedOut_env (k : Nat) (s : State) : (markTimedOut k s).env = s.env := rfl
@[simp] theorem markTimedOut_invocation (k : Nat) (s : State) : (markTimedOut k s).invocation = s.invocation := rfl

/-! `setOverride` -/

@[simp] theorem setOverride_cfg (o : Bool) (s : State) : (setOverride o s).cfg = s.cfg := rfl
@[simp] theorem setOverride_session (o : Bool) (s : State) : (setOverride o s).session = s.session := rfl
@[simp] theorem setOverride_acquireCount (o : Bool) (s : State) : (setOverride o s).acquireCount = s.acquireCount := rfl
@[simp] theorem setOverride_chan (o : Bool) (s : State) : (setOverride o s).chan = s.chan := rfl
@[simp] theorem setOverride_ctl (o : Bool) (s : State) : (setOverride o s).ctl = s.ctl := rfl
@[simp] theorem setOverride_stop (o : Bool) (s : State) : (setOverride o s).stop = s.stop := rfl
@[simp] theorem setOverride_override (o : Bool) (s : State) : (setOverride o s).override = some o := rfl
@[simp] theorem setOverride_loop (o : Bool) (s : State) : (setOverride o s).loop = s.loop := rfl
@[simp] theorem setOverride_exit (o : Bool) (s : State) : (setOverride o s).exit = s.exit := rfl
@[simp] theorem setOverride_cmd (o : Bool) (s : State) : (setOverride o s).cmd = s.cmd := rfl
@[simp] theorem setOverride_trace (o : Bool) (s : State) : (setOverride o s).trace = s.trace := rfl
@[simp] theorem setOverride_fault (o : Bool) (s : State) : (setOverride o s).fault = s.fault := rfl
@[simp] theorem setOverride_ret (o : Bool) (s : State) : (setOverride o s).ret = s.ret := rfl
@[simp] theorem setOverride_stuckInTool (o : Bool) (s : State) : (setOverride o s).stuckInTool = s.stuckInTool := rfl
@[simp] theorem setOverride_env (o : Bool) (s : State) : (setOverride o s).env = s.env := rfl
@[simp] theorem setOverride_invocation (o : Bool) (s : State) : (setOverride o s).invocation = s.invocation := rfl

/-! `clearOverride` -/

@[simp] theorem clearOverride_cfg (s : State) : (clearOverride s).cfg = s.cfg := rfl
@[simp] theorem clearOverride_session (s : State) : (clearOverride s).session = s.session := rfl
@[simp] theorem clearOverride_acquireCount (s : State) : (clearOverride s).acquireCount = s.acquireCount := rfl
@[simp] theorem clearOverride_chan (s : State) : (clearOverride s).chan = s.chan := rfl
@[simp] theorem clearOverride_ctl (s : State) : (clearOverride s).ctl = s.ctl := rfl
@[simp] theorem clearOverride_stop (s : State) : (clearOverride s).stop = s.stop := rfl
@[simp] theorem clearOverride_override (s : State) : (clearOverride s).override = none := rfl
@[simp] theorem clearOverride_loop (s : State) : (clearOverride s).loop = s.loop := rfl
@[simp] theorem clearOverride_exit (s : State) : (clearOverride s).exit = s.exit := rfl
@[simp] theorem clearOverride_cmd (s : State) : (clearOverride s).cmd = s.cmd := rfl
@[simp] theorem clearOverride_trace (s : State) : (clearOverride s).trace = s.trace := rfl
@[simp] theorem clearOverride_fault (s : State) : (clearOverride s).fault = s.fault := rfl
@[simp] theorem clearOverride_ret (s : State) : (clearOverride s).ret = s.ret := rfl
@[simp] theorem clearOverride_stuckInTool (s : State) : (clearOverride s).stuckInTool = s.stuckInTool := rfl
@[simp] theorem clearOverride_env (s : State) : (clearOverride s).env = s.env := rfl
@[simp] theorem clearOverride_invocation (s : State) : (clearOverride s).invocation = s.invocation := rfl

/-! `raiseStop` -/

@[simp] theorem raiseStop_cfg (b : Bool) (s : State) : (raiseStop b s).cfg = s.cfg := rfl
@[simp] theorem raiseStop_session (b : Bool) (s : State) : (raiseStop b s).session = s.session := rfl
@[simp] theorem raiseStop_acquireCount (b : Bool) (s : State) : (raiseStop b s).acquireCount = s.acquireCount := rfl
@[simp] theorem raiseStop_chan (b : Bool) (s : State) : (raiseStop b s).chan = s.chan := rfl
@[simp] theorem raiseStop_ctl (b : Bool) (s : State) : (raiseStop b s).ctl = s.ctl := rfl
@[simp] theorem raiseStop_stop (b : Bool) (s : State) : (raiseStop b s).stop = (s.stop || b) := rfl
@[simp] theorem raiseStop_override (b : Bool) (s : State) : (raiseStop b s).override = s.override := rfl
@[simp] theorem raiseStop_loop (b : Bool) (s : State) : (raiseStop b s).loop = s.loop := rfl
@[simp] theorem raiseStop_exit (b : Bool) (s : State) : (raiseStop b s).exit = s.exit := rfl
@[simp] theorem raiseStop_cmd (b : Bool) (s : State) : (raiseStop b s).cmd = s.cmd := rfl
@[simp] theorem raiseStop_trace (b : Bool) (s : State) : (raiseStop b s).trace = s.trace := rfl
@[simp] theorem raiseStop_fault (b : Bool) (s : State) : (raiseStop b s).fault = s.fault := rfl
@[simp] theorem raiseStop_ret (b : Bool) (s : State) : (raiseStop b s).ret = s.ret := rfl
@[simp] theorem raiseStop_stuckInTool (b : Bool) (s : State) : (raiseStop b s).stuckInTool = s.stuckInTool := rfl
@[simp] theorem raiseStop_env (b : Bool) (s : State) : (raiseStop b s).env = s.env := rfl
@[simp] theorem raiseStop_invocation (b : Bool) (s : State) : (raiseStop b s).invocation = s.invocation := rfl

/-! `sleep` -/

@[simp] theorem sleep_cfg (ms : Nat) (s : State) : (sleep ms s).cfg = s.cfg := rfl
@[simp] theorem sleep_session (ms : Nat) (s : State) : (sleep ms s).session = s.session := rfl
@[simp] theorem sleep_acquireCount (ms : Nat) (s : State) : (sleep ms s).acquireCount = s.acquireCount := rfl
@[simp] theorem sleep_chan (ms : Nat) (s : State) : (sleep ms s).chan = s.chan := rfl
@[simp] theorem sleep_ctl (ms : Nat) (s : State) : (sleep ms s).ctl = s.ctl := rfl
@[simp] theorem sleep_stop (ms : Nat) (s : State) : (sleep ms s).stop = s.stop := rfl
@[simp] theorem sleep_override (ms : Nat) (s : State) : (sleep ms s).override = s.override := rfl
@[simp] theorem sleep_loop (ms : Nat) (s : State) : (sleep ms s).loop = s.loop := rfl
@[simp] theorem sleep_exit (ms : Nat) (s : State) : (sleep ms s).exit = s.exit := rfl
@[simp] theorem sleep_cmd (ms : Nat) (s : State) : (sleep ms s).cmd = s.cmd := rfl
@[simp] theorem sleep_trace (ms : Nat) (s : State) : (sleep ms s).trace = s.trace ++ [.sleep ms] := rfl
@[simp] theorem sleep_fault (ms : Nat) (s : State) : (sleep ms s).fault = s.fault := rfl
@[simp] theorem sleep_ret (ms : Nat) (s : State) : (sleep ms s).ret = s.ret := rfl
@[simp] theorem sleep_stuckInTool (ms : Nat) (s : State) : (sleep ms s).stuckInTool = s.stuckInTool := rfl
@[simp] theorem sleep_env (ms : Nat) (s : State) : (sleep ms s).env = s.env := rfl
@[simp] theorem sleep_invocation (ms : Nat) (s : State) : (sleep ms s).invocation = s.invocation := rfl

/-! `takeResult` -/

@[simp] theorem takeResult_cfg (s : State) : (takeResult s).cfg = s.cfg := rfl
@[simp] theorem takeResult_session (s : State) : (takeResult s).session = s.session := rfl
@[simp] theorem takeResult_acquireCount (s : State) : (takeResult s).acquireCount = s.acquireCount := rfl
@[simp] theorem takeResult_chan (s : State) : (takeResult s).chan = { s.chan with phase := .idle, kind := .none } := rfl
@[simp] theorem takeResult_ctl (s : State) : (takeResult s).ctl = s.ctl := rfl
@[simp] theorem takeResult_stop (s : State) : (takeResult s).stop = s.stop := rfl
@[simp] theorem takeResult_override (s : State) : (takeResult s).override = s.override := rfl
@[simp] theorem takeResult_loop (s : State) : (takeResult s).loop = s.loop := rfl
@[simp] theorem takeResult_exit (s : State) : (takeResult s).exit = s.exit := rfl
@[simp] theorem takeResult_cmd (s : State) : (takeResult s).cmd = s.cmd := rfl
@[simp] theorem takeResult_trace (s : State) : (takeResult s).trace = s.trace := rfl
@[simp] theorem takeResult_fault (s : State) : (takeResult s).fault = s.fault := rfl
@[simp] theorem takeResult_ret (s : State) : (takeResult s).ret = s.ret := rfl
@[simp] theorem takeResult_stuckInTool (s : State) : (takeResult s).stuckInTool = s.stuckInTool := rfl
@[simp] theorem takeResult_env (s : State) : (takeResult s).env = s.env := rfl
@[simp] theorem takeResult_invocation (s : State) : (takeResult s).invocation = s.invocation := rfl

/-! `beginRead` -/

@[simp] theorem beginRead_cfg (a : Byte) (s : State) : (beginRead a s).cfg = s.cfg := rfl
@[simp] theorem beginRead_session (a : Byte) (s : State) : (beginRead a s).session = s.session := rfl
@[simp] theorem beginRead_acquireCount (a : Byte) (s : State) : (beginRead a s).acquireCount = s.acquireCount := rfl
@[simp] theorem beginRead_chan (a : Byte) (s : State) : (beginRead a s).chan =
    { s.chan with kind := .read, addr := a, timedOut := false, timeouts := [] } := rfl
@[simp] theorem beginRead_ctl (a : Byte) (s : State) : (beginRead a s).ctl = s.ctl := rfl
@[simp] theorem beginRead_stop (a : Byte) (s : State) : (beginRead a s).stop = s.stop := rfl
@[simp] theorem beginRead_override (a : Byte) (s : State) : (beginRead a s).override = s.override := rfl
@[simp] theorem beginRead_loop (a : Byte) (s : State) : (beginRead a s).loop = s.loop := rfl
@[simp] theorem beginRead_exit (a : Byte) (s : State) : (beginRead a s).exit = s.exit := rfl
@[simp] theorem beginRead_cmd (a : Byte) (s : State) : (beginRead a s).cmd = s.cmd := rfl
@[simp] theorem beginRead_trace (a : Byte) (s : State) : (beginRead a s).trace = s.trace := rfl
@[simp] theorem beginRead_fault (a : Byte) (s : State) : (beginRead a s).fault = s.fault := rfl
@[simp] theorem beginRead_ret (a : Byte) (s : State) : (beginRead a s).ret = s.ret := rfl
@[simp] theorem beginRead_stuckInTool (a : Byte) (s : State) : (beginRead a s).stuckInTool = s.stuckInTool := rfl
@[simp] theorem beginRead_env (a : Byte) (s : State) : (beginRead a s).env = s.env := rfl
@[simp] theorem beginRead_invocation (a : Byte) (s : State) : (beginRead a s).invocation = s.invocation := rfl

/-! `beginWrite` -/

@[simp] theorem beginWrite_cfg (c a v : Byte) (s : State) : (beginWrite c a v s).cfg = s.cfg := rfl
@[simp] theorem beginWrite_session (c a v : Byte) (s : State) : (beginWrite c a v s).session = s.session := rfl
@[simp] theorem beginWrite_acquireCount (c a v : Byte) (s : State) : (beginWrite c a v s).acquireCount = s.acquireCount := rfl
@[simp] theorem beginWrite_chan (c a v : Byte) (s : State) : (beginWrite c a v s).chan =
    { s.chan with kind := .write, cmd := c, addr := a, value := v, timedOut := false, timeouts := [] } := rfl
@[simp] theorem beginWrite_ctl (c a v : Byte) (s : State) : (beginWrite c a v s).ctl = s.ctl := rfl
@[simp] theorem beginWrite_stop (c a v : Byte) (s : State) : (beginWrite c a v s).stop = s.stop := rfl
@[simp] theorem beginWrite_override (c a v : Byte) (s : State) : (beginWrite c a v s).override = s.override := rfl
@[simp] theorem beginWrite_loop (c a v : Byte) (s : State) : (beginWrite c a v s).loop = s.loop := rfl
@[simp] theorem beginWrite_exit (c a v : Byte) (s : State) : (beginWrite c a v s).exit = s.exit := rfl
@[simp] theorem beginWrite_cmd (c a v : Byte) (s : State) : (beginWrite c a v s).cmd = s.cmd := rfl
@[simp] theorem beginWrite_trace (c a v : Byte) (s : State) : (beginWrite c a v s).trace = s.trace := rfl
@[simp] theorem beginWrite_fault (c a v : Byte) (s : State) : (beginWrite c a v s).fault = s.fault := rfl
@[simp] theorem beginWrite_ret (c a v : Byte) (s : State) : (beginWrite c a v s).ret = s.ret := rfl
@[simp] theorem beginWrite_stuckInTool (c a v : Byte) (s : State) : (beginWrite c a v s).stuckInTool = s.stuckInTool := rfl
@[simp] theorem beginWrite_env (c a v : Byte) (s : State) : (beginWrite c a v s).env = s.env := rfl
@[simp] theorem beginWrite_invocation (c a v : Byte) (s : State) : (beginWrite c a v s).invocation = s.invocation := rfl

/-! `failCommand` -/

@[simp] theorem failCommand_cfg (s : State) : (failCommand s).cfg = s.cfg := rfl
@[simp] theorem failCommand_session (s : State) : (failCommand s).session = s.session := rfl
@[simp] theorem failCommand_acquireCount (s : State) : (failCommand s).acquireCount = s.acquireCount := rfl
@[simp] theorem failCommand_chan (s : State) : (failCommand s).chan = s.chan := rfl
@[simp] theorem failCommand_ctl (s : State) : (failCommand s).ctl = s.ctl := rfl
@[simp] theorem failCommand_stop (s : State) : (failCommand s).stop = s.stop := rfl
@[simp] theorem failCommand_override (s : State) : (failCommand s).override = s.override := rfl
@[simp] theorem failCommand_loop (s : State) : (failCommand s).loop = s.loop := rfl
@[simp] theorem failCommand_exit (s : State) : (failCommand s).exit = s.exit := rfl
@[simp] theorem failCommand_cmd (s : State) : (failCommand s).cmd = { s.cmd with failed := true } := rfl
@[simp] theorem failCommand_trace (s : State) : (failCommand s).trace = s.trace := rfl
@[simp] theorem failCommand_fault (s : State) : (failCommand s).fault = s.fault := rfl
@[simp] theorem failCommand_ret (s : State) : (failCommand s).ret = s.ret := rfl
@[simp] theorem failCommand_stuckInTool (s : State) : (failCommand s).stuckInTool = s.stuckInTool := rfl
@[simp] theorem failCommand_env (s : State) : (failCommand s).env = s.env := rfl
@[simp] theorem failCommand_invocation (s : State) : (failCommand s).invocation = s.invocation := rfl

/-! `setCmdPhase` -/

@[simp] theorem setCmdPhase_cfg (p : CmdPhase) (s : State) : (setCmdPhase p s).cfg = s.cfg := rfl
@[simp] theorem setCmdPhase_session (p : CmdPhase) (s : State) : (setCmdPhase p s).session = s.session := rfl
@[simp] theorem setCmdPhase_acquireCount (p : CmdPhase) (s : State) : (setCmdPhase p s).acquireCount = s.acquireCount := rfl
@[simp] theorem setCmdPhase_chan (p : CmdPhase) (s : State) : (setCmdPhase p s).chan = s.chan := rfl
@[simp] theorem setCmdPhase_ctl (p : CmdPhase) (s : State) : (setCmdPhase p s).ctl = s.ctl := rfl
@[simp] theorem setCmdPhase_stop (p : CmdPhase) (s : State) : (setCmdPhase p s).stop = s.stop := rfl
@[simp] theorem setCmdPhase_override (p : CmdPhase) (s : State) : (setCmdPhase p s).override = s.override := rfl
@[simp] theorem setCmdPhase_loop (p : CmdPhase) (s : State) : (setCmdPhase p s).loop = s.loop := rfl
@[simp] theorem setCmdPhase_exit (p : CmdPhase) (s : State) : (setCmdPhase p s).exit = s.exit := rfl
@[simp] theorem setCmdPhase_cmd (p : CmdPhase) (s : State) : (setCmdPhase p s).cmd = { s.cmd with phase := p } := rfl
@[simp] theorem setCmdPhase_trace (p : CmdPhase) (s : State) : (setCmdPhase p s).trace = s.trace := rfl
@[simp] theorem setCmdPhase_fault (p : CmdPhase) (s : State) : (setCmdPhase p s).fault = s.fault := rfl
@[simp] theorem setCmdPhase_ret (p : CmdPhase) (s : State) : (setCmdPhase p s).ret = s.ret := rfl
@[simp] theorem setCmdPhase_stuckInTool (p : CmdPhase) (s : State) : (setCmdPhase p s).stuckInTool = s.stuckInTool := rfl
@[simp] theorem setCmdPhase_env (p : CmdPhase) (s : State) : (setCmdPhase p s).env = s.env := rfl
@[simp] theorem setCmdPhase_invocation (p : CmdPhase) (s : State) : (setCmdPhase p s).invocation = s.invocation := rfl

/-! `endProcess` -/

@[simp] theorem endProcess_cfg (e : Int) (s : State) : (endProcess e s).cfg = s.cfg := rfl
@[simp] theorem endProcess_session (e : Int) (s : State) : (endProcess e s).session = s.session := rfl
@[simp] theorem endProcess_acquireCount (e : Int) (s : State) : (endProcess e s).acquireCount = s.acquireCount := rfl
@[simp] theorem endProcess_chan (e : Int) (s : State) : (endProcess e s).chan = s.chan := rfl
@[simp] theorem endProcess_ctl (e : Int) (s : State) : (endProcess e s).ctl = s.ctl := rfl
@[simp] theorem endProcess_stop (e : Int) (s : State) : (endProcess e s).stop = s.stop := rfl
@[simp] theorem endProcess_override (e : Int) (s : State) : (endProcess e s).override = s.override := rfl
@[simp] theorem endProcess_loop (e : Int) (s : State) : (endProcess e s).loop = s.loop := rfl
@[simp] theorem endProcess_exit (e : Int) (s : State) : (endProcess e s).exit = some e := rfl
@[simp] theorem endProcess_cmd (e : Int) (s : State) : (endProcess e s).cmd = { s.cmd with phase := .ended } := rfl
@[simp] theorem endProcess_trace (e : Int) (s : State) : (endProcess e s).trace = s.trace := rfl
@[simp] theorem endProcess_fault (e : Int) (s : State) : (endProcess e s).fault = s.fault := rfl
@[simp] theorem endProcess_ret (e : Int) (s : State) : (endProcess e s).ret = s.ret := rfl
@[simp] theorem endProcess_stuckInTool (e : Int) (s : State) : (endProcess e s).stuckInTool = s.stuckInTool := rfl
@[simp] theorem endProcess_env (e : Int) (s : State) : (endProcess e s).env = s.env := rfl
@[simp] theorem endProcess_invocation (e : Int) (s : State) : (endProcess e s).invocation = s.invocation := rfl

/-! `exitLoop` -/

@[simp] theorem exitLoop_cfg (s : State) : (exitLoop s).cfg = s.cfg := rfl
@[simp] theorem exitLoop_session (s : State) : (exitLoop s).session = s.session := rfl
@[simp] theorem exitLoop_acquireCount (s : State) : (exitLoop s).acquireCount = s.acquireCount := rfl
@[simp] theorem exitLoop_chan (s : State) : (exitLoop s).chan = s.chan := rfl
@[simp] theorem exitLoop_ctl (s : State) : (exitLoop s).ctl = none := rfl
@[simp] theorem exitLoop_stop (s : State) : (exitLoop s).stop = s.stop := rfl
@[simp] theorem exitLoop_override (s : State) : (exitLoop s).override = s.override := rfl
@[simp] theorem exitLoop_loop (s : State) : (exitLoop s).loop = .exited := rfl
@[simp] theorem exitLoop_exit (s : State) : (exitLoop s).exit = s.exit := rfl
@[simp] theorem exitLoop_cmd (s : State) : (exitLoop s).cmd = s.cmd := rfl
@[simp] theorem exitLoop_trace (s : State) : (exitLoop s).trace = s.trace := rfl
@[simp] theorem exitLoop_fault (s : State) : (exitLoop s).fault = s.fault := rfl
@[simp] theorem exitLoop_ret (s : State) : (exitLoop s).ret = some .ok := rfl
@[simp] theorem exitLoop_stuckInTool (s : State) : (exitLoop s).stuckInTool = s.stuckInTool := rfl
@[simp] theorem exitLoop_env (s : State) : (exitLoop s).env = s.env := rfl
@[simp] theorem exitLoop_invocation (s : State) : (exitLoop s).invocation = s.invocation := rfl

/-! `raise` -/

@[simp] theorem raise_cfg (f : FaultKind) (s : State) : (raise f s).cfg = s.cfg := by
  unfold raise; cases s.fault <;> rfl
@[simp] theorem raise_session (f : FaultKind) (s : State) : (raise f s).session = s.session := by
  unfold raise; cases s.fault <;> rfl
@[simp] theorem raise_acquireCount (f : FaultKind) (s : State) : (raise f s).acquireCount = s.acquireCount := by
  unfold raise; cases s.fault <;> rfl
@[simp] theorem raise_chan (f : FaultKind) (s : State) : (raise f s).chan = s.chan := by
  unfold raise; cases s.fault <;> rfl
@[simp] theorem raise_ctl (f : FaultKind) (s : State) : (raise f s).ctl = s.ctl := by
  unfold raise; cases s.fault <;> rfl
@[simp] theorem raise_stop (f : FaultKind) (s : State) : (raise f s).stop = s.stop := by
  unfold raise; cases s.fault <;> rfl
@[simp] theorem raise_override (f : FaultKind) (s : State) : (raise f s).override = s.override := by
  unfold raise; cases s.fault <;> rfl
@[simp] theorem raise_loop (f : FaultKind) (s : State) : (raise f s).loop = s.loop := by
  unfold raise; cases s.fault <;> rfl
@[simp] theorem raise_exit (f : FaultKind) (s : State) : (raise f s).exit = s.exit := by
  unfold raise; cases s.fault <;> rfl
@[simp] theorem raise_cmd (f : FaultKind) (s : State) : (raise f s).cmd = s.cmd := by
  unfold raise; cases s.fault <;> rfl
@[simp] theorem raise_trace (f : FaultKind) (s : State) : (raise f s).trace = s.trace := by
  unfold raise; cases s.fault <;> rfl
@[simp] theorem raise_fault (f : FaultKind) (s : State) : (raise f s).fault = some (s.fault.getD f) := by
  unfold raise; cases h : s.fault <;> simp [h]
@[simp] theorem raise_ret (f : FaultKind) (s : State) : (raise f s).ret = s.ret := by
  unfold raise; cases s.fault <;> rfl
@[simp] theorem raise_stuckInTool (f : FaultKind) (s : State) : (raise f s).stuckInTool = s.stuckInTool := by
  unfold raise; cases s.fault <;> rfl
@[simp] theorem raise_env (f : FaultKind) (s : State) : (raise f s).env = s.env := by
  unfold raise; cases s.fault <;> rfl
@[simp] theorem raise_invocation (f : FaultKind) (s : State) : (raise f s).invocation = s.invocation := by
  unfold raise; cases s.fault <;> rfl

end Sys2Proof.Machine
end

