-- ==== Sys2Proof/Laws/Frames.lean ====
section
/-! SUPPORT. The frame relations: equal field by field, reflexive, transitive, and how `andThen` and `returned`
carry them. -/

namespace Sys2Proof.Machine

/-- `OnlyChannel` field by field. -/
theorem onlyChannel_iff (s t : State) :
    OnlyChannel s t ↔
      t.cfg = s.cfg ∧ t.session = s.session ∧ t.acquireCount = s.acquireCount ∧ t.ctl = s.ctl ∧ t.stop = s.stop ∧
        t.override = s.override ∧ t.loop = s.loop ∧ t.exit = s.exit ∧ t.cmd = s.cmd ∧ t.fault = s.fault ∧
        t.ret = s.ret ∧ t.stuckInTool = s.stuckInTool ∧ t.invocation = s.invocation ∧
        t.env = { s.env with ec := t.env.ec, count := t.env.count } := by
  cases s; cases t; simp only [OnlyChannel, State.mk.injEq]; tauto

/-- `OnlyObservation` field by field. -/
theorem onlyObservation_iff (s t : State) :
    OnlyObservation s t ↔
      t.cfg = s.cfg ∧ t.session = s.session ∧ t.acquireCount = s.acquireCount ∧ t.ctl = s.ctl ∧ t.stop = s.stop ∧
        t.override = s.override ∧ t.loop = s.loop ∧ t.exit = s.exit ∧ t.cmd = s.cmd ∧ t.fault = s.fault ∧
        t.ret = s.ret ∧ t.stuckInTool = s.stuckInTool ∧ t.invocation = s.invocation := by
  cases s; cases t; simp only [OnlyObservation, State.mk.injEq]; tauto

theorem onlyChannel_refl (s : State) : OnlyChannel s s := rfl

theorem onlyObservation_refl (s : State) : OnlyObservation s s := rfl

theorem onlyChannel_trans {s t u : State} (h1 : OnlyChannel s t) (h2 : OnlyChannel t u) : OnlyChannel s u := by
  rw [onlyChannel_iff] at *
  obtain ⟨a1, a2, a3, a4, a5, a6, a7, a8, a9, a10, a11, a12, a13, a14⟩ := h1
  obtain ⟨b1, b2, b3, b4, b5, b6, b7, b8, b9, b10, b11, b12, b13, b14⟩ := h2
  refine ⟨b1.trans a1, b2.trans a2, b3.trans a3, b4.trans a4, b5.trans a5, b6.trans a6, b7.trans a7, b8.trans a8,
    b9.trans a9, b10.trans a10, b11.trans a11, b12.trans a12, b13.trans a13, ?_⟩
  rw [b14, a14]

theorem onlyObservation_trans {s t u : State} (h1 : OnlyObservation s t) (h2 : OnlyObservation t u) :
    OnlyObservation s u := by
  rw [onlyObservation_iff] at *
  obtain ⟨a1, a2, a3, a4, a5, a6, a7, a8, a9, a10, a11, a12, a13⟩ := h1
  obtain ⟨b1, b2, b3, b4, b5, b6, b7, b8, b9, b10, b11, b12, b13⟩ := h2
  exact ⟨b1.trans a1, b2.trans a2, b3.trans a3, b4.trans a4, b5.trans a5, b6.trans a6, b7.trans a7, b8.trans a8,
    b9.trans a9, b10.trans a10, b11.trans a11, b12.trans a12, b13.trans a13⟩

theorem onlyChannel_observation {s t : State} (h : OnlyChannel s t) : OnlyObservation s t := by
  rw [onlyChannel_iff] at h
  rw [onlyObservation_iff]
  obtain ⟨a1, a2, a3, a4, a5, a6, a7, a8, a9, a10, a11, a12, a13, _⟩ := h
  exact ⟨a1, a2, a3, a4, a5, a6, a7, a8, a9, a10, a11, a12, a13⟩

theorem onlyChannel_cfg {s t : State} (h : OnlyChannel s t) : t.cfg = s.cfg := ((onlyChannel_iff s t).1 h).1

theorem onlyObservation_cfg {s t : State} (h : OnlyObservation s t) : t.cfg = s.cfg :=
  ((onlyObservation_iff s t).1 h).1

/-! ## `andThen`, `returned` -/

@[simp] theorem andThen_done {α β : Type} (a : α) (s : State) (k : α → State → Res β) :
    andThen (.done a s) k = k a s := rfl

@[simp] theorem andThen_halted {α β : Type} (s : State) (k : α → State → Res β) :
    andThen (.halted s) k = .halted s := rfl

/-- An operation in two parts completes exactly when both parts do. -/
theorem andThen_eq_done {α β : Type} {r : Res α} {k : α → State → Res β} {b : β} {u : State} :
    andThen r k = .done b u ↔ ∃ a t, r = .done a t ∧ k a t = .done b u := by
  cases r <;> simp [andThen]

/-- An operation in two parts stops in its first or in its second part. -/
theorem andThen_eq_halted {α β : Type} {r : Res α} {k : α → State → Res β} {u : State} :
    andThen r k = .halted u ↔ r = .halted u ∨ ∃ a t, r = .done a t ∧ k a t = .halted u := by
  cases r <;> simp [andThen]

@[simp] theorem returned_done {α : Type} (f : α → OpResult) (a : α) (s : State) :
    returned f (.done a s) = { s with ret := some (f a) } := rfl

@[simp] theorem returned_halted {α : Type} (f : α → OpResult) (s : State) :
    returned f (.halted s : Res α) = { s with ret := none } := rfl

@[simp] theorem finish_eq {α : Type} (f : α → OpResult) (r : Res α) : finish f r = .next (returned f r) := rfl

/-- The state an operation ended in, whether or not it completed. -/
def Res.after {α : Type} (r : Res α) : State :=
  match r with
  | .done _ s => s
  | .halted s => s

@[simp] theorem Res.after_done {α : Type} (a : α) (s : State) : (Res.done a s).after = s := rfl

@[simp] theorem Res.after_halted {α : Type} (s : State) : (Res.halted s : Res α).after = s := rfl

end Sys2Proof.Machine
end

