-- ==== Sys2Proof/Laws/Ports.lean ====
section
/-! SUPPORT. The port primitives and the wait: what each changes, the event it leaves, and everything a wait can do. -/

set_option linter.unusedSimpArgs false

namespace Sys2Proof.Machine

/-! ## Register cells -/

theorem cellsFrom_cons (lo : Nat) (c : Host.Cell) (rest : List Host.Cell) :
    cellsFrom lo (c :: rest) = true ↔ lo ≤ c.1 ∧ c.1 < 256 ∧ c.2 ≠ 0 ∧ cellsFrom (c.1 + 1) rest = true := by
  obtain ⟨k, v⟩ := c
  simp only [cellsFrom, Bool.and_eq_true, decide_eq_true_eq]
  tauto

theorem cellsFrom_mono {lo lo' : Nat} (h : lo ≤ lo') (m : List Host.Cell) (hm : cellsFrom lo' m = true) :
    cellsFrom lo m = true := by
  cases m with
  | nil => rfl
  | cons c rest =>
    rw [cellsFrom_cons] at *
    exact ⟨by omega, hm.2⟩

/-- An address below a canonical list's first reads as 0x00. -/
theorem cellRead_below {lo : Nat} (m : List Host.Cell) (hm : cellsFrom lo m = true) {a : Nat} (ha : a < lo) :
    cellRead m a = 0 := by
  induction m generalizing lo with
  | nil => rfl
  | cons c rest ih =>
    rw [cellsFrom_cons] at hm
    have : c.1 ≠ a := by omega
    simp only [cellRead, this, if_false]
    exact ih hm.2.2.2 (by omega)

/-- A store keeps the canonical form. -/
theorem cellWrite_wf {lo : Nat} (m : List Host.Cell) (hm : cellsFrom lo m = true) {a : Nat} (hlo : lo ≤ a)
    (ha : a < 256) (v : Byte) : cellsFrom lo (cellWrite m a v) = true := by
  induction m generalizing lo with
  | nil =>
    by_cases hv : v = 0
    · simp only [cellWrite, hv, if_true]; rfl
    · simp only [cellWrite, hv, if_false]
      exact (cellsFrom_cons _ _ _).2 ⟨hlo, ha, hv, rfl⟩
  | cons c rest ih =>
    have hm' := (cellsFrom_cons _ _ _).1 hm
    unfold cellWrite
    split
    · split
      · exact hm
      · exact (cellsFrom_cons _ _ _).2 ⟨hlo, ha, ‹_›, (cellsFrom_cons _ _ _).2 ⟨by omega, hm'.2⟩⟩
    · split
      · split
        · exact cellsFrom_mono (by omega) rest hm'.2.2.2
        · rename_i h1 h2 hv
          exact (cellsFrom_cons _ _ _).2 ⟨hlo, ha, hv, by rw [h2]; exact hm'.2.2.2⟩
      · exact (cellsFrom_cons _ _ _).2 ⟨hm'.1, hm'.2.1, hm'.2.2.1, ih hm'.2.2.2 (by omega)⟩

/-- Reading after a store. -/
theorem cellRead_cellWrite {lo : Nat} (m : List Host.Cell) (hm : cellsFrom lo m = true) (a b : Nat) (v : Byte) :
    cellRead (cellWrite m a v) b = if b = a then v else cellRead m b := by
  induction m generalizing lo with
  | nil =>
    by_cases hv : v = 0#8
    · simp [cellWrite, cellRead, hv]
    · by_cases h : b = a
      · simp [cellWrite, hv, cellRead, h]
      · simp [cellWrite, hv, cellRead, h, Ne.symm h]
  | cons c rest ih =>
    have hm' := (cellsFrom_cons _ _ _).1 hm
    have htail : cellsFrom (c.1 + 1) rest = true := hm'.2.2.2
    unfold cellWrite
    by_cases h1 : a < c.1
    · by_cases hv : v = 0#8
      · by_cases h : b = a
        · have hne : c.1 ≠ b := by omega
          simp [h1, hv, cellRead, h, cellRead_below rest htail (show a < c.1 + 1 by omega)]
          omega
        · simp [h1, hv, h]
      · by_cases h : b = a
        · simp [h1, hv, h, cellRead]
        · simp [h1, hv, h, cellRead, Ne.symm h]
    · by_cases h2 : a = c.1
      · by_cases hv : v = 0#8
        · by_cases h : b = a
          · simp [h1, h2, hv, h, cellRead_below rest htail (show c.1 < c.1 + 1 by omega)]
          · have h3 : ¬ b = c.1 := by omega
            simp [h1, h2, hv, h3, cellRead, Ne.symm h3]
        · by_cases h : b = a
          · simp [h2, hv, h, cellRead]
          · have h3 : ¬ b = c.1 := by omega
            simp [h2, hv, h3, cellRead, Ne.symm h3]
      · simp only [h1, h2, if_false, cellRead]
        by_cases h : c.1 = b
        · have : ¬ b = a := by omega
          simp [h, this]
        · simp [h, ih htail]

/-! ## The EC agent keeps canonical cells -/

theorem refSetDuty_wf (c : Config) (sub v : Byte) (ch : Channel) (m : List Host.Cell) (h : Memory.wf m = true) :
    Memory.wf (refSetDuty c sub v ch m) = true := by
  unfold refSetDuty
  split
  · exact cellWrite_wf m h (Nat.zero_le _) (BitVec.isLt _) v
  · exact h

theorem drawPort_cells (c : Config) (p : Port) (e : Env) (h : ecCellsOk e.ec = true) :
    ecCellsOk (drawPort c p e).2.ec = true := by
  unfold drawPort
  split
  · rfl
  · exact h
  · rename_i r hr
    cases p
    · exact h
    · rw [hr] at h
      simp only [ecCellsOk, refDataIn] at *
      split
      · exact h
      · split <;> exact h

theorem ecAfterOut_cells (c : Config) (p : Port) (v : Byte) (ec : Ec) (h : ecCellsOk ec = true) :
    ecCellsOk (ecAfterOut c p v ec) = true := by
  unfold ecAfterOut
  split
  · exact h
  · rename_i r
    cases p
    · simp only [refCommand]
      split
      · exact h
      · split <;> exact h
    · simp only [refDataOut]
      split
      · exact h
      · exact h
      · exact h
      · exact refSetDuty_wf _ _ _ _ _ (refSetDuty_wf _ _ _ _ _ h)

/-! ## Port primitives -/

theorem drawPort_env (c : Config) (p : Port) (e : Env) :
    (drawPort c p e).2 = { e with ec := (drawPort c p e).2.ec, count := (drawPort c p e).2.count } := by
  unfold drawPort
  split
  · rfl
  · rfl
  · cases p <;> rfl

@[simp] theorem portIn_chan (p : Port) (s : State) : (portIn p s).2.chan = s.chan := rfl

@[simp] theorem portIn_cfg (p : Port) (s : State) : (portIn p s).2.cfg = s.cfg := rfl

@[simp] theorem portIn_trace (p : Port) (s : State) :
    (portIn p s).2.trace = s.trace ++ [.portIn p (portIn p s).1] := rfl

theorem portIn_only (p : Port) (s : State) : OnlyChannel s (portIn p s).2 := by
  rw [onlyChannel_iff]
  exact ⟨rfl, rfl, rfl, rfl, rfl, rfl, rfl, rfl, rfl, rfl, rfl, rfl, rfl, drawPort_env _ _ _⟩

@[simp] theorem portOut_chan (p : Port) (v : Byte) (s : State) : (portOut p v s).chan = s.chan := rfl

@[simp] theorem portOut_cfg (p : Port) (v : Byte) (s : State) : (portOut p v s).cfg = s.cfg := rfl

@[simp] theorem portOut_trace (p : Port) (v : Byte) (s : State) :
    (portOut p v s).trace = s.trace ++ [.portOut p v] := rfl

theorem portOut_only (p : Port) (v : Byte) (s : State) : OnlyChannel s (portOut p v s) := rfl

theorem setAttempt_only (n : Nat) (s : State) : OnlyChannel s (setAttempt n s) := rfl

theorem setPhase_only (p : ChanPhase) (s : State) : OnlyChannel s (setPhase p s) := rfl

theorem markTimedOut_only (k : Nat) (s : State) : OnlyChannel s (markTimedOut k s) := rfl

theorem sleep_only (ms : Nat) (s : State) : OnlyChannel s (sleep ms s) := rfl

/-- The EC agent keeps canonical cells through a port read. -/
theorem portIn_cells (p : Port) (s : State) (h : ecCellsOk s.env.ec = true) :
    ecCellsOk (portIn p s).2.env.ec = true := drawPort_cells _ _ _ h

theorem portOut_cells (p : Port) (v : Byte) (s : State) (h : ecCellsOk s.env.ec = true) :
    ecCellsOk (portOut p v s).env.ec = true := ecAfterOut_cells _ _ _ _ h

/-! ## The wait -/

theorem waitEvents_cons (ms : Nat) (b : Byte) {bs : List Byte} (h : bs ≠ []) :
    waitEvents ms (b :: bs) = .portIn .sc b :: .sleep ms :: waitEvents ms bs := by
  cases bs with
  | nil => exact absurd rfl h
  | cons c rest => rfl

/-- Everything a wait's polls can do. -/
structure PollSpec (cond : Byte → Bool) (n : Nat) (s : State) (b : Bool) (t : State) (bs : List Byte) : Prop where
  nonempty : bs ≠ []
  length : bs.length ≤ n
  trace : t.trace = s.trace ++ waitEvents s.cfg.pollIntervalMs bs
  chan : t.chan = { s.chan with attempt := s.chan.attempt + bs.length }
  only : OnlyChannel s t
  failed : ∀ x ∈ bs.dropLast, cond x = false
  last : ∀ x, bs.getLast? = some x → cond x = b
  expired : b = false → bs.length = n
  cells : ecCellsOk s.env.ec = true → ecCellsOk t.env.ec = true

theorem poll_spec (cond : Byte → Bool) (n : Nat) (s : State) (hn : 1 ≤ n) :
    ∃ bs, PollSpec cond n s (poll cond n s).1 (poll cond n s).2 bs := by
  induction n generalizing s with
  | zero => omega
  | succ k ih =>
    unfold poll
    simp only
    set a := portIn .sc (setAttempt (s.chan.attempt + 1) s) with ha
    have honly : OnlyChannel s a.2 := onlyChannel_trans (setAttempt_only _ _) (portIn_only _ _)
    have hcells : ecCellsOk s.env.ec = true → ecCellsOk a.2.env.ec = true := fun h => portIn_cells _ _ h
    by_cases hc : cond a.1 = true
    · simp only [hc, if_true]
      exact ⟨[a.1], by simp, by simp, by simp [ha, waitEvents], by simp [ha], honly, by simp, by simpa using hc, by simp,
        hcells⟩
    · have hc' : cond a.1 = false := by simpa using hc
      simp only [hc', Bool.false_eq_true, if_false]
      by_cases hk : k = 0
      · subst hk
        simp only [if_true]
        exact ⟨[a.1], by simp, by simp, by simp [ha, waitEvents], by simp [ha], honly, by simp, by simpa using hc',
          by simp, hcells⟩
      · simp only [hk, if_false]
        obtain ⟨bs, h⟩ := ih (sleep a.2.cfg.pollIntervalMs a.2) (by omega)
        refine ⟨a.1 :: bs, by simp, by simpa using h.length, ?_, ?_, ?_, ?_, ?_, ?_, ?_⟩
        · rw [h.trace, waitEvents_cons _ _ h.nonempty]
          simp [ha]
        · rw [h.chan]
          simp [ha, Nat.add_assoc, Nat.add_comm]
        · exact onlyChannel_trans honly (onlyChannel_trans (sleep_only _ _) h.only)
        · intro x hx
          rw [List.dropLast_cons_of_ne_nil h.nonempty] at hx
          rcases List.mem_cons.1 hx with rfl | hx
          · exact hc'
          · exact h.failed x hx
        · intro x hx
          rw [List.getLast?_cons_of_ne_nil h.nonempty] at hx
          exact h.last x hx
        · intro hb
          simp [h.expired hb]
        · intro h0
          exact h.cells (hcells h0)

theorem wait_spec (cond : Byte → Bool) (s : State) (hn : 1 ≤ s.cfg.pollBudget) :
    ∃ bs, PollSpec cond s.cfg.pollBudget (setAttempt 0 s) (wait cond s).1 (wait cond s).2 bs :=
  poll_spec cond _ _ hn

end Sys2Proof.Machine
end

