-- ==== Sys2Proof/Laws/Traces.lean ====
section
/-! SUPPORT. What traces show: counts, bytes sent and the wait discipline, over appended events and over a wait's
events. -/

namespace Sys2Proof.Machine

@[simp] theorem sent_nil : sent [] = [] := rfl

theorem sent_append (es fs : List Event) : sent (es ++ fs) = sent es ++ sent fs := by
  simp [sent, List.filterMap_append]

@[simp] theorem sent_portOut (p : Port) (v : Byte) (es : List Event) :
    sent (.portOut p v :: es) = (p, v) :: sent es := by simp [sent]

@[simp] theorem sent_portIn (p : Port) (v : Byte) (es : List Event) : sent (.portIn p v :: es) = sent es := by
  simp [sent]

@[simp] theorem sent_sleep (ms : Nat) (es : List Event) : sent (.sleep ms :: es) = sent es := by simp [sent]

theorem sysfsValues_append (es fs : List Event) : sysfsValues (es ++ fs) = sysfsValues es ++ sysfsValues fs := by
  simp [sysfsValues, List.filterMap_append]

/-! ## The wait discipline over appended events -/

/-- The event before what follows `es`. -/
def lastEvent (l : Option Event) (es : List Event) : Option Event := (es.getLast?).or l

theorem lastEvent_cons (l : Option Event) (e : Event) (es : List Event) :
    lastEvent l (e :: es) = lastEvent (some e) es := by
  cases es with
  | nil => rfl
  | cons f rest => simp [lastEvent, List.getLast?_cons]

theorem sendsAreAwaited_append (c : Config) (l : Option Event) (es fs : List Event) :
    sendsAreAwaited c l (es ++ fs) = (sendsAreAwaited c l es && sendsAreAwaited c (lastEvent l es) fs) := by
  induction es generalizing l with
  | nil => simp [sendsAreAwaited, lastEvent]
  | cons e rest ih =>
    rw [List.cons_append, sendsAreAwaited, sendsAreAwaited, ih, lastEvent_cons, Bool.and_assoc]

/-- Events that send nothing keep the discipline. -/
theorem sendsAreAwaited_of_sent_nil (c : Config) (l : Option Event) (es : List Event) (h : sent es = []) :
    sendsAreAwaited c l es = true := by
  induction es generalizing l with
  | nil => rfl
  | cons e rest ih =>
    have hrest : sent rest = [] := by
      cases e <;> simp_all [sent]
    have he : sendAwaited c l e = true := by
      cases e <;> first | rfl | simp at h
    simp [sendsAreAwaited, he, ih _ hrest]

/-- An event that is no port event sends nothing and reads no status. -/
theorem sent_of_noPort {e : Event} (h : isPortEvent e = false) : sent [e] = [] ∧ isStatusRead e = false := by
  cases e <;> first | exact ⟨rfl, rfl⟩ | cases h

/-! ## A wait's events -/

@[simp] theorem waitEvents_sent (ms : Nat) (bs : List Byte) : sent (waitEvents ms bs) = [] := by
  induction bs with
  | nil => rfl
  | cons b rest ih =>
    cases rest with
    | nil => rfl
    | cons c tl => rw [waitEvents_cons _ _ (by simp)]; simpa using ih

@[simp] theorem waitEvents_status (ms : Nat) (bs : List Byte) :
    (waitEvents ms bs).countP isStatusRead = bs.length := by
  induction bs with
  | nil => rfl
  | cons b rest ih =>
    cases rest with
    | nil => rfl
    | cons c tl => rw [waitEvents_cons _ _ (by simp)]; simp [List.countP_cons, isStatusRead, ih]

@[simp] theorem waitEvents_data (ms : Nat) (bs : List Byte) : (waitEvents ms bs).countP isDataRead = 0 := by
  induction bs with
  | nil => rfl
  | cons b rest ih =>
    cases rest with
    | nil => rfl
    | cons c tl => rw [waitEvents_cons _ _ (by simp)]; simp [isDataRead, ih]

@[simp] theorem waitEvents_sleeps (ms : Nat) (bs : List Byte) :
    (waitEvents ms bs).countP isSleep = bs.length - 1 := by
  induction bs with
  | nil => rfl
  | cons b rest ih =>
    cases rest with
    | nil => rfl
    | cons c tl => rw [waitEvents_cons _ _ (by simp)]; simp [List.countP_cons, isSleep, ih]

theorem waitEvents_last (ms : Nat) (bs : List Byte) :
    (waitEvents ms bs).getLast? = bs.getLast?.map (.portIn .sc) := by
  induction bs with
  | nil => rfl
  | cons b rest ih =>
    cases rest with
    | nil => rfl
    | cons c tl =>
      have hne : waitEvents ms (c :: tl) ≠ [] := by
        cases tl <;> simp [waitEvents]
      rw [waitEvents_cons _ _ (by simp), List.getLast?_cons_cons, List.getLast?_cons_of_ne_nil hne, ih,
        List.getLast?_cons_cons]

/-! ## Whole handshakes -/

theorem HandshakeTrace.append {c : Config} {es fs : List Event} (h1 : HandshakeTrace c es) (h2 : HandshakeTrace c fs) :
    HandshakeTrace c (es ++ fs) := by
  induction h1 with
  | nil => exact h2
  | other e es he _ ih => exact .other e _ he ih
  | read addr v ts es rest h _ ih => rw [List.append_assoc]; exact .read addr v ts es _ h ih
  | write cmd addr value r es rest h _ ih => rw [List.append_assoc]; exact .write cmd addr value r es _ h ih

/-- One event that is no port event. -/
theorem handshakeTrace_event (c : Config) {e : Event} (h : isPortEvent e = false) : HandshakeTrace c [e] :=
  .other e [] h .nil

/-- One read. -/
theorem ReadEvents.handshake {c : Config} {addr v : Byte} {ts : List ErrorKind} {es : List Event}
    (h : ReadEvents c addr v ts es) : HandshakeTrace c es := by
  simpa using HandshakeTrace.read addr v ts es [] h .nil

/-- One write. -/
theorem WriteEvents.handshake {c : Config} {cmd addr value : Byte} {r : Except ErrorKind Unit} {es : List Event}
    (h : WriteEvents c cmd addr value r es) : HandshakeTrace c es := by
  simpa using HandshakeTrace.write cmd addr value r es [] h .nil

/-- An EC transaction's events: port events and sleeps, nothing of the sensors. -/
def channelEvent (e : Event) : Bool := isPortEvent e || isSleep e

@[simp] theorem channelEvent_portIn (p : Port) (v : Byte) : channelEvent (.portIn p v) = true := rfl

@[simp] theorem channelEvent_portOut (p : Port) (v : Byte) : channelEvent (.portOut p v) = true := rfl

@[simp] theorem channelEvent_sleep (ms : Nat) : channelEvent (.sleep ms) = true := rfl

@[simp] theorem waitEvents_channel (ms : Nat) (bs : List Byte) : (waitEvents ms bs).all channelEvent = true := by
  induction bs with
  | nil => rfl
  | cons b rest ih =>
    cases rest with
    | nil => rfl
    | cons c tl => rw [waitEvents_cons _ _ (by simp)]; simpa using ih

end Sys2Proof.Machine
end

