-- ==== Sys2Proof/Laws/Channel.lean ====
section
/-! SUPPORT. The EC transactions: everything one can do, whatever the EC answers. -/

set_option linter.unusedSimpArgs false

namespace Sys2Proof.Machine

/-- `t` comes after `s` with the events `es`, only the channel, the trace and the EC agent touched. -/
structure Seg (s t : State) (es : List Event) : Prop where
  trace : t.trace = s.trace ++ es
  only : OnlyChannel s t
  cells : ecCellsOk s.env.ec = true → ecCellsOk t.env.ec = true

theorem Seg.refl (s : State) : Seg s s [] := ⟨by simp, rfl, id⟩

theorem Seg.trans {s t u : State} {es fs : List Event} (h1 : Seg s t es) (h2 : Seg t u fs) : Seg s u (es ++ fs) :=
  ⟨by rw [h2.trace, h1.trace, List.append_assoc], onlyChannel_trans h1.only h2.only, fun h => h2.cells (h1.cells h)⟩

theorem Seg.cfg {s t : State} {es : List Event} (h : Seg s t es) : t.cfg = s.cfg := onlyChannel_cfg h.only

/-- A write of the sequencer alone. -/
theorem Seg.chan (s : State) (c : Chan) : Seg s { s with chan := c } [] := ⟨by simp, rfl, id⟩

/-- A write of the sequencer alone, after a segment. -/
theorem Seg.withChan {s t : State} {es : List Event} (h : Seg s t es) (c : Chan) : Seg s { t with chan := c } es := by
  have := h.trans (Seg.chan t c)
  rwa [List.append_nil] at this

theorem Seg.trans_nil {s t u : State} {es : List Event} (h1 : Seg s t es) (h2 : Seg t u []) : Seg s u es := by
  have := h1.trans h2
  rwa [List.append_nil] at this

theorem seg_portIn (p : Port) (s : State) : Seg s (portIn p s).2 [.portIn p (portIn p s).1] :=
  ⟨rfl, portIn_only _ _, portIn_cells _ _⟩

theorem seg_portOut (p : Port) (v : Byte) (s : State) : Seg s (portOut p v s) [.portOut p v] :=
  ⟨rfl, portOut_only _ _ _, portOut_cells _ _ _⟩

/-! ## Waits in their phases -/

/-- A wait in a phase: its status reads, the sequencer after it, and its answer. -/
theorem wait_in_phase (cond : Byte → Bool) (p : ChanPhase) (s : State) (hB : 1 ≤ s.cfg.pollBudget) :
    ∃ bs, Seg s (wait cond (setPhase p s)).2 (waitEvents s.cfg.pollIntervalMs bs) ∧
      WaitEnds s.cfg cond (wait cond (setPhase p s)).1 bs ∧
      (wait cond (setPhase p s)).2.chan = { s.chan with phase := p, attempt := bs.length } := by
  obtain ⟨bs, h⟩ := wait_spec cond (setPhase p s) hB
  exact ⟨bs, ⟨h.trace, onlyChannel_trans (setPhase_only p s) (onlyChannel_trans (setAttempt_only 0 _) h.only), h.cells⟩,
    ⟨h.nonempty, h.length, h.failed, h.last, h.expired⟩, by rw [h.chan]; simp⟩

/-- Wait `k` of a read: `ok` says whether its condition was seen. -/
theorem readWait_spec (k : Nat) (cond : Byte → Bool) (p : ChanPhase) (s : State) (hB : 1 ≤ s.cfg.pollBudget) :
    ∃ bs ok, Seg s (readWait k cond p s).2 (waitEvents s.cfg.pollIntervalMs bs) ∧ WaitEnds s.cfg cond ok bs ∧
      (readWait k cond p s).2.chan =
        { s.chan with phase := p, attempt := bs.length, timedOut := s.chan.timedOut || !ok,
                      timeouts := s.chan.timeouts ++ timeoutOf k ok } ∧
      ((readWait k cond p s).1 = false ↔ ok = false ∧ s.cfg.readTimeoutMode = .abortSample) := by
  obtain ⟨bs, hseg, hends, hchan⟩ := wait_in_phase cond p s hB
  have hcfg := hseg.cfg
  unfold readWait
  simp only
  cases hw : (wait cond (setPhase p s)).1 with
  | true =>
    rw [hw] at hends
    exact ⟨bs, true, hseg, hends, by simp [hchan, timeoutOf], by simp [hw]⟩
  | false =>
    rw [hw] at hends
    refine ⟨bs, false, ?_⟩
    simp only [Bool.false_eq_true, if_false, hcfg]
    cases hmode : s.cfg.readTimeoutMode <;>
      exact ⟨hseg.withChan _, hends, by simp [hchan, timeoutOf], by simp⟩

/-! ## Reads -/

theorem readSample_spec (s : State) :
    Seg s (readSample s).2 [.portIn .data (readSample s).1] ∧
      (readSample s).2.chan = { s.chan with phase := .done, result := some (.byte (readSample s).1) } :=
  ⟨(seg_portIn .data s).withChan _, by simp [readSample]⟩

/-- The six steps of a read (rules R104, R105): its events, and the sequencer after it. -/
theorem readSequence_spec (s : State) (hB : 1 ≤ s.cfg.pollBudget) :
    ∃ es ts, Seg s (readSequence s).2 es ∧ ReadEvents s.cfg s.chan.addr (readSequence s).1 ts es ∧
      ∃ n ≤ s.cfg.pollBudget, (readSequence s).2.chan =
        { s.chan with phase := .done, attempt := n, timedOut := s.chan.timedOut || !ts.isEmpty,
                      result := some (.byte (readSequence s).1), timeouts := s.chan.timeouts ++ ts } := by
  unfold readSequence
  simp only
  obtain ⟨bs1, ok1, hs1, he1, hc1, hgo1⟩ := readWait_spec 1 (ibfEmpty s.cfg) .rW1 s hB
  cases g1 : (readWait 1 (ibfEmpty s.cfg) .rW1 s).1 with
  | false =>
    simp only [Bool.false_eq_true, if_false]
    have h1 := hgo1.1 g1
    obtain ⟨hs4, hc4⟩ := readSample_spec (readWait 1 (ibfEmpty s.cfg) .rW1 s).2
    refine ⟨_, [.timeoutError 1], hs1.trans hs4, ⟨ok1, bs1, he1, ?_⟩, bs1.length, he1.2.1, ?_⟩
    · rw [if_pos h1]; exact ⟨rfl, rfl⟩
    · rw [hc4, hc1, h1.1]; simp [timeoutOf]
  | true =>
    simp only [if_true]
    have h1 : ¬(ok1 = false ∧ s.cfg.readTimeoutMode = .abortSample) := fun h => by
      rw [hgo1.2 h] at g1; cases g1
    set s1 := (readWait 1 (ibfEmpty s.cfg) .rW1 s).2 with hs1def
    have ho1 := hs1.trans (seg_portOut .sc s.cfg.cmdRead s1)
    have hcfg1 : (portOut .sc s.cfg.cmdRead s1).cfg = s.cfg := ho1.cfg
    obtain ⟨bs2, ok2, hs2, he2, hc2, hgo2⟩ :=
      readWait_spec 2 (ibfEmpty s.cfg) .rW2 (portOut .sc s.cfg.cmdRead s1) (by rw [hcfg1]; exact hB)
    rw [hcfg1] at hs2 he2 hgo2
    cases g2 : (readWait 2 (ibfEmpty s.cfg) .rW2 (portOut .sc s.cfg.cmdRead s1)).1 with
    | false =>
      simp only [Bool.false_eq_true, if_false]
      have h2 := hgo2.1 g2
      obtain ⟨hs4, hc4⟩ := readSample_spec (readWait 2 (ibfEmpty s.cfg) .rW2 (portOut .sc s.cfg.cmdRead s1)).2
      refine ⟨_, timeoutOf 1 ok1 ++ [.timeoutError 2], (ho1.trans hs2).trans hs4, ⟨ok1, bs1, he1, ?_⟩, bs2.length, he2.2.1, ?_⟩
      · rw [if_neg h1]
        refine ⟨ok2, bs2, he2, ?_⟩
        rw [if_pos h2]
        exact ⟨rfl, rfl⟩
      · rw [hc4, hc2, h2.1]; cases ok1 <;> simp [hc1, timeoutOf]
    | true =>
      simp only [if_true]
      have h2 : ¬(ok2 = false ∧ s.cfg.readTimeoutMode = .abortSample) := fun h => by
        rw [hgo2.2 h] at g2; cases g2
      set s2 := (readWait 2 (ibfEmpty s.cfg) .rW2 (portOut .sc s.cfg.cmdRead s1)).2 with hs2def
      have haddr : s2.chan.addr = s.chan.addr := by rw [hc2]; simp [hc1]
      have ho2 := (ho1.trans hs2).trans (seg_portOut .data s2.chan.addr s2)
      have hcfg2 : (portOut .data s2.chan.addr s2).cfg = s.cfg := ho2.cfg
      obtain ⟨bs3, ok3, hs3, he3, hc3, -⟩ :=
        readWait_spec 3 (obfFull s.cfg) .rW3 (portOut .data s2.chan.addr s2) (by rw [hcfg2]; exact hB)
      rw [hcfg2] at hs3 he3
      obtain ⟨hs4, hc4⟩ := readSample_spec (readWait 3 (obfFull s.cfg) .rW3 (portOut .data s2.chan.addr s2)).2
      refine ⟨_, timeoutOf 1 ok1 ++ timeoutOf 2 ok2 ++ timeoutOf 3 ok3, (ho2.trans hs3).trans hs4, ⟨ok1, bs1, he1, ?_⟩, bs3.length, he3.2.1, ?_⟩
      · rw [if_neg h1]
        refine ⟨ok2, bs2, he2, ?_⟩
        rw [if_neg h2]
        exact ⟨ok3, bs3, he3, rfl, by rw [haddr]⟩
      · rw [hc4, hc3]; cases ok1 <;> cases ok2 <;> cases ok3 <;> simp [hc2, hc1, timeoutOf]

/-! ## Writes -/

/-- The four steps of a write (rule R106): its events, and the sequencer after it. -/
theorem writeSequence_spec (s : State) (hB : 1 ≤ s.cfg.pollBudget) :
    ∃ es, Seg s (writeSequence s).2 es ∧
      WriteEvents s.cfg s.chan.cmd s.chan.addr s.chan.value (writeSequence s).1 es ∧
      ∃ n ≤ s.cfg.pollBudget,
        ((writeSequence s).1 = .ok () ∧
          (writeSequence s).2.chan = { s.chan with phase := .done, attempt := n, result := some .unit }) ∨
        ∃ k, 1 ≤ k ∧ k ≤ 4 ∧ (writeSequence s).1 = .error (.timeoutError k) ∧
          (writeSequence s).2.chan =
            { s.chan with phase := .done, attempt := n, timedOut := true, result := some (.timeout k),
                          timeouts := s.chan.timeouts ++ [.timeoutError k] } := by
  unfold writeSequence
  simp only
  obtain ⟨bs1, hs1, he1, hc1⟩ := wait_in_phase (ibfEmpty s.cfg) .wW1 s hB
  set w1 := wait (ibfEmpty s.cfg) (setPhase .wW1 s) with hw1
  cases g1 : w1.1 with
  | false =>
    rw [g1] at he1
    exact ⟨_, hs1.withChan _, ⟨false, bs1, he1, rfl, rfl⟩, bs1.length, he1.2.1,
      .inr ⟨1, by omega, by omega, rfl, by simp [writeFail, hc1]⟩⟩
  | true =>
    rw [g1] at he1
    simp only [if_true]
    have ho1 := hs1.trans (seg_portOut .sc w1.2.chan.cmd w1.2)
    have hcfg1 := ho1.cfg
    have hcmd : w1.2.chan.cmd = s.chan.cmd := by rw [hc1]
    obtain ⟨bs2, hs2, he2, hc2⟩ :=
      wait_in_phase (ibfEmpty s.cfg) .wW2 (portOut .sc w1.2.chan.cmd w1.2) (by rw [hcfg1]; exact hB)
    rw [hcfg1] at hs2 he2
    set w2 := wait (ibfEmpty s.cfg) (setPhase .wW2 (portOut .sc w1.2.chan.cmd w1.2)) with hw2
    cases g2 : w2.1 with
    | false =>
      rw [g2] at he2
      exact ⟨_, (ho1.trans hs2).withChan _, ⟨true, bs1, he1, false, bs2, he2, rfl, by rw [hcmd]⟩, bs2.length,
        he2.2.1, .inr ⟨2, by omega, by omega, rfl, by simp [writeFail, hc2, hc1]⟩⟩
    | true =>
      rw [g2] at he2
      simp only [if_true]
      have ho2 := (ho1.trans hs2).trans (seg_portOut .data w2.2.chan.addr w2.2)
      have hcfg2 := ho2.cfg
      have haddr : w2.2.chan.addr = s.chan.addr := by rw [hc2]; simp [hc1]
      obtain ⟨bs3, hs3, he3, hc3⟩ :=
        wait_in_phase (ibfEmpty s.cfg) .wW3 (portOut .data w2.2.chan.addr w2.2) (by rw [hcfg2]; exact hB)
      rw [hcfg2] at hs3 he3
      set w3 := wait (ibfEmpty s.cfg) (setPhase .wW3 (portOut .data w2.2.chan.addr w2.2)) with hw3
      cases g3 : w3.1 with
      | false =>
        rw [g3] at he3
        exact ⟨_, (ho2.trans hs3).withChan _,
          ⟨true, bs1, he1, true, bs2, he2, false, bs3, he3, rfl, by rw [hcmd, haddr]⟩, bs3.length, he3.2.1,
          .inr ⟨3, by omega, by omega, rfl, by simp [writeFail, hc3, hc2, hc1]⟩⟩
      | true =>
        rw [g3] at he3
        simp only [if_true]
        have ho3 := (ho2.trans hs3).trans (seg_portOut .data w3.2.chan.value w3.2)
        have hcfg3 := ho3.cfg
        have hval : w3.2.chan.value = s.chan.value := by rw [hc3]; simp [hc2, hc1]
        obtain ⟨bs4, hs4, he4, hc4⟩ :=
          wait_in_phase (ibfEmpty s.cfg) .wW4 (portOut .data w3.2.chan.value w3.2) (by rw [hcfg3]; exact hB)
        rw [hcfg3] at hs4 he4
        set w4 := wait (ibfEmpty s.cfg) (setPhase .wW4 (portOut .data w3.2.chan.value w3.2)) with hw4
        cases g4 : w4.1 with
        | false =>
          rw [g4] at he4
          exact ⟨_, (ho3.trans hs4).withChan _,
            ⟨true, bs1, he1, true, bs2, he2, true, bs3, he3, false, bs4, he4, rfl, by rw [hcmd, haddr, hval]⟩,
            bs4.length, he4.2.1, .inr ⟨4, by omega, by omega, rfl, by simp [writeFail, hc4, hc3, hc2, hc1]⟩⟩
        | true =>
          rw [g4] at he4
          exact ⟨_, (ho3.trans hs4).withChan _,
            ⟨true, bs1, he1, true, bs2, he2, true, bs3, he3, true, bs4, he4, rfl, by rw [hcmd, haddr, hval]⟩,
            bs4.length, he4.2.1, .inl ⟨rfl, by simp [writeDone, hc4, hc3, hc2, hc1]⟩⟩

/-! ## What the events of a transaction show -/

theorem WaitEnds.last {c : Config} {cond : Byte → Bool} {ok : Bool} {bs : List Byte} (h : WaitEnds c cond ok bs) :
    ∃ x, bs.getLast? = some x ∧ cond x = ok := by
  obtain ⟨x, hx⟩ := Option.isSome_iff_exists.1 (List.getLast?_isSome.2 h.1)
  exact ⟨x, hx, h.2.2.2.1 x hx⟩

/-- A byte sent right after a wait that the discipline accepts. -/
theorem sendsAreAwaited_after_wait {c : Config} {ok : Bool} {bs : List Byte} (h : WaitEnds c (ibfEmpty c) ok bs)
    (hok : ok = true ∨ c.readTimeoutMode = .continueSequence) (l : Option Event) (ms : Nat) (p : Port) (v : Byte)
    (fs : List Event) :
    sendsAreAwaited c l (waitEvents ms bs ++ [.portOut p v] ++ fs) =
      sendsAreAwaited c (some (.portOut p v)) fs := by
  obtain ⟨x, hx, hc⟩ := h.last
  have hl : lastEvent l (waitEvents ms bs) = some (.portIn .sc x) := by simp [lastEvent, waitEvents_last, hx]
  rw [List.append_assoc, sendsAreAwaited_append, sendsAreAwaited_of_sent_nil _ _ _ (waitEvents_sent _ _), hl]
  rcases hok with rfl | hm
  · simp [sendsAreAwaited, sendAwaited, hc]
  · simp [sendsAreAwaited, sendAwaited, hm]

/-- What the events of any transaction show: `reads` of the data port, at most `waits` waits. -/
structure TransactionSpec (c : Config) (waits reads : Nat) (es : List Event) : Prop where
  channel : es.all channelEvent = true
  status : es.countP isStatusRead ≤ waits * c.pollBudget
  sleeps : es.countP isSleep ≤ waits * (c.pollBudget - 1)
  dataReads : es.countP isDataRead = reads
  awaited : ∀ l, sendsAreAwaited c l es = true

theorem mode_of_not {c : Config} {ok : Bool} (h : ¬(ok = false ∧ c.readTimeoutMode = .abortSample)) :
    ok = true ∨ c.readTimeoutMode = .continueSequence := by
  cases ok <;> cases hm : c.readTimeoutMode <;> simp_all

theorem ReadEvents.spec {c : Config} {addr v : Byte} {ts : List ErrorKind} {es : List Event}
    (h : ReadEvents c addr v ts es) : TransactionSpec c 3 1 es ∧ es.getLast? = some (.portIn .data v) ∧
      sent es <+: [(.sc, c.cmdRead), (.data, addr)] ∧
      (ts = [] ∨ c.readTimeoutMode = .continueSequence → sent es = [(.sc, c.cmdRead), (.data, addr)]) := by
  obtain ⟨ok1, bs1, h1, h⟩ := h
  have l1 := h1.2.1
  split at h
  · rename_i hm
    obtain ⟨rfl, rfl⟩ := h
    refine ⟨⟨by simp, ?_, ?_, ?_, fun l => sendsAreAwaited_of_sent_nil _ _ _ (by simp [sent_append])⟩, ?_, ?_, ?_⟩
    · simp [isStatusRead]; omega
    · simp [isSleep]; omega
    · simp [isDataRead]
    · exact List.getLast?_concat ..
    · simp [sent_append]
    · simp [hm.2]
  · rename_i m1
    obtain ⟨ok2, bs2, h2, h⟩ := h
    have l2 := h2.2.1
    split at h
    · rename_i hm
      obtain ⟨rfl, rfl⟩ := h
      refine ⟨⟨by simp, ?_, ?_, ?_, fun l => ?_⟩, ?_, ?_, ?_⟩
      · simp [List.countP_append, List.countP_cons, isStatusRead]; omega
      · simp [List.countP_append, List.countP_cons, isSleep]; omega
      · simp [List.countP_append, List.countP_cons, isDataRead]
      · rw [List.append_assoc, sendsAreAwaited_after_wait h1 (mode_of_not m1)]
        exact sendsAreAwaited_of_sent_nil _ _ _ (by simp [sent_append])
      · exact List.getLast?_concat ..
      · simp [sent_append]
      · simp [hm.2]
    · rename_i m2
      obtain ⟨ok3, bs3, h3, rfl, rfl⟩ := h
      have l3 := h3.2.1
      refine ⟨⟨by simp, ?_, ?_, ?_, fun l => ?_⟩, ?_, ?_, ?_⟩
      · simp [List.countP_append, List.countP_cons, isStatusRead]; omega
      · simp [List.countP_append, List.countP_cons, isSleep]; omega
      · simp [List.countP_append, List.countP_cons, isDataRead]
      · simp only [List.append_assoc]
        rw [← List.append_assoc, sendsAreAwaited_after_wait h1 (mode_of_not m1), ← List.append_assoc,
          sendsAreAwaited_after_wait h2 (mode_of_not m2)]
        exact sendsAreAwaited_of_sent_nil _ _ _ (by simp [sent_append])
      · exact List.getLast?_concat ..
      · simp [sent_append]
      · simp [sent_append]

/-- The bytes a write has sent when wait `k` expires (rule R106 (a)); with `k = 4` all three. -/
def sentBefore (cmd addr value : Byte) (k : Nat) : List (Port × Byte) :=
  [(Port.sc, cmd), (Port.data, addr), (Port.data, value)].take (k - 1)

theorem WriteEvents.spec {c : Config} {cmd addr value : Byte} {r : Except ErrorKind Unit} {es : List Event}
    (h : WriteEvents c cmd addr value r es) :
    TransactionSpec c 4 0 es ∧
      ((r = .ok () ∧ sent es = sentBefore cmd addr value 4) ∨
        ∃ k, 1 ≤ k ∧ k ≤ 4 ∧ r = .error (.timeoutError k) ∧ sent es = sentBefore cmd addr value k) := by
  obtain ⟨ok1, bs1, h1, h⟩ := h
  have l1 := h1.2.1
  split at h
  · obtain ⟨rfl, rfl⟩ := h
    refine ⟨⟨by simp, ?_, ?_, by simp, fun l => sendsAreAwaited_of_sent_nil _ _ _ (by simp)⟩,
      .inr ⟨1, by omega, by omega, rfl, by simp [sentBefore]⟩⟩
    · simp; omega
    · simp; omega
  · rename_i m1
    obtain ⟨ok2, bs2, h2, h⟩ := h
    have l2 := h2.2.1
    split at h
    · obtain ⟨rfl, rfl⟩ := h
      refine ⟨⟨by simp, ?_, ?_, ?_, fun l => ?_⟩, .inr ⟨2, by omega, by omega, rfl, by simp [sentBefore, sent_append]⟩⟩
      · simp [List.countP_append, List.countP_cons, isStatusRead]; omega
      · simp [List.countP_append, List.countP_cons, isSleep]; omega
      · simp [List.countP_append, List.countP_cons, isDataRead]
      · rw [sendsAreAwaited_after_wait h1 (.inl (by simpa using m1))]
        exact sendsAreAwaited_of_sent_nil _ _ _ (by simp)
    · rename_i m2
      obtain ⟨ok3, bs3, h3, h⟩ := h
      have l3 := h3.2.1
      split at h
      · obtain ⟨rfl, rfl⟩ := h
        refine ⟨⟨by simp, ?_, ?_, ?_, fun l => ?_⟩,
          .inr ⟨3, by omega, by omega, rfl, by simp [sentBefore, sent_append]⟩⟩
        · simp [List.countP_append, List.countP_cons, isStatusRead]; omega
        · simp [List.countP_append, List.countP_cons, isSleep]; omega
        · simp [List.countP_append, List.countP_cons, isDataRead]
        · simp only [List.append_assoc]
          rw [← List.append_assoc, sendsAreAwaited_after_wait h1 (.inl (by simpa using m1)), ← List.append_assoc,
            sendsAreAwaited_after_wait h2 (.inl (by simpa using m2))]
          exact sendsAreAwaited_of_sent_nil _ _ _ (by simp)
      · rename_i m3
        obtain ⟨ok4, bs4, h4, rfl, rfl⟩ := h
        have l4 := h4.2.1
        refine ⟨⟨by simp, ?_, ?_, ?_, fun l => ?_⟩, ?_⟩
        · simp [List.countP_append, List.countP_cons, isStatusRead]; omega
        · simp [List.countP_append, List.countP_cons, isSleep]; omega
        · simp [List.countP_append, List.countP_cons, isDataRead]
        · simp only [List.append_assoc]
          rw [← List.append_assoc, sendsAreAwaited_after_wait h1 (.inl (by simpa using m1)), ← List.append_assoc,
            sendsAreAwaited_after_wait h2 (.inl (by simpa using m2)), ← List.append_assoc,
            sendsAreAwaited_after_wait h3 (.inl (by simpa using m3))]
          exact sendsAreAwaited_of_sent_nil _ _ _ (by simp)
        · cases ok4
          · exact .inr ⟨4, by omega, by omega, rfl, by simp [sentBefore, sent_append]⟩
          · exact .inl ⟨rfl, by simp [sentBefore, sent_append]⟩

/-- In whole handshakes every byte sent follows its status read (rule R315). -/
theorem HandshakeTrace.awaited {c : Config} {es : List Event} (h : HandshakeTrace c es) (l : Option Event) :
    sendsAreAwaited c l es = true := by
  induction h generalizing l with
  | nil => rfl
  | other e es he _ ih =>
    rw [← List.singleton_append, sendsAreAwaited_append, sendsAreAwaited_of_sent_nil _ _ _ (sent_of_noPort he).1, ih]
    rfl
  | read addr v ts es rest h _ ih => rw [sendsAreAwaited_append, h.spec.1.awaited, ih]; rfl
  | write cmd addr value r es rest h _ ih => rw [sendsAreAwaited_append, h.spec.1.awaited, ih]; rfl

end Sys2Proof.Machine
end

