-- ==== Sys2Proof/Laws/Convert.lean ====
section
/-! SUPPORT. The arithmetic of the rules: rounding, the unit conversions, the target and the hottest value, each as the
spec states it. -/

namespace Sys2Proof.Machine

/-! ## Rounding -/

/-- `roundQuot` is `RoundT` of the quotient (rule R16). -/
theorem roundQuot_isRound (tie : RoundTie) (num den : Int) (hd : 0 < den) :
    IsRound tie ((num : Rat) / den) (roundQuot tie num den) := by
  have hdQ : (0 : Rat) < den := by exact_mod_cast hd
  have hr0 := Int.emod_nonneg num (ne_of_gt hd)
  have hrd := Int.emod_lt_of_pos num hd
  have hq : (num : Rat) / den = (num / den : Int) + (num % den : Int) / (den : Rat) := by
    have h : (num : Rat) = den * (num / den : Int) + (num % den : Int) := by
      exact_mod_cast (Int.mul_ediv_add_emod num den).symm
    field_simp
    linarith
  rw [hq]
  unfold roundQuot
  simp only
  generalize num / den = q at *
  generalize num % den = r at *
  have hlt : (r : Rat) / den < 1 / 2 ↔ 2 * r < den := by
    rw [div_lt_iff₀ hdQ, one_div, inv_mul_eq_div, lt_div_iff₀ two_pos, mul_comm]
    exact_mod_cast Iff.rfl
  have hgt : 1 / 2 < (r : Rat) / den ↔ den < 2 * r := by
    rw [lt_div_iff₀ hdQ, one_div, inv_mul_eq_div, div_lt_iff₀ two_pos, mul_comm (r : Rat)]
    exact_mod_cast Iff.rfl
  have hfrac0 : (0 : Rat) ≤ (r : Rat) / den := div_nonneg (by exact_mod_cast hr0) hdQ.le
  have hfrac1 : (r : Rat) / den < 1 := by rw [div_lt_one hdQ]; exact_mod_cast hrd
  unfold IsRound
  generalize (r : Rat) / den = x at *
  by_cases h1 : 2 * r < den
  · have := hlt.2 h1
    simp only [h1, if_true]
    exact ⟨by linarith, by linarith, by rintro (h | h) <;> (exfalso; linarith)⟩
  · by_cases h2 : den < 2 * r
    · have := hgt.2 h2
      simp only [h1, h2, if_true, if_false]
      push_cast
      exact ⟨by linarith, by linarith, by rintro (h | h) <;> (exfalso; linarith)⟩
    · have hx : x = 1 / 2 := le_antisymm (not_lt.1 (mt hgt.1 h2)) (not_lt.1 (mt hlt.1 h1))
      subst hx
      simp only [h1, h2, if_false]
      cases tie with
      | halfUp => push_cast; exact ⟨by linarith, by linarith, fun _ => by linarith⟩
      | halfEven =>
        by_cases he : q % 2 = 0
        · simp only [he, if_true]; exact ⟨by linarith, by linarith, fun _ => trivial⟩
        · simp only [he, if_false]; push_cast
          exact ⟨by linarith, by linarith, fun _ => by omega⟩

/-- A rounded value lies between integers its argument lies between. -/
theorem IsRound.bounds {tie : RoundTie} {q : Rat} {n lo hi : Int} (h : IsRound tie q n) (hlo : (lo : Rat) ≤ q)
    (hhi : q ≤ hi) : lo ≤ n ∧ n ≤ hi := by
  obtain ⟨h1, h2, -⟩ := h
  constructor
  · by_contra hc
    have : (n : Rat) + 1 ≤ lo := by exact_mod_cast (not_le.1 hc)
    linarith
  · by_contra hc
    have : (hi : Rat) + 1 ≤ n := by exact_mod_cast (not_le.1 hc)
    linarith

/-- Rounding decides its value. -/
theorem IsRound.unique {tie : RoundTie} {q : Rat} {n m : Int} (hn : IsRound tie q n) (hm : IsRound tie q m) : n = m := by
  obtain ⟨a1, a2, a3⟩ := hn
  obtain ⟨b1, b2, b3⟩ := hm
  by_contra hne
  rcases lt_or_gt_of_ne hne with h | h
  · have h' : (n : Rat) + 1 ≤ m := by exact_mod_cast h
    have e1 : (n : Rat) - q = -(1 / 2) := by linarith
    have e2 : (m : Rat) - q = 1 / 2 := by linarith
    have e3 : m = n + 1 := by
      have : (m : Rat) = n + 1 := by linarith
      exact_mod_cast this
    have c1 := a3 (.inr e1)
    have c2 := b3 (.inl e2)
    cases tie with
    | halfUp => simp only at c1; linarith
    | halfEven => simp only at c1 c2; omega
  · have h' : (m : Rat) + 1 ≤ n := by exact_mod_cast h
    have e1 : (m : Rat) - q = -(1 / 2) := by linarith
    have e2 : (n : Rat) - q = 1 / 2 := by linarith
    have e3 : n = m + 1 := by
      have : (n : Rat) = m + 1 := by linarith
      exact_mod_cast this
    have c1 := b3 (.inr e1)
    have c2 := a3 (.inl e2)
    cases tie with
    | halfUp => simp only at c1; linarith
    | halfEven => simp only at c1 c2; omega

/-- Rounding is monotone. -/
theorem IsRound.mono {tie : RoundTie} {q p : Rat} {n m : Int} (hn : IsRound tie q n) (hm : IsRound tie p m)
    (h : q ≤ p) : n ≤ m := by
  by_contra hc
  have h1 : (m : Rat) + 1 ≤ n := by exact_mod_cast (not_le.1 hc)
  obtain ⟨a1, a2, a3⟩ := hn
  obtain ⟨b1, b2, b3⟩ := hm
  have hqp : q = p := by linarith
  subst hqp
  exact hc (IsRound.unique ⟨a1, a2, a3⟩ ⟨b1, b2, b3⟩).le

/-! ## Conversions -/

theorem clamp_of_mem {x lo hi : Int} (h1 : lo ≤ x) (h2 : x ≤ hi) : clamp x lo hi = x := by
  unfold clamp; omega

theorem clamp_percent_bounds (p : Int) : 0 ≤ clamp p 0 100 ∧ clamp p 0 100 ≤ 100 := by
  unfold clamp; omega

theorem clamp_percent (p : Int) : clamp p 0 100 = min 100 (max 0 p) := rfl

/-- `DutyFromRaw` (rule R143), whatever `DUTY_RAW_MAX` is. -/
theorem dutyFromRaw_isDutyOf (c : Config) (raw : Byte) : IsDutyOf c raw (dutyFromRaw c raw) := by
  unfold dutyFromRaw
  refine ⟨(clamp_percent_bounds _).1, (clamp_percent_bounds _).2, fun hM => ?_⟩
  rw [if_neg (by omega), clamp_percent]
  refine ⟨_, ?_, rfl⟩
  have h := roundQuot_isRound c.roundTie (100 * raw.toNat) c.dutyRawMax (by exact_mod_cast hM)
  push_cast at h
  exact h

/-- `DutyFromRaw` with `DUTY_RAW_MAX = 255` (rule R143): the rounded percentage, which the clamp leaves. -/
theorem dutyFromRaw_isRound {c : Config} (hM : c.dutyRawMax = 255) (raw : Byte) :
    IsRound c.roundTie (100 * raw.toNat / 255) (dutyFromRaw c raw) := by
  obtain ⟨-, -, h⟩ := dutyFromRaw_isDutyOf c raw
  rw [hM] at h
  obtain ⟨n, hn, he⟩ := h (by omega)
  norm_num only [Nat.cast_ofNat] at hn
  have hraw : (raw.toNat : Rat) ≤ 255 := by exact_mod_cast Nat.le_of_lt_succ raw.isLt
  have hb := hn.bounds (lo := 0) (hi := 100) (by push_cast; positivity) (by push_cast; linarith)
  have : dutyFromRaw c raw = n := by omega
  rw [this]
  exact hn

/-- `RawFromDuty` where the rounded value is a byte (rule R147). -/
theorem rawFromDuty_toNat {c : Config} {p : Int} (h0 : 0 ≤ p)
    (h : roundQuot c.roundTie (c.dutyRawMax * p) 100 ≤ 255) :
    ((rawFromDuty c p).toNat : Int) = roundQuot c.roundTie (c.dutyRawMax * p) 100 := by
  have hr := roundQuot_isRound c.roundTie (c.dutyRawMax * p) 100 (by norm_num)
  have hp0 : (0 : Rat) ≤ p := by exact_mod_cast h0
  have hb := (hr.bounds (lo := 0) (hi := max 0 (roundQuot c.roundTie (c.dutyRawMax * p) 100 + 1)) (by push_cast; positivity)
    (by have := hr.1; push_cast at this ⊢; rw [le_max_iff]; right; linarith)).1
  simp only [rawFromDuty, if_pos h]
  rw [BitVec.toNat_ofInt]
  norm_num
  omega

/-- `RawFromDuty` (rule R147), whatever `DUTY_RAW_MAX` is. -/
theorem rawFromDuty_isRawOf (c : Config) {p : Int} (h0 : 0 ≤ p) : IsRawOf c p (rawFromDuty c p) := by
  intro n hn hle
  have hr := roundQuot_isRound c.roundTie (c.dutyRawMax * p) 100 (by norm_num)
  push_cast at hr
  have he := hn.unique hr
  rw [rawFromDuty_toNat h0 (by omega), he]

/-- `RawFromDuty` with `DUTY_RAW_MAX = 255` (rule R147): the rounded raw value is always a byte. -/
theorem rawFromDuty_isRound {c : Config} (hM : c.dutyRawMax = 255) {p : Int} (h0 : 0 ≤ p) (h1 : p ≤ 100) :
    IsRound c.roundTie (255 * p / 100) (rawFromDuty c p).toNat := by
  have h := roundQuot_isRound c.roundTie (c.dutyRawMax * p) 100 (by norm_num)
  rw [hM] at h
  push_cast at h
  have hp0 : (0 : Rat) ≤ p := by exact_mod_cast h0
  have hp1 : (p : Rat) ≤ 100 := by exact_mod_cast h1
  have hb := h.bounds (lo := 0) (hi := 255) (by push_cast; positivity) (by push_cast; linarith)
  rw [rawFromDuty_toNat h0 (by rw [hM]; exact hb.2), hM]
  exact h

/-- The 16-bit counter of two bytes, high byte first (rule R54). -/
theorem counter_toNat (hi lo : Byte) : (hi ++ lo : BitVec 16).toNat = 256 * hi.toNat + lo.toNat := by
  have := lo.isLt
  rw [BitVec.toNat_append, Nat.shiftLeft_eq, Nat.mul_comm, ← Nat.two_pow_add_eq_or_of_lt this]

theorem rpmFromRaw_eq (c : Config) (raw16 : BitVec 16) : rpmFromRaw c.rpmK raw16 = rpmOf c raw16.toNat := by
  unfold rpmFromRaw rpmOf
  by_cases h : raw16 = 0
  · simp [h]
  · have h' : raw16.toNat ≠ 0 := fun h0 => h (BitVec.eq_of_toNat_eq h0)
    rw [if_neg h, if_neg h', Rat.mkRat_eq_div]
    push_cast
    rfl

/-! ## The target -/

theorem interpRounded_isRound {c : Config} (hc : c.minTemp < c.maxTemp) (hot : Int) :
    IsRound c.roundTie (interp c hot) (interpRounded c hot) := by
  have hd : 0 < c.maxTemp - c.minTemp := by omega
  have h := roundQuot_isRound c.roundTie
    (c.minDuty * (c.maxTemp - c.minTemp) + (100 - c.minDuty) * (hot - c.minTemp)) (c.maxTemp - c.minTemp) hd
  have hdQ : ((c.maxTemp : Rat) - c.minTemp) ≠ 0 := by
    have : (c.minTemp : Rat) < c.maxTemp := by exact_mod_cast hc
    linarith
  have he : interp c hot = ((c.minDuty * (c.maxTemp - c.minTemp) + (100 - c.minDuty) * (hot - c.minTemp) : Int) : Rat) /
      ((c.maxTemp - c.minTemp : Int) : Rat) := by
    unfold interp
    push_cast
    field_simp
  rw [he]
  exact h

theorem interp_bounds {c : Config} (hc : c.minTemp < c.maxTemp) (h1 : c.minDuty ≤ 100) {hot : Int}
    (hlo : c.minTemp ≤ hot) (hhi : hot ≤ c.maxTemp) : (c.minDuty : Rat) ≤ interp c hot ∧ interp c hot ≤ 100 := by
  have hdQ : (0 : Rat) < (c.maxTemp : Rat) - c.minTemp := by
    have : (c.minTemp : Rat) < c.maxTemp := by exact_mod_cast hc
    linarith
  have a1 : (0 : Rat) ≤ 100 - c.minDuty := by
    have : (c.minDuty : Rat) ≤ 100 := by exact_mod_cast h1
    linarith
  have a2 : (0 : Rat) ≤ (hot : Rat) - c.minTemp := by
    have : (c.minTemp : Rat) ≤ hot := by exact_mod_cast hlo
    linarith
  have a3 : (hot : Rat) - c.minTemp ≤ (c.maxTemp : Rat) - c.minTemp := by
    have : (hot : Rat) ≤ c.maxTemp := by exact_mod_cast hhi
    linarith
  unfold interp
  constructor
  · have := div_nonneg (mul_nonneg a1 a2) hdQ.le
    linarith
  · have : (100 - (c.minDuty : Rat)) * ((hot : Rat) - c.minTemp) / ((c.maxTemp : Rat) - c.minTemp) ≤
        100 - c.minDuty := by
      rw [div_le_iff₀ hdQ]
      exact mul_le_mul_of_nonneg_left a3 a1
    linarith

/-- The checks of rule R8, one by one. -/
theorem configOk_iff (c : Config) :
    configOk c = true ↔ c.portSC ≠ c.portData ∧ c.ibfBit ≠ c.obfBit ∧ 1 ≤ c.pollBudget ∧ c.minTemp < c.maxTemp ∧
      0 ≤ c.deadBand ∧ 0 ≤ c.minDuty ∧ c.minDuty ≤ 100 ∧ 1 ≤ c.step ∧ 1 ≤ c.sysfsMaxInputs ∧
      c.vendorLo < c.vendorHi := by
  simp [configOk, and_assoc]

/-- `TARGET_DUTY`'s target is the one rule R201 states. -/
theorem targetValue_isTarget {c : Config} (hc : configOk c = true) (hot last : Int) :
    IsTarget c hot last (targetValue c hot last) := by
  obtain ⟨-, -, -, ht, -, h0, h1, -⟩ := (configOk_iff c).1 hc
  unfold IsTarget targetValue
  split
  · rfl
  · split
    · rfl
    · split
      · rfl
      · split
        · rfl
        · have h := interpRounded_isRound ht hot
          have hb := interp_bounds ht h1 (hot := hot) (by omega) (by omega)
          have hr := h.bounds (lo := c.minDuty) (hi := 100) hb.1 (by simpa using hb.2)
          rw [clamp_of_mem (by omega) hr.2]
          exact h

/-- Rule R201 decides the target. -/
theorem IsTarget.unique {c : Config} {hot last n m : Int} (hn : IsTarget c hot last n) (hm : IsTarget c hot last m) :
    n = m := by
  unfold IsTarget at hn hm
  split at hn <;> rename_i h1
  · rw [if_pos h1] at hm; rw [hn, hm]
  · rw [if_neg h1] at hm
    split at hn <;> rename_i h2
    · rw [if_pos h2] at hm; rw [hn, hm]
    · rw [if_neg h2] at hm
      split at hn <;> rename_i h3
      · rw [if_pos h3] at hm; rw [hn, hm]
      · rw [if_neg h3] at hm
        split at hn <;> rename_i h4
        · rw [if_pos h4] at hm; rw [hn, hm]
        · rw [if_neg h4] at hm; exact hn.unique hm

/-- The target is a percentage. -/
theorem targetValue_range {c : Config} (hc : configOk c = true) (hot last : Int) :
    0 ≤ targetValue c hot last ∧ targetValue c hot last ≤ 100 := by
  obtain ⟨-, -, -, -, -, h0, h1, -⟩ := (configOk_iff c).1 hc
  unfold targetValue
  split
  · omega
  · split
    · omega
    · split
      · omega
      · split
        · omega
        · exact clamp_percent_bounds _

/-- The rate limiter's output is a percentage (rule R203 (c)). -/
theorem rateLimit_range {c : Config} (hs : 1 ≤ c.step) (o : Bool) {last target : Int} (hl : 0 ≤ last ∧ last ≤ 100)
    (ht : 0 ≤ target ∧ target ≤ 100) : 0 ≤ rateLimit c o last target ∧ rateLimit c o last target ≤ 100 := by
  unfold rateLimit
  split
  · omega
  · split <;> omega

end Sys2Proof.Machine
end

