-- ==== Sys2Proof/Laws/Operations.lean ====
section
/-! SUPPORT. Everything the operations built on the EC channel, the sensors and the commands may change: one lemma per
operation, carried through `andThen`. -/

namespace Sys2Proof.Machine

/-- `t` comes after `s` with the events `es`; of the state only the channel, the trace, the environment's answers
(not the OS's grants, not the interrupt source) and the two stop marks may differ; at most `n` waits' worth of status
reads. -/
structure Quiet (n : Nat) (s t : State) (es : List Event) : Prop where
  trace : t.trace = s.trace ++ es
  frame : t = { s with chan := t.chan, trace := t.trace, env := t.env, fault := t.fault, stuckInTool := t.stuckInTool }
  env : t.env = { t.env with grants := s.env.grants, stops := s.env.stops }
  idle : s.chan.phase = .idle → t.chan.phase = .idle
  kind : s.chan.kind = .none → t.chan.kind = .none
  attempt : s.chan.attempt ≤ s.cfg.pollBudget → t.chan.attempt ≤ s.cfg.pollBudget
  cells : ecCellsOk s.env.ec = true → ecCellsOk t.env.ec = true
  handshake : HandshakeTrace s.cfg es
  status : es.countP isStatusRead ≤ n * s.cfg.pollBudget
  sticky : ∀ f, s.fault = some f → t.fault = some f
  admitted : s.fault ≠ some .badConfig → t.fault ≠ some .badConfig

theorem Quiet.cfg {n : Nat} {s t : State} {es : List Event} (h : Quiet n s t es) : t.cfg = s.cfg := by
  rw [h.frame]

theorem Quiet.refl (s : State) : Quiet 0 s s [] :=
  ⟨by simp, rfl, rfl, id, id, id, id, .nil, by simp, fun _ h => h, id⟩

theorem Quiet.trans {n m : Nat} {s t u : State} {es fs : List Event} (h1 : Quiet n s t es) (h2 : Quiet m t u fs) :
    Quiet (n + m) s u (es ++ fs) := by
  have hc := h1.cfg
  refine ⟨by rw [h2.trace, h1.trace, List.append_assoc], ?_, ?_, fun h => h2.idle (h1.idle h),
    fun h => h2.kind (h1.kind h), fun h => ?_, fun h => h2.cells (h1.cells h),
    h1.handshake.append (hc ▸ h2.handshake), ?_, fun f h => h2.sticky f (h1.sticky f h), fun h => h2.admitted (h1.admitted h)⟩
  · rw [h2.frame, h1.frame]
  · rw [h2.env, h1.env]
  · have := h2.attempt (by rw [hc]; exact h1.attempt h)
    rwa [hc] at this
  · have := h2.status
    rw [hc] at this
    rw [List.countP_append, Nat.add_mul]
    exact Nat.add_le_add h1.status this

theorem Quiet.mono {n m : Nat} {s t : State} {es : List Event} (h : Quiet n s t es) (hnm : n ≤ m) :
    Quiet m s t es :=
  { h with status := h.status.trans (Nat.mul_le_mul_right _ hnm) }

/-- One event that is no port event, with new answers of the environment. -/
theorem quiet_event (s : State) (e : Event) (env : Env) (hp : isPortEvent e = false)
    (hc : ecCellsOk s.env.ec = true → ecCellsOk env.ec = true)
    (he : env = { env with grants := s.env.grants, stops := s.env.stops }) :
    Quiet 0 s (emit e (withEnv env s)) [e] :=
  ⟨rfl, rfl, he, id, id, id, hc, handshakeTrace_event _ hp, by simp [(sent_of_noPort hp).2], fun _ h => h, id⟩

theorem quiet_raise {f : FaultKind} (hf : f ≠ .badConfig) (s : State) : Quiet 0 s (raise f s) [] := by
  refine ⟨by simp, ?_, by simp, by simp, by simp, by simp, by simp, .nil, by simp, fun g hg => by simp [hg],
    ?_⟩
  · unfold raise
    cases s.fault <;> rfl
  · intro h
    rw [raise_fault]
    cases hs : s.fault with
    | none => simpa using hf
    | some g => simpa [hs] using h

/-- A transaction that the caller took the result of is quiet. -/
theorem quiet_of_seg {waits reads : Nat} {s t : State} {es : List Event} (h : Seg s t es)
    (he : TransactionSpec s.cfg waits reads es) (hh : HandshakeTrace s.cfg es) (ha : t.chan.attempt ≤ s.cfg.pollBudget) :
    Quiet waits s (takeResult t) es := by
  have ho := (onlyChannel_iff _ _).1 h.only
  refine ⟨h.trace, ?_, ?_, fun _ => rfl, fun _ => rfl, fun _ => ha, h.cells, hh, he.status,
    fun f hf => by rw [takeResult_fault, ho.2.2.2.2.2.2.2.2.2.1]; exact hf,
    fun hf => by rw [takeResult_fault, ho.2.2.2.2.2.2.2.2.2.1]; exact hf⟩
  · rw [h.only]; rfl
  · rw [takeResult_env, ho.2.2.2.2.2.2.2.2.2.2.2.2.2]

/-! ## Operations -/

/-- What an operation from `s` may do, completed or stopped. -/
structure OpSpec {α : Type} (n : Nat) (s : State) (r : Res α) : Prop where
  quiet : ∃ es, Quiet n s r.after es
  done : ∀ a t, r = .done a t → t.fault = s.fault ∧ t.stuckInTool = s.stuckInTool
  halted : ∀ t, r = .halted t → t.fault.isSome = true ∨ t.stuckInTool = true
  ready : Ready s → r.after.fault = s.fault

theorem opSpec_done {α : Type} {n : Nat} {s t : State} (a : α) {es : List Event} (h : Quiet n s t es)
    (hf : t.fault = s.fault) (hst : t.stuckInTool = s.stuckInTool) : OpSpec n s (.done a t : Res α) :=
  ⟨⟨es, h⟩, by rintro b u ⟨⟩; exact ⟨hf, hst⟩, by rintro u ⟨⟩, fun _ => hf⟩

theorem opSpec_pure {α : Type} (a : α) (s : State) : OpSpec 0 s (.done a s : Res α) :=
  opSpec_done a (Quiet.refl s) rfl rfl

theorem opSpec_fault {α : Type} {f : FaultKind} (hf : f ≠ .badConfig) (s : State) (hs : ¬Ready s) :
    OpSpec 0 s (faultRes f s : Res α) :=
  ⟨⟨[], quiet_raise hf s⟩, by rintro b u ⟨⟩, by rintro u ⟨⟩; left; simp, fun h => absurd h hs⟩

theorem opSpec_mono {α : Type} {n m : Nat} {s : State} {r : Res α} (h : OpSpec n s r) (hnm : n ≤ m) :
    OpSpec m s r :=
  ⟨h.quiet.elim fun es he => ⟨es, he.mono hnm⟩, h.done, h.halted, h.ready⟩

theorem Quiet.ready {n : Nat} {s t : State} {es : List Event} (h : Quiet n s t es) (hr : Ready s) : Ready t :=
  ⟨by rw [h.frame]; exact hr.1, h.idle hr.2⟩

theorem opSpec_andThen {α β : Type} {n m : Nat} {s : State} {r : Res α} {k : α → State → Res β} (h1 : OpSpec n s r)
    (h2 : ∀ a t, r = .done a t → t.cfg = s.cfg → OpSpec m t (k a t)) : OpSpec (n + m) s (andThen r k) := by
  obtain ⟨es, he⟩ := h1.quiet
  cases r with
  | done a t =>
    obtain ⟨fs, hf⟩ := (h2 a t rfl he.cfg).quiet
    refine ⟨⟨es ++ fs, by simpa using he.trans hf⟩, fun b u hu => ?_, fun u hu => (h2 a t rfl he.cfg).halted u hu,
      fun hr => ((h2 a t rfl he.cfg).ready (he.ready hr)).trans (h1.ready hr)⟩
    have h3 := (h2 a t rfl he.cfg).done b u hu
    have h4 := h1.done a t rfl
    exact ⟨h3.1.trans h4.1, h3.2.trans h4.2⟩
  | halted u => 
    exact ⟨⟨es, by simpa using he.mono (Nat.le_add_right _ _)⟩, by rintro b v ⟨⟩, fun t ht => h1.halted t (by simpa using ht),
      h1.ready⟩

/-- The common case: the rest only computes a value. -/
theorem opSpec_map {α β : Type} {n : Nat} {s : State} {r : Res α} {f : α → β} (h : OpSpec n s r) :
    OpSpec n s (andThen r fun a t => .done (f a) t) := by
  simpa using opSpec_andThen h fun a t _ _ => opSpec_pure (f a) t

/-- A completed operation changed only what an observation may change. -/
theorem OpSpec.only {α : Type} {n : Nat} {s t : State} {r : Res α} {a : α} (h : OpSpec n s r) (hr : r = .done a t) :
    OnlyObservation s t ∧ s.trace <+: t.trace := by
  obtain ⟨es, he⟩ := h.quiet
  obtain ⟨hf, hst⟩ := h.done a t hr
  subst hr
  refine ⟨?_, ⟨es, he.trace.symm⟩⟩
  have := he.frame
  simp only [Res.after_done] at this
  rw [hf, hst] at this
  exact this

/-! ## Transactions -/

theorem channelFault_some {s : State} {f : FaultKind} (h : channelFault s = some f) : f ≠ .badConfig ∧ ¬Ready s := by
  unfold channelFault at h
  split at h
  · cases h; exact ⟨by simp, fun hr => ‹s.session ≠ .held› hr.1⟩
  · split at h
    · cases h; exact ⟨by simp, fun hr => ‹s.chan.phase ≠ .idle› hr.2⟩
    · cases h

theorem channelFault_none {s : State} : channelFault s = none ↔ Ready s := by
  unfold channelFault
  by_cases h1 : s.session = .held <;> by_cases h2 : s.chan.phase = .idle <;> simp [h1, h2, Ready]

/-- A call in a ready state (rule R108). -/
theorem chanCall_ready {s : State} (h : Ready s) (p : ChanPhase) (entry : State → State) :
    chanCall p entry s = .done () (setAttempt 0 (setPhase p (entry s))) := by
  simp [chanCall, channelFault_none.2 h]

/-- A call without a session or in a transaction in progress: nothing but the fault (rules R103, R110). -/
theorem chanCall_not_ready {s : State} (h : ¬Ready s) (hf : s.fault = none) (p : ChanPhase) (entry : State → State) :
    chanCall p entry s =
      .halted { s with fault := some (if s.session = .held then .channelBusy else .noSession) } := by
  by_cases hs : s.session = .held
  · have hp : s.chan.phase ≠ .idle := fun hp => h ⟨hs, hp⟩
    simp [chanCall, channelFault, hs, hp, faultRes, raise, hf]
  · simp [chanCall, channelFault, hs, faultRes, raise, hf]

/-- A result is taken in `DONE` (rule R108). -/
theorem chanTake_done {s : State} (h : s.chan.phase = .done) : chanTake s = some (takeResult s) := if_pos h

/-- No result is taken elsewhere (rule R108). -/
theorem chanTake_not_done {s : State} (h : s.chan.phase ≠ .done) : chanTake s = none := if_neg h

theorem beginRead_seg (addr : Byte) (s : State) : Seg s (beginRead addr s) [] := Seg.chan s _

theorem beginWrite_seg (cmd addr value : Byte) (s : State) : Seg s (beginWrite cmd addr value s) [] := Seg.chan s _

/-- `EcRead` in a ready state (rules R104, R105): it completes, whatever the EC answers. -/
theorem ecRead_completes (addr : Byte) {s : State} (hr : Ready s) (hB : 1 ≤ s.cfg.pollBudget) :
    ∃ v ts t es, ecRead addr s = .done (v, !ts.isEmpty) (takeResult t) ∧ Seg s t es ∧ ReadEvents s.cfg addr v ts es ∧
      ∃ n ≤ s.cfg.pollBudget,
        t.chan = { s.chan with phase := .done, kind := .read, addr := addr, attempt := n,
                               timedOut := !ts.isEmpty, result := some (.byte v), timeouts := ts } := by
  obtain ⟨es, ts, hseg, hev, n, hn, hc⟩ := readSequence_spec (beginRead addr s) hB
  refine ⟨(readSequence (beginRead addr s)).1, ts, (readSequence (beginRead addr s)).2, es, ?_, ?_, hev, n, hn, ?_⟩
  · have hb : (readSequence (beginRead addr s)).2.chan.timedOut = !ts.isEmpty := by rw [hc]; simp [beginRead]
    simp [ecRead, channelFault_none.2 hr, hb]
  · simpa using (beginRead_seg addr s).trans hseg
  · rw [hc]; simp [beginRead]

/-- `EcWrite` in a ready state (rule R106): it completes, whatever the EC answers. -/
theorem ecWrite_completes (cmd addr value : Byte) {s : State} (hr : Ready s) (hB : 1 ≤ s.cfg.pollBudget) :
    ∃ r t es, ecWrite cmd addr value s = .done r (takeResult t) ∧ Seg s t es ∧
      WriteEvents s.cfg cmd addr value r es ∧
      ∃ n ≤ s.cfg.pollBudget,
        (r = .ok () ∧
          t.chan = ⟨.done, .write, cmd, addr, value, n, false, some .unit, []⟩) ∨
        ∃ k, 1 ≤ k ∧ k ≤ 4 ∧ r = .error (.timeoutError k) ∧
          t.chan = ⟨.done, .write, cmd, addr, value, n, true, some (.timeout k), [.timeoutError k]⟩ := by
  obtain ⟨es, hseg, hev, n, hn, hc⟩ := writeSequence_spec (beginWrite cmd addr value s) hB
  refine ⟨(writeSequence (beginWrite cmd addr value s)).1, (writeSequence (beginWrite cmd addr value s)).2, es, ?_, ?_,
    hev, n, hn, ?_⟩
  · simp [ecWrite, channelFault_none.2 hr]
  · simpa using (beginWrite_seg cmd addr value s).trans hseg
  · rcases hc with ⟨h1, h2⟩ | ⟨k, h1, h2, h3, h4⟩
    · exact .inl ⟨h1, by rw [h2]; rfl⟩
    · exact .inr ⟨k, h1, h2, h3, by rw [h4]; rfl⟩

theorem ecRead_opSpec (addr : Byte) (s : State) (hB : 1 ≤ s.cfg.pollBudget) : OpSpec 3 s (ecRead addr s) := by
  cases hcf : channelFault s with
  | some f => rw [ecRead, hcf]; exact opSpec_mono (opSpec_fault (channelFault_some hcf).1 s (channelFault_some hcf).2) (by omega)
  | none =>
    obtain ⟨v, b, t, es, h, hseg, hev, n, hn, hc⟩ := ecRead_completes addr (channelFault_none.1 hcf) hB
    have ho := (onlyChannel_iff _ _).1 hseg.only
    rw [h]
    exact opSpec_done _ (quiet_of_seg hseg hev.spec.1 hev.handshake (by rw [hc]; exact hn)) ho.2.2.2.2.2.2.2.2.2.1
      ho.2.2.2.2.2.2.2.2.2.2.2.1

theorem ecWrite_opSpec (cmd addr value : Byte) (s : State) (hB : 1 ≤ s.cfg.pollBudget) :
    OpSpec 4 s (ecWrite cmd addr value s) := by
  cases hcf : channelFault s with
  | some f => rw [ecWrite, hcf]; exact opSpec_mono (opSpec_fault (channelFault_some hcf).1 s (channelFault_some hcf).2) (by omega)
  | none =>
    obtain ⟨r, t, es, h, hseg, hev, n, hn, hc⟩ := ecWrite_completes cmd addr value (channelFault_none.1 hcf) hB
    have ho := (onlyChannel_iff _ _).1 hseg.only
    rw [h]
    refine opSpec_done _ (quiet_of_seg hseg hev.spec.1 hev.handshake ?_) ho.2.2.2.2.2.2.2.2.2.1 ho.2.2.2.2.2.2.2.2.2.2.2.1
    rcases hc with ⟨-, hc⟩ | ⟨k, -, -, -, hc⟩ <;> rw [hc] <;> exact hn

/-! ## Register map -/

theorem readByte_opSpec (addr : Byte) (s : State) (hB : 1 ≤ s.cfg.pollBudget) : OpSpec 3 s (readByte addr s) :=
  opSpec_map (ecRead_opSpec addr s hB)

theorem cpuTempRead_opSpec (s : State) (hB : 1 ≤ s.cfg.pollBudget) : OpSpec 3 s (cpuTempRead s) :=
  opSpec_map (readByte_opSpec _ s hB)

theorem gpuTempEcRead_opSpec (s : State) (hB : 1 ≤ s.cfg.pollBudget) : OpSpec 3 s (gpuTempEcRead s) :=
  opSpec_map (readByte_opSpec _ s hB)

theorem fanDutyRead_opSpec (ch : Channel) (s : State) (hB : 1 ≤ s.cfg.pollBudget) :
    OpSpec 3 s (fanDutyRead ch s) :=
  opSpec_map (readByte_opSpec _ s hB)

theorem fanRpmRead_opSpec (ch : Channel) (s : State) (hB : 1 ≤ s.cfg.pollBudget) : OpSpec 6 s (fanRpmRead ch s) :=
  opSpec_andThen (readByte_opSpec _ s hB) fun _ t _ hc => opSpec_map (readByte_opSpec _ t (hc ▸ hB))

theorem fanDutyWrite_opSpec (ch : Channel) (p : Int) (s : State) (hB : 1 ≤ s.cfg.pollBudget) :
    OpSpec 4 s (fanDutyWrite ch p s) :=
  ecWrite_opSpec _ _ _ s hB

/-! ## Sensors -/

theorem drawEntries_env (e : Env) :
    (drawEntries e).2.ec = e.ec ∧ (drawEntries e).2 = { (drawEntries e).2 with grants := e.grants, stops := e.stops } := by
  unfold drawEntries; split <;> exact ⟨rfl, rfl⟩

theorem drawName_env (e : Env) :
    (drawName e).2.ec = e.ec ∧ (drawName e).2 = { (drawName e).2 with grants := e.grants, stops := e.stops } := by
  unfold drawName; split <;> exact ⟨rfl, rfl⟩

theorem drawTemp_env (e : Env) :
    (drawTemp e).2.ec = e.ec ∧ (drawTemp e).2 = { (drawTemp e).2 with grants := e.grants, stops := e.stops } := by
  unfold drawTemp; split <;> exact ⟨rfl, rfl⟩

theorem drawFileTest_env (e : Env) :
    (drawFileTest e).2.ec = e.ec ∧ (drawFileTest e).2 = { (drawFileTest e).2 with grants := e.grants, stops := e.stops } := by
  unfold drawFileTest; split <;> exact ⟨rfl, rfl⟩

theorem drawToolRun_env (e : Env) :
    (drawToolRun e).2.ec = e.ec ∧ (drawToolRun e).2 = { (drawToolRun e).2 with grants := e.grants, stops := e.stops } := by
  unfold drawToolRun; split <;> exact ⟨rfl, rfl⟩

theorem drawStop_ec (e : Env) : (drawStop e).2.ec = e.ec := by unfold drawStop; split <;> rfl

theorem drawGrant_ec (e : Env) : (drawGrant e).2.ec = e.ec := by unfold drawGrant; split <;> rfl

theorem sysfsList_quiet (s : State) : Quiet 0 s (sysfsList s).2 [.sysfsList (sysfsList s).1] :=
  quiet_event s _ _ rfl (by rw [(drawEntries_env _).1]; exact id) (drawEntries_env _).2

theorem sysfsName_quiet (e : Nat) (s : State) : Quiet 0 s (sysfsName e s).2 [.sysfsName e (sysfsName e s).1] :=
  quiet_event s _ _ rfl (by rw [(drawName_env _).1]; exact id) (drawName_env _).2

theorem sysfsTemp_quiet (e k : Nat) (s : State) :
    Quiet 0 s (sysfsTemp e k s).2 [.sysfsTemp e k (sysfsTemp e k s).1] :=
  quiet_event s _ _ rfl (by rw [(drawTemp_env _).1]; exact id) (drawTemp_env _).2

theorem toolExists_quiet (s : State) :
    Quiet 0 s (toolExists s).2 [.fileExists s.cfg.toolPath (toolExists s).1] :=
  quiet_event s _ _ rfl (by rw [(drawFileTest_env _).1]; exact id) (drawFileTest_env _).2

theorem hotter_none (b : Option Int) : hotter b none = b := by cases b <;> rfl

/-- The hottest of a best value and the values after it (rule R173). -/
def hottest (best : Option Int) (vs : List Int) : Option Int := vs.foldl (fun acc v => hotter acc (some v)) best

theorem hottest_append (best : Option Int) (vs ws : List Int) :
    hottest best (vs ++ ws) = hottest (hottest best vs) ws := by simp [hottest]

theorem sysfsValues_temp (e k : Nat) (txt : Option Text) (es : List Event) (best : Option Int) :
    hottest best (sysfsValues (.sysfsTemp e k txt :: es)) = hottest (hotter best (sysfsValue txt)) (sysfsValues es) := by
  cases h : sysfsValue txt <;> simp [sysfsValues, hottest, h, hotter_none]

/-- What the steps of a scan leave alone (rule R173). -/
structure ScanFrame (s t : State) (es : List Event) : Prop where
  quiet : Quiet 0 s t es
  fault : t.fault = s.fault
  stuck : t.stuckInTool = s.stuckInTool
  chan : t.chan = s.chan
  tools : t.env.toolRuns = s.env.toolRuns

theorem ScanFrame.refl (s : State) : ScanFrame s s [] := ⟨Quiet.refl s, rfl, rfl, rfl, rfl⟩

theorem ScanFrame.trans {s t u : State} {es fs : List Event} (h1 : ScanFrame s t es) (h2 : ScanFrame t u fs) :
    ScanFrame s u (es ++ fs) :=
  ⟨by simpa using h1.quiet.trans h2.quiet, h2.fault.trans h1.fault, h2.stuck.trans h1.stuck, h2.chan.trans h1.chan,
    h2.tools.trans h1.tools⟩

theorem drawEntries_tools (e : Env) : (drawEntries e).2.toolRuns = e.toolRuns := by unfold drawEntries; split <;> rfl

theorem drawName_tools (e : Env) : (drawName e).2.toolRuns = e.toolRuns := by unfold drawName; split <;> rfl

theorem drawTemp_tools (e : Env) : (drawTemp e).2.toolRuns = e.toolRuns := by unfold drawTemp; split <;> rfl

theorem drawFileTest_tools (e : Env) : (drawFileTest e).2.toolRuns = e.toolRuns := by
  unfold drawFileTest; split <;> rfl

theorem sysfsList_frame (s : State) : ScanFrame s (sysfsList s).2 [.sysfsList (sysfsList s).1] :=
  ⟨sysfsList_quiet s, rfl, rfl, rfl, drawEntries_tools _⟩

theorem sysfsName_frame (e : Nat) (s : State) : ScanFrame s (sysfsName e s).2 [.sysfsName e (sysfsName e s).1] :=
  ⟨sysfsName_quiet e s, rfl, rfl, rfl, drawName_tools _⟩

theorem sysfsTemp_frame (e k : Nat) (s : State) :
    ScanFrame s (sysfsTemp e k s).2 [.sysfsTemp e k (sysfsTemp e k s).1] :=
  ⟨sysfsTemp_quiet e k s, rfl, rfl, rfl, drawTemp_tools _⟩

theorem toolExists_frame (s : State) :
    ScanFrame s (toolExists s).2 [.fileExists s.cfg.toolPath (toolExists s).1] :=
  ⟨toolExists_quiet s, rfl, rfl, rfl, drawFileTest_tools _⟩

theorem scanInputs_spec (e k n : Nat) (best : Option Int) (s : State) :
    ∃ temps : List (Option Text), temps.length = n ∧
      ScanFrame s (scanInputs e k n best s).2 (temps.mapIdx fun j txt => .sysfsTemp e (k + j) txt) ∧
      (scanInputs e k n best s).1 =
        hottest best (sysfsValues (temps.mapIdx fun j txt => .sysfsTemp e (k + j) txt)) := by
  induction n generalizing k best s with
  | zero => exact ⟨[], rfl, ScanFrame.refl s, rfl⟩
  | succ m ih =>
    obtain ⟨temps, hl, hf, hb⟩ := ih (k + 1) (hotter best (sysfsValue (sysfsTemp e k s).1)) (sysfsTemp e k s).2
    have hidx : ((sysfsTemp e k s).1 :: temps).mapIdx (fun j txt => Event.sysfsTemp e (k + j) txt) =
        .sysfsTemp e k (sysfsTemp e k s).1 :: temps.mapIdx fun j txt => .sysfsTemp e (k + 1 + j) txt := by
      simp [List.mapIdx_cons, Nat.add_assoc, Nat.add_comm 1]
    refine ⟨(sysfsTemp e k s).1 :: temps, by simp [hl], ?_, ?_⟩
    · rw [hidx]; exact (sysfsTemp_frame e k s).trans hf
    · rw [hidx, sysfsValues_temp]; exact hb

theorem scanEntries_spec (l : List Nat) (best : Option Int) (s : State) :
    ∃ es, ScanEvents s.cfg l es ∧ ScanFrame s (scanEntries l best s).2 es ∧
      (scanEntries l best s).1 = hottest best (sysfsValues es) := by
  induction l generalizing best s with
  | nil => exact ⟨[], .nil, ScanFrame.refl s, rfl⟩
  | cons e rest ih =>
    have hn := sysfsName_frame e s
    have hskip : ∀ name, (sysfsName e s).1 = name → name.any (allowListed s.cfg) = false →
        ∃ es, ScanEvents s.cfg (e :: rest) es ∧ ScanFrame s (scanEntries rest best (sysfsName e s).2).2 es ∧
          (scanEntries rest best (sysfsName e s).2).1 = hottest best (sysfsValues es) := by
      intro name hname hno
      obtain ⟨es, hev, hf, hb⟩ := ih best (sysfsName e s).2
      refine ⟨entryEvents e name [] ++ es, .cons e name [] rest es (by simp [hno]) hev, ?_, ?_⟩
      · rw [hname] at hn; exact hn.trans hf
      · rw [hb]; simp [entryEvents, sysfsValues]
    unfold scanEntries
    simp only
    split
    · exact hskip none ‹_› rfl
    · rename_i n hname
      split
      · rename_i hal
        obtain ⟨temps, hl, hf, hb⟩ := scanInputs_spec e 1 (sysfsName e s).2.cfg.sysfsMaxInputs best (sysfsName e s).2
        set r := scanInputs e 1 (sysfsName e s).2.cfg.sysfsMaxInputs best (sysfsName e s).2 with hr
        have hcfg : r.2.cfg = s.cfg := hf.quiet.cfg
        obtain ⟨es, hev, hf', hb'⟩ := ih r.1 r.2
        rw [hcfg] at hev
        have hev1 : entryEvents e (some n) temps =
            [.sysfsName e (some n)] ++ temps.mapIdx fun j txt => .sysfsTemp e (1 + j) txt := by
          simp [entryEvents, Nat.add_comm 1]
        refine ⟨entryEvents e (some n) temps ++ es, .cons e (some n) temps rest es ?_ hev, ?_, ?_⟩
        · have hal' : allowListed s.cfg n = true := hal
          rw [hl]; simp [hal']; rfl
        · rw [hname] at hn; rw [hev1]; exact (hn.trans hf).trans hf'
        · rw [hb', hb, hev1, sysfsValues_append, sysfsValues_append, hottest_append]
          simp [sysfsValues]
      · rename_i hal
        exact hskip (some n) hname (Bool.eq_false_iff.2 hal)

/-- Stage 1 (rules R173, R178): its events, and its value the hottest of the usable values read. -/
theorem sysfsStage_spec (s : State) :
    ∃ es, ScanEvents s.cfg (sysfsList s).1 es ∧
      ScanFrame s (sysfsStage s).2 (.sysfsList (sysfsList s).1 :: es) ∧
      (sysfsStage s).1 = stageResult 1 (hottest none (sysfsValues es)) := by
  obtain ⟨es, hev, hf, hb⟩ := scanEntries_spec (sysfsList s).1 none (sysfsList s).2
  exact ⟨es, hev, (sysfsList_frame s).trans hf, by simp [sysfsStage, hb]⟩

theorem runTool_opSpec (s : State) : OpSpec 0 s (runTool s) := by
  have hq := quiet_event s (.runTool s.cfg.toolPath (drawToolRun s.env).1) (drawToolRun s.env).2 rfl
    (by rw [(drawToolRun_env _).1]; exact id) (drawToolRun_env _).2
  unfold runTool
  simp only
  split
  · exact opSpec_done _ hq rfl rfl
  · exact opSpec_done _ hq rfl rfl
  · exact ⟨⟨_, ⟨hq.trace, rfl, hq.env, id, id, id, hq.cells, hq.handshake, hq.status, hq.sticky, hq.admitted⟩⟩,
      by rintro b u ⟨⟩, by rintro u ⟨⟩; right; rfl, fun _ => rfl⟩

theorem vendorStage_opSpec (s : State) : OpSpec 0 s (vendorStage s) := by
  unfold vendorStage
  simp only
  split
  · have h := runTool_opSpec (toolExists s).2
    have hx := opSpec_done (α := Unit) () (toolExists_quiet s) rfl rfl
    simpa using opSpec_andThen (k := fun _ t => andThen (runTool t) fun out t =>
      .done (stageResult 2 (out.bind (vendorValue s.cfg))) t) hx fun _ t ht _ => by
        cases ht; exact opSpec_map h
  · exact opSpec_done _ (toolExists_quiet s) rfl rfl

/-! ## Temperature multiplexer -/

theorem resolveCpu_opSpec (s : State) (hB : 1 ≤ s.cfg.pollBudget) : OpSpec 3 s (resolveCpu s) :=
  opSpec_map (cpuTempRead_opSpec s hB)

theorem ecStage_opSpec (s : State) (hB : 1 ≤ s.cfg.pollBudget) : OpSpec 3 s (ecStage s) :=
  opSpec_map (gpuTempEcRead_opSpec s hB)

theorem afterVendor_opSpec (r : Except ErrorKind Int) (s : State) (hB : 1 ≤ s.cfg.pollBudget) :
    OpSpec 3 s (afterVendor r s) := by
  cases r with
  | ok v => exact opSpec_mono (opSpec_pure _ s) (by omega)
  | error e => exact ecStage_opSpec s hB

theorem afterSysfs_opSpec (r : Except ErrorKind Int) (s : State) (hB : 1 ≤ s.cfg.pollBudget) :
    OpSpec 3 s (afterSysfs r s) := by
  cases r with
  | ok v => exact opSpec_mono (opSpec_pure _ s) (by omega)
  | error e =>
    exact opSpec_mono (opSpec_andThen (vendorStage_opSpec s) fun r2 t _ hc => afterVendor_opSpec r2 t (hc ▸ hB))
      (by omega)

theorem resolveGpu_opSpec (s : State) (hB : 1 ≤ s.cfg.pollBudget) : OpSpec 3 s (resolveGpu s) := by
  obtain ⟨es, -, hf, -⟩ := sysfsStage_spec s
  have h := opSpec_andThen (k := fun _ t => afterSysfs (sysfsStage s).1 t)
    (opSpec_done (α := Unit) () hf.quiet hf.fault hf.stuck)
    fun _ t _ hc => afterSysfs_opSpec _ t (hc ▸ hB)
  exact opSpec_mono h (by omega)

/-! ## Report -/

theorem fanReport_opSpec (ch : Channel) (s : State) (hB : 1 ≤ s.cfg.pollBudget) : OpSpec 9 s (fanReport ch s) :=
  opSpec_andThen (fanDutyRead_opSpec ch s hB) fun _ t _ hc => opSpec_map (fanRpmRead_opSpec ch t (hc ▸ hB))

theorem emit_opSpec (e : Event) (s : State) (hp : isPortEvent e = false) :
    OpSpec 0 s (.done () (emit e s) : Res Unit) :=
  opSpec_done _ (quiet_event s e s.env hp id rfl) rfl rfl

theorem reportWith_opSpec (cpu gpu : Reading) (s : State) (hB : 1 ≤ s.cfg.pollBudget) :
    OpSpec 18 s (reportWith cpu gpu s) :=
  opSpec_andThen (fanReport_opSpec .one s hB) fun _ t _ hc =>
    opSpec_andThen (m := 0) (fanReport_opSpec .two t (hc ▸ hB)) fun _ u _ _ => emit_opSpec _ u rfl

theorem reportAlone_opSpec (s : State) (hB : 1 ≤ s.cfg.pollBudget) : OpSpec 24 s (reportAlone s) :=
  opSpec_andThen (m := 21) (resolveCpu_opSpec s hB) fun _ t _ hc =>
    opSpec_andThen (m := 18) (resolveGpu_opSpec t (hc ▸ hB)) fun _ u _ hc' =>
      reportWith_opSpec _ _ u (by rw [hc', hc]; exact hB)

/-! ## Writes -/

theorem writeBoth_opSpec (d : Int) (s : State) (hB : 1 ≤ s.cfg.pollBudget) : OpSpec 8 s (writeBoth d s) :=
  opSpec_andThen (fanDutyWrite_opSpec .one d s hB) fun _ t _ hc =>
    opSpec_map (f := fun r2 => (_, r2)) (fanDutyWrite_opSpec .two d t (hc ▸ hB))

theorem writeForSet_opSpec (p : Int) (s : State) (hB : 1 ≤ s.cfg.pollBudget) : OpSpec 8 s (writeForSet p s) :=
  opSpec_map (writeBoth_opSpec p s hB)

theorem writeForOne_opSpec (ch : Channel) (p : Int) (s : State) (hB : 1 ≤ s.cfg.pollBudget) :
    OpSpec 4 s (writeForOne ch p s) :=
  opSpec_map (fanDutyWrite_opSpec ch p s hB)

theorem dumpCommand_opSpec (s : State) (hB : 1 ≤ s.cfg.pollBudget) : OpSpec 24 s (dumpCommand s) :=
  opSpec_map (f := fun _ => (Except.ok () : Except ErrorKind Unit)) (reportAlone_opSpec s hB)

end Sys2Proof.Machine
end

