-- ==== Sys2Proof/Laws/Completion.lean ====
section
/-! SUPPORT. How the operations complete in a ready state: the value, the events and the state each ends in. -/

namespace Sys2Proof.Machine

/-! ## Operations on the EC channel alone -/

/-- An operation that completed by EC transactions alone, with the events `es`. -/
structure ChannelRun {α : Type} (s : State) (r : Res α) (a : α) (t : State) (es : List Event) : Prop where
  eq : r = .done a t
  seg : Seg s t es
  left : ChannelLeft t
  attempts : t.chan.attempt ≤ s.cfg.pollBudget

theorem ChannelRun.cfg {α : Type} {s t : State} {r : Res α} {a : α} {es : List Event} (h : ChannelRun s r a t es) :
    t.cfg = s.cfg := h.seg.cfg

theorem ChannelRun.session {α : Type} {s t : State} {r : Res α} {a : α} {es : List Event}
    (h : ChannelRun s r a t es) : t.session = s.session := ((onlyChannel_iff _ _).1 h.seg.only).2.1

theorem ChannelRun.ready {α : Type} {s t : State} {r : Res α} {a : α} {es : List Event} (h : ChannelRun s r a t es)
    (hr : Ready s) : Ready t := ⟨h.session.trans hr.1, h.left.1⟩

theorem ChannelRun.andThen {α β : Type} {s t u : State} {r : Res α} {a : α} {es fs : List Event}
    {k : α → State → Res β} {b : β} (h1 : ChannelRun s r a t es) (h2 : ChannelRun t (k a t) b u fs) :
    ChannelRun s (andThen r k) b u (es ++ fs) :=
  ⟨by rw [h1.eq, andThen_done, h2.eq], h1.seg.trans h2.seg, h2.left, by rw [← h1.cfg]; exact h2.attempts⟩

theorem ChannelRun.map {α β : Type} {s t : State} {r : Res α} {a : α} {es : List Event} (f : α → β)
    (h : ChannelRun s r a t es) : ChannelRun s (Machine.andThen r fun a t => .done (f a) t) (f a) t es :=
  ⟨by rw [h.eq, andThen_done], h.seg, h.left, h.attempts⟩

theorem takeResult_seg {s t : State} {es : List Event} (h : Seg s t es) : Seg s (takeResult t) es := h.withChan _

theorem ecRead_run (addr : Byte) {s : State} (hr : Ready s) (hB : 1 ≤ s.cfg.pollBudget) :
    ∃ v ts t es, ChannelRun s (ecRead addr s) (v, !ts.isEmpty) t es ∧ ReadEvents s.cfg addr v ts es := by
  obtain ⟨v, ts, t, es, h, hseg, hev, n, hn, hc⟩ := ecRead_completes addr hr hB
  exact ⟨v, ts, takeResult t, es, ⟨h, takeResult_seg hseg, ⟨rfl, rfl⟩, by rw [takeResult_chan, hc]; exact hn⟩, hev⟩

theorem ecWrite_run (cmd addr value : Byte) {s : State} (hr : Ready s) (hB : 1 ≤ s.cfg.pollBudget) :
    ∃ r t es, ChannelRun s (ecWrite cmd addr value s) r t es ∧ WriteEvents s.cfg cmd addr value r es := by
  obtain ⟨r, t, es, h, hseg, hev, n, hn, hc⟩ := ecWrite_completes cmd addr value hr hB
  refine ⟨r, takeResult t, es, ⟨h, takeResult_seg hseg, ⟨rfl, rfl⟩, ?_⟩, hev⟩
  rcases hc with ⟨-, hc⟩ | ⟨k, -, -, -, hc⟩ <;> rw [takeResult_chan, hc] <;> exact hn

theorem readByte_run (addr : Byte) {s : State} (hr : Ready s) (hB : 1 ≤ s.cfg.pollBudget) :
    ∃ v b t es, ChannelRun s (readByte addr s) v t es ∧ ReadEvents s.cfg addr v b es := by
  obtain ⟨v, b, t, es, h, hev⟩ := ecRead_run addr hr hB
  exact ⟨v, b, t, es, h.map Prod.fst, hev⟩

theorem cpuTempRead_run {s : State} (hr : Ready s) (hB : 1 ≤ s.cfg.pollBudget) :
    ∃ (v : Byte) (b : List ErrorKind) (t : State) (es : List Event), ChannelRun s (cpuTempRead s) (v.toNat : Int) t es ∧
      ReadEvents s.cfg s.cfg.regCpuTemp v b es := by
  obtain ⟨v, b, t, es, h, hev⟩ := readByte_run s.cfg.regCpuTemp hr hB
  exact ⟨v, b, t, es, h.map (fun b : Byte => (b.toNat : Int)), hev⟩

theorem gpuTempEcRead_run {s : State} (hr : Ready s) (hB : 1 ≤ s.cfg.pollBudget) :
    ∃ (v : Byte) (b : List ErrorKind) (t : State) (es : List Event), ChannelRun s (gpuTempEcRead s) (v.toNat : Int) t es ∧
      ReadEvents s.cfg s.cfg.regGpuTemp v b es := by
  obtain ⟨v, b, t, es, h, hev⟩ := readByte_run s.cfg.regGpuTemp hr hB
  exact ⟨v, b, t, es, h.map (fun b : Byte => (b.toNat : Int)), hev⟩

theorem fanDutyRead_run (ch : Channel) {s : State} (hr : Ready s) (hB : 1 ≤ s.cfg.pollBudget) :
    ∃ v b t es, ChannelRun s (fanDutyRead ch s) (dutyFromRaw s.cfg v) t es ∧
      ReadEvents s.cfg (forChannel s.cfg.regDuty ch) v b es := by
  obtain ⟨v, b, t, es, h, hev⟩ := readByte_run (forChannel s.cfg.regDuty ch) hr hB
  exact ⟨v, b, t, es, h.map _, hev⟩

theorem fanRpmRead_run (ch : Channel) {s : State} (hr : Ready s) (hB : 1 ≤ s.cfg.pollBudget) :
    ∃ (hi lo : Byte) (b1 b2 : List ErrorKind) (t : State) (e1 e2 : List Event),
      ChannelRun s (fanRpmRead ch s) ((hi ++ lo : BitVec 16), rpmFromRaw s.cfg.rpmK (hi ++ lo)) t (e1 ++ e2) ∧
        ReadEvents s.cfg (forChannel s.cfg.regRpmHi ch) hi b1 e1 ∧
        ReadEvents s.cfg (forChannel s.cfg.regRpmLo ch) lo b2 e2 := by
  obtain ⟨hi, b1, t, e1, h1, hev1⟩ := readByte_run (forChannel s.cfg.regRpmHi ch) hr hB
  obtain ⟨lo, b2, u, e2, h2, hev2⟩ :=
    readByte_run (forChannel s.cfg.regRpmLo ch) (h1.ready hr) (by rw [h1.cfg]; exact hB)
  rw [h1.cfg] at hev2
  exact ⟨hi, lo, b1, b2, u, e1, e2, h1.andThen (h2.map _), hev1, hev2⟩

theorem fanDutyWrite_run (ch : Channel) (p : Int) {s : State} (hr : Ready s) (hB : 1 ≤ s.cfg.pollBudget) :
    ∃ r t es, ChannelRun s (fanDutyWrite ch p s) r t es ∧ DutyWriteEvents s.cfg ch p r es := by
  obtain ⟨r, t, es, h, hev⟩ := ecWrite_run s.cfg.cmdSetDuty (forChannel s.cfg.subAddr ch)
    (rawFromDuty s.cfg (clamp p 0 100)) hr hB
  exact ⟨r, t, es, h, _, by rw [← clamp_percent]; exact rawFromDuty_isRawOf _ (clamp_percent_bounds p).1, hev⟩

theorem writeBoth_run (p : Int) {s : State} (hr : Ready s) (hB : 1 ≤ s.cfg.pollBudget) :
    ∃ r1 r2 t e1 e2, ChannelRun s (writeBoth p s) (r1, r2) t (e1 ++ e2) ∧ DutyWriteEvents s.cfg .one p r1 e1 ∧
      DutyWriteEvents s.cfg .two p r2 e2 := by
  obtain ⟨r1, t, e1, h1, hev1⟩ := fanDutyWrite_run .one p hr hB
  obtain ⟨r2, u, e2, h2, hev2⟩ := fanDutyWrite_run .two p (h1.ready hr) (by rw [h1.cfg]; exact hB)
  rw [h1.cfg] at hev2
  exact ⟨r1, r2, u, e1, e2, h1.andThen (h2.map _), hev1, hev2⟩

theorem fanReport_run (ch : Channel) {s : State} (hr : Ready s) (hB : 1 ≤ s.cfg.pollBudget) :
    ∃ f t es, ChannelRun s (fanReport ch s) f t es ∧ FanEvents s.cfg ch f es := by
  obtain ⟨raw, b1, t, e1, h1, hev1⟩ := fanDutyRead_run ch hr hB
  obtain ⟨hi, lo, b2, b3, u, e2, e3, h2, hev2, hev3⟩ := fanRpmRead_run ch (h1.ready hr) (by rw [h1.cfg]; exact hB)
  rw [h1.cfg] at hev2 hev3 h2
  refine ⟨⟨dutyFromRaw s.cfg raw, hi ++ lo, rpmFromRaw s.cfg.rpmK (hi ++ lo)⟩, u, e1 ++ (e2 ++ e3),
    h1.andThen (h2.map _), raw, hi, lo, b1, b2, b3, e1, e2, e3, hev1, hev2, hev3, by rw [List.append_assoc],
    dutyFromRaw_isDutyOf _ _, counter_toNat hi lo, ?_⟩
  exact rpmFromRaw_eq s.cfg _

theorem reportWith_run (cpu gpu : Reading) {s : State} (hr : Ready s) (hB : 1 ≤ s.cfg.pollBudget) :
    ∃ t es, ChannelRun s (reportWith cpu gpu s) () t es ∧ ReportEvents s.cfg cpu gpu s.ctl es := by
  obtain ⟨f1, t, e1, h1, hev1⟩ := fanReport_run .one hr hB
  obtain ⟨f2, u, e2, h2, hev2⟩ := fanReport_run .two (h1.ready hr) (by rw [h1.cfg]; exact hB)
  rw [h1.cfg] at hev2
  have h12 := h1.seg.trans h2.seg
  have hctl : u.ctl = s.ctl := ((onlyChannel_iff _ _).1 h12.only).2.2.2.1
  have h3 : ChannelRun u (.done () (emit (.report ⟨cpu, gpu, u.ctl, f1, f2⟩) u) : Res Unit) () _
      [.report ⟨cpu, gpu, u.ctl, f1, f2⟩] := ⟨rfl, ⟨rfl, rfl, id⟩, h2.left, by rw [h2.cfg]; exact h2.attempts⟩
  exact ⟨_, _, h1.andThen (h2.andThen h3), f1, f2, e1, e2, hev1, hev2, by rw [hctl, List.append_assoc]⟩

theorem resolveCpu_run {s : State} (hr : Ready s) (hB : 1 ≤ s.cfg.pollBudget) :
    ∃ r t es, ChannelRun s (resolveCpu s) r t es ∧ CpuEvents s.cfg r es := by
  obtain ⟨v, b, t, es, h, hev⟩ := cpuTempRead_run hr hB
  exact ⟨_, t, es, h.map _, v, b, hev, rfl⟩

/-- An operation that wrote only the channel leaves the tool's answers alone. -/
theorem Seg.tools {s t : State} {es : List Event} (h : Seg s t es) : t.env.toolRuns = s.env.toolRuns := by
  rw [((onlyChannel_iff _ _).1 h.only).2.2.2.2.2.2.2.2.2.2.2.2.2]

/-! ## Operations that also read the sensors -/

/-- An operation that completed by EC transactions and sensor reads, with the events `es`. -/
structure SensorRun {α : Type} (s : State) (r : Res α) (a : α) (t : State) (es : List Event) : Prop where
  eq : r = .done a t
  trace : t.trace = s.trace ++ es
  only : OnlyObservation s t
  idle : s.chan.phase = .idle → t.chan.phase = .idle
  env : t.env = { t.env with grants := s.env.grants, stops := s.env.stops }

theorem ChannelRun.sensor {α : Type} {s t : State} {r : Res α} {a : α} {es : List Event}
    (h : ChannelRun s r a t es) : SensorRun s r a t es :=
  ⟨h.eq, h.seg.trace, onlyChannel_observation h.seg.only, fun _ => h.left.1, by
    rw [((onlyChannel_iff _ _).1 h.seg.only).2.2.2.2.2.2.2.2.2.2.2.2.2]⟩

theorem SensorRun.cfg {α : Type} {s t : State} {r : Res α} {a : α} {es : List Event} (h : SensorRun s r a t es) :
    t.cfg = s.cfg := onlyObservation_cfg h.only

theorem SensorRun.ready {α : Type} {s t : State} {r : Res α} {a : α} {es : List Event} (h : SensorRun s r a t es)
    (hr : Ready s) : Ready t := ⟨((onlyObservation_iff _ _).1 h.only).2.1.trans hr.1, h.idle hr.2⟩

theorem SensorRun.andThen {α β : Type} {s t u : State} {r : Res α} {a : α} {es fs : List Event}
    {k : α → State → Res β} {b : β} (h1 : SensorRun s r a t es) (h2 : SensorRun t (k a t) b u fs) :
    SensorRun s (andThen r k) b u (es ++ fs) :=
  ⟨by rw [h1.eq, andThen_done, h2.eq], by rw [h2.trace, h1.trace, List.append_assoc],
    onlyObservation_trans h1.only h2.only, fun h => h2.idle (h1.idle h), by rw [h2.env, h1.env]⟩

theorem SensorRun.map {α β : Type} {s t : State} {r : Res α} {a : α} {es : List Event} (f : α → β)
    (h : SensorRun s r a t es) : SensorRun s (Machine.andThen r fun a t => .done (f a) t) (f a) t es :=
  ⟨by rw [h.eq, andThen_done], h.trace, h.only, h.idle, h.env⟩

theorem ScanFrame.run {α : Type} {s t : State} {es : List Event} (h : ScanFrame s t es) (a : α) :
    SensorRun s (.done a t) a t es := by
  refine ⟨rfl, h.quiet.trace, ?_, h.quiet.idle, h.quiet.env⟩
  have hf := h.quiet.frame
  rw [h.fault, h.stuck] at hf
  exact hf

/-- The hottest of some values is their greatest. -/
theorem hottest_some (b : Int) (vs : List Int) : ∃ v, hottest (some b) vs = some v ∧ IsGreatestOf v (b :: vs) := by
  induction vs generalizing b with
  | nil => exact ⟨b, rfl, by simp [IsGreatestOf]⟩
  | cons x rest ih =>
    obtain ⟨v, hv, hmem, hle⟩ := ih (max b x)
    refine ⟨v, hv, ?_, fun y hy => ?_⟩
    · rcases List.mem_cons.1 hmem with h | h
      · rcases max_choice b x with hm | hm <;> rw [h, hm] <;> simp
      · simp [h]
    · have h0 := hle (max b x) (by simp)
      rcases List.mem_cons.1 hy with rfl | hy
      · exact (le_max_left _ _).trans h0
      · rcases List.mem_cons.1 hy with rfl | hy
        · exact (le_max_right _ _).trans h0
        · exact hle y (by simp [hy])

theorem hottest_none (vs : List Int) :
    (hottest none vs = none ∧ vs = []) ∨ ∃ v, hottest none vs = some v ∧ IsGreatestOf v vs := by
  cases vs with
  | nil => exact .inl ⟨rfl, rfl⟩
  | cons x rest => exact .inr (hottest_some x rest)

/-- A tool that never returns was called: the block stopped there (rule R285). -/
structure ToolHang (s t : State) (run : List Event) : Prop where
  trace : t.trace = s.trace ++ run
  only : t = { s with trace := t.trace, env := t.env, stuckInTool := true }
  env : t.env = { t.env with grants := s.env.grants, stops := s.env.stops }
  answer : ¬ToolReturns s
  event : run = [.fileExists s.cfg.toolPath true, .runTool s.cfg.toolPath .neverReturns]

theorem runTool_cases (s : State) :
    (∃ out t a, SensorRun s (runTool s) out t [.runTool s.cfg.toolPath a] ∧ t.chan = s.chan ∧
      ((a = .notRun ∧ out = none) ∨ ∃ txt, a = .output txt ∧ out = some txt)) ∨
      ∃ t, runTool s = .halted t ∧ t.trace = s.trace ++ [.runTool s.cfg.toolPath .neverReturns] ∧
        t = { s with trace := t.trace, env := t.env, stuckInTool := true } ∧
        t.env = { t.env with grants := s.env.grants, stops := s.env.stops } ∧ ¬ToolReturns s := by
  have he := (drawToolRun_env s.env).2
  cases ha : (drawToolRun s.env).1 with
  | output txt =>
    refine .inl ⟨some txt, emit (.runTool s.cfg.toolPath (.output txt)) (withEnv (drawToolRun s.env).2 s), .output txt,
      ⟨by simp [runTool, ha], rfl, rfl, id, he⟩, rfl, .inr ⟨txt, rfl, rfl⟩⟩
  | notRun =>
    refine .inl ⟨none, emit (.runTool s.cfg.toolPath .notRun) (withEnv (drawToolRun s.env).2 s), .notRun,
      ⟨by simp [runTool, ha], rfl, rfl, id, he⟩, rfl, .inl ⟨rfl, rfl⟩⟩
  | neverReturns =>
    refine .inr ⟨{ emit (.runTool s.cfg.toolPath .neverReturns) (withEnv (drawToolRun s.env).2 s) with
      stuckInTool := true }, by simp [runTool, ha], rfl, rfl, he, ?_⟩
    rintro ⟨a, rest, htr, hne⟩
    simp [drawToolRun, htr] at ha
    exact hne ha

theorem vendorStage_cases (s : State) :
    (∃ v t run, SensorRun s (vendorStage s) (stageResult 2 v) t run ∧ t.chan = s.chan ∧ ToolEvents s.cfg v run) ∨
      ∃ t run, vendorStage s = .halted t ∧ ToolHang s t run := by
  have hx := toolExists_frame s
  cases hex : (toolExists s).1 with
  | false =>
    rw [hex] at hx
    refine .inl ⟨none, (toolExists s).2, _, ?_, rfl, .absent⟩
    have := hx.run (stageResult 2 none)
    simpa [vendorStage, hex] using this
  | true =>
    rw [hex] at hx
    rcases runTool_cases (toolExists s).2 with ⟨out, t, a, h, hc, ho⟩ | ⟨t, h, htr, hfr, henv, hno⟩
    · have h1 : SensorRun s (vendorStage s) (stageResult 2 (out.bind (vendorValue s.cfg))) t
          ([.fileExists s.cfg.toolPath true] ++ [.runTool s.cfg.toolPath a]) := by
        have := (hx.run ()).andThen (k := fun _ t => andThen (runTool t) fun out t =>
          .done (stageResult 2 (out.bind (vendorValue s.cfg))) t) (h.map _)
        simp only [andThen_done] at this
        simp only [vendorStage, hex, if_true]
        exact this
      refine .inl ⟨_, t, _, h1, hc.trans hx.chan, ?_⟩
      rcases ho with ⟨rfl, rfl⟩ | ⟨txt, rfl, rfl⟩
      · exact .notRun
      · exact .ran txt
    · refine .inr ⟨t, [.fileExists s.cfg.toolPath true, .runTool s.cfg.toolPath .neverReturns], ?_, ?_, ?_, ?_, ?_, rfl⟩
      · simp [vendorStage, hex, h]
      · rw [htr, hx.quiet.trace]; simp; rfl
      · rw [hfr]; rfl
      · rw [henv, hx.quiet.env]
      · intro hyes
        exact hno (by simpa [ToolReturns, hx.tools] using hyes)

/-- Once the block has stopped in a tool, no step follows (rule R285; log 5). -/
theorem step_stuck {t : State} (hs : t.stuckInTool = true) (hf : t.fault = none) : step t = .fault .toolNeverReturns := by
  simp [step, machineStep, hf, hs]

/-- A stop after an operation that ran first. -/
theorem StopsInTool.after {α : Type} {s u t : State} {r : Res α} {a : α} {es fs : List Event}
    (h : SensorRun s r a u es) (ht : StopsInTool u fs t) : StopsInTool s (es ++ fs) t := by
  obtain ⟨entries, scan, hscan, hnil, hid, he, hst⟩ := ht
  have ho := h.only
  rw [OnlyObservation, h.trace] at ho
  refine ⟨entries, scan, h.cfg ▸ hscan, hnil, hid, ?_, hst⟩
  rw [he, h.env, ho]
  simp

/-- `RESOLVE_GPU` up to its last stage: a reading, or the EC read to come, or a tool that never returns. -/
theorem resolveGpu_cases {s : State} (hr : Ready s) (hB : 1 ≤ s.cfg.pollBudget) :
    (∃ r t es, SensorRun s (resolveGpu s) r t es ∧ GpuEvents s.cfg r es ∧
      (r.source ≠ .ecFallback → t.chan = s.chan)) ∨
      ∃ t, resolveGpu s = .halted t ∧ StopsInTool s [] { t with ret := none } ∧ t.chan = s.chan ∧ ¬ToolReturns s := by
  obtain ⟨scan, hscan, hf, hv⟩ := sysfsStage_spec s
  have hcfg := hf.quiet.cfg
  rcases hottest_none (sysfsValues scan) with ⟨hn, hnil⟩ | ⟨v, hsv, hg⟩
  · rw [hn] at hv
    have hstage : resolveGpu s = andThen (vendorStage (sysfsStage s).2) afterVendor := by
      simp [resolveGpu, hv, stageResult, afterSysfs]
    rcases vendorStage_cases (sysfsStage s).2 with ⟨w, t, run, h, hc, htool⟩ | ⟨t, run, h, hh⟩
    · rw [hcfg] at htool
      have h1 := (hf.run ()).andThen (k := fun _ t => vendorStage t) h
      left
      cases w with
      | some w =>
        have h2 : SensorRun t (afterVendor (stageResult 2 (some w)) t) ⟨.gpu, w, .vendorTool⟩ t [] :=
          ⟨rfl, by simp, rfl, id, rfl⟩
        refine ⟨⟨.gpu, w, .vendorTool⟩, t, .sysfsList (sysfsList s).1 :: scan ++ run, ?_,
          .tool _ _ _ _ hscan hnil htool, fun _ => hc.trans hf.chan⟩
        rw [hstage]
        simpa using h1.andThen h2
      | none =>
        have hrt : Ready t := h1.ready hr
        have hBt : 1 ≤ t.cfg.pollBudget := by rw [h1.cfg]; exact hB
        obtain ⟨b, late, u, es, h3, hev⟩ := gpuTempEcRead_run hrt hBt
        rw [h1.cfg] at hev
        have h2 : SensorRun t (afterVendor (stageResult 2 none) t) ⟨.gpu, b.toNat, .ecFallback⟩ u es :=
          (h3.map fun v => (⟨.gpu, v, .ecFallback⟩ : Reading)).sensor
        refine ⟨⟨.gpu, b.toNat, .ecFallback⟩, u, .sysfsList (sysfsList s).1 :: scan ++ run ++ es, ?_,
          .ec _ _ _ _ _ _ hscan hnil htool hev, fun h => absurd rfl h⟩
        rw [hstage]
        simpa using h1.andThen h2
    · right
      have h0 := (hf.run ()).only
      rw [OnlyObservation, hf.quiet.trace] at h0
      refine ⟨t, by rw [hstage, h, andThen_halted], ⟨(sysfsList s).1, scan, hscan, hnil, ?_, ?_, ?_⟩, ?_, ?_⟩
      · rw [hh.only]; exact hf.quiet.idle hr.2
      · rw [hh.only, hh.env, hh.trace, hh.event, hf.quiet.env, h0]
        simp
      · exact step_stuck (by rw [hh.only])
      · rw [hh.only]; exact hf.chan
      · intro hyes
        exact hh.answer (by simpa [ToolReturns, hf.tools] using hyes)
  · rw [hsv] at hv
    left
    refine ⟨⟨.gpu, v, .driverSysfs⟩, (sysfsStage s).2, _, ?_, .sysfs _ _ _ hscan hg, fun _ => hf.chan⟩
    have := hf.run (⟨.gpu, v, .driverSysfs⟩ : Reading)
    simpa [resolveGpu, hv, stageResult, afterSysfs] using this

theorem resolveGpu_run {s : State} (hr : Ready s) (hB : 1 ≤ s.cfg.pollBudget) (ht : ToolReturns s) :
    ∃ r t es, SensorRun s (resolveGpu s) r t es ∧ GpuEvents s.cfg r es ∧ (r.source ≠ .ecFallback → t.chan = s.chan) :=
  (resolveGpu_cases hr hB).resolve_right fun ⟨_, _, _, _, hno⟩ => hno ht

/-- The standalone report (rule R206), whatever the tool does. -/
theorem reportAlone_cases {s : State} (hr : Ready s) (hB : 1 ≤ s.cfg.pollBudget) :
    (∃ t es, SensorRun s (reportAlone s) () t es ∧ StatusEvents s.cfg s.ctl es) ∨
      ∃ t, reportAlone s = .halted t ∧ ReportStops s [] { t with ret := none } ∧ ¬ToolReturns s := by
  obtain ⟨cpu, t, e1, h1, hev1⟩ := resolveCpu_run hr hB
  rcases resolveGpu_cases (h1.ready hr) (by rw [h1.cfg]; exact hB) with ⟨gpu, u, e2, h2, hev2, -⟩ | ⟨u, h2, hst, -, hno⟩
  · rw [h1.cfg] at hev2
    have h12 := h1.sensor.andThen (k := fun _ t => resolveGpu t) h2
    obtain ⟨w, e3, h3, hev3⟩ := reportWith_run cpu gpu (h12.ready hr) (by rw [h12.cfg]; exact hB)
    rw [h12.cfg, ((onlyObservation_iff _ _).1 h12.only).2.2.2.1] at hev3
    exact .inl ⟨w, e1 ++ (e2 ++ e3), h1.sensor.andThen (h2.andThen h3.sensor), cpu, gpu, e1, e2, e3, hev1, hev2, hev3,
      by rw [List.append_assoc]⟩
  · refine .inr ⟨u, by rw [reportAlone, h1.eq, andThen_done, h2, andThen_halted], ⟨cpu, e1, hev1, ?_⟩,
      fun h => hno (by simpa [ToolReturns, h1.seg.tools] using h)⟩
    simpa using hst.after h1.sensor

theorem reportAlone_run {s : State} (hr : Ready s) (hB : 1 ≤ s.cfg.pollBudget) (ht : ToolReturns s) :
    ∃ t es, SensorRun s (reportAlone s) () t es ∧ StatusEvents s.cfg s.ctl es :=
  (reportAlone_cases hr hB).resolve_right fun ⟨_, _, _, hno⟩ => hno ht

end Sys2Proof.Machine
end

