-- ==== Sys2Proof/Laws/Commands.lean ====
section
/-! SUPPORT. The operations that also write the ControlState, the `override` flag or the command's failure mark: the
control cycle and the manual commands. -/

namespace Sys2Proof.Machine

/-! ## Quiet but for the controller's and the command's own state -/

/-- As `Quiet`, the ControlState, the `override` flag and `S.cmd` aside. -/
def Calm (n : Nat) (s t : State) (es : List Event) : Prop :=
  Quiet n { s with ctl := t.ctl, override := t.override, cmd := t.cmd } t es

theorem Quiet.recast {n : Nat} {s t : State} {es : List Event} (h : Quiet n s t es) (c : Option Int)
    (o : Option Bool) (m : Cmd) :
    Quiet n { s with ctl := c, override := o, cmd := m } { t with ctl := c, override := o, cmd := m } es := by
  refine ⟨h.trace, ?_, h.env, h.idle, h.kind, h.attempt, h.cells, h.handshake, h.status, h.sticky, h.admitted⟩
  have := h.frame
  rw [this]

theorem Quiet.kept {n : Nat} {s t : State} {es : List Event} (h : Quiet n s t es) :
    t.ctl = s.ctl ∧ t.override = s.override ∧ t.cmd = s.cmd := by
  rw [h.frame]; exact ⟨rfl, rfl, rfl⟩

theorem Quiet.calm {n : Nat} {s t : State} {es : List Event} (h : Quiet n s t es) : Calm n s t es := by
  obtain ⟨h1, h2, h3⟩ := h.kept
  unfold Calm
  rw [h1, h2, h3]
  exact h

theorem Calm.trans {n m : Nat} {s t u : State} {es fs : List Event} (h1 : Calm n s t es) (h2 : Calm m t u fs) :
    Calm (n + m) s u (es ++ fs) :=
  Quiet.trans (Quiet.recast h1 u.ctl u.override u.cmd) h2

theorem Calm.mono {n m : Nat} {s t : State} {es : List Event} (h : Calm n s t es) (hnm : n ≤ m) : Calm m s t es :=
  Quiet.mono h hnm

/-- A write of the controller's or the command's own state alone. -/
theorem calm_write (s : State) (c : Option Int) (o : Option Bool) (m : Cmd) :
    Calm 0 s { s with ctl := c, override := o, cmd := m } [] := Quiet.refl _

theorem Calm.cfg {n : Nat} {s t : State} {es : List Event} (h : Calm n s t es) : t.cfg = s.cfg :=
  Quiet.cfg (s := { s with ctl := t.ctl, override := t.override, cmd := t.cmd }) h

theorem Calm.ready {n : Nat} {s t : State} {es : List Event} (h : Calm n s t es) (hr : Ready s) : Ready t :=
  Quiet.ready (s := { s with ctl := t.ctl, override := t.override, cmd := t.cmd }) h hr

/-- As `OpSpec`, the ControlState, the `override` flag and `S.cmd` aside. -/
structure CalmOp {α : Type} (n : Nat) (s : State) (r : Res α) : Prop where
  calm : ∃ es, Calm n s r.after es
  done : ∀ a t, r = .done a t → t.fault = s.fault ∧ t.stuckInTool = s.stuckInTool
  halted : ∀ t, r = .halted t → t.fault.isSome = true ∨ t.stuckInTool = true
  ready : Ready s → r.after.fault = s.fault

theorem OpSpec.calmOp {α : Type} {n : Nat} {s : State} {r : Res α} (h : OpSpec n s r) : CalmOp n s r :=
  ⟨h.quiet.elim fun es he => ⟨es, he.calm⟩, h.done, h.halted, h.ready⟩

theorem calmOp_done {α : Type} {n : Nat} {s t : State} (a : α) {es : List Event} (h : Calm n s t es)
    (hf : t.fault = s.fault) (hst : t.stuckInTool = s.stuckInTool) : CalmOp n s (.done a t : Res α) :=
  ⟨⟨es, h⟩, by rintro b u ⟨⟩; exact ⟨hf, hst⟩, by rintro u ⟨⟩, fun _ => hf⟩

theorem calmOp_mono {α : Type} {n m : Nat} {s : State} {r : Res α} (h : CalmOp n s r) (hnm : n ≤ m) :
    CalmOp m s r :=
  ⟨h.calm.elim fun es he => ⟨es, he.mono hnm⟩, h.done, h.halted, h.ready⟩

theorem calmOp_andThen {α β : Type} {n m : Nat} {s : State} {r : Res α} {k : α → State → Res β} (h1 : CalmOp n s r)
    (h2 : ∀ a t, r = .done a t → t.cfg = s.cfg → CalmOp m t (k a t)) : CalmOp (n + m) s (andThen r k) := by
  obtain ⟨es, he⟩ := h1.calm
  cases r with
  | done a t =>
    obtain ⟨fs, hf⟩ := (h2 a t rfl he.cfg).calm
    refine ⟨⟨es ++ fs, by simpa using he.trans hf⟩, fun b u hu => ?_, fun u hu => (h2 a t rfl he.cfg).halted u hu,
      fun hr => ((h2 a t rfl he.cfg).ready (he.ready hr)).trans (h1.ready hr)⟩
    have h3 := (h2 a t rfl he.cfg).done b u hu
    have h4 := h1.done a t rfl
    exact ⟨h3.1.trans h4.1, h3.2.trans h4.2⟩
  | halted u =>
    exact ⟨⟨es, by simpa using he.mono (Nat.le_add_right _ _)⟩, by rintro b v ⟨⟩,
      fun t ht => h1.halted t (by simpa using ht), h1.ready⟩

/-! ## The control cycle -/

theorem applyDuty_calmOp (last duty : Int) (s : State) (hB : 1 ≤ s.cfg.pollBudget) :
    CalmOp 8 s (applyDuty last duty s) := by
  unfold applyDuty
  split
  · exact calmOp_mono (opSpec_pure () s).calmOp (by omega)
  · refine calmOp_andThen (m := 0) (writeBoth_opSpec duty s hB).calmOp fun r t _ _ => ?_
    split
    · exact calmOp_done () (calm_write t (some duty) t.override t.cmd) rfl rfl
    · exact (opSpec_pure () t).calmOp

/-- A cycle without a ControlState (rule R204). -/
theorem controlCycle_none {s : State} (h : s.ctl = none) : controlCycle s = faultRes .noControlState s := by
  simp [controlCycle, h]

theorem controlCycle_calmOp {s : State} {last : Int} (hl : s.ctl = some last) (hB : 1 ≤ s.cfg.pollBudget) :
    CalmOp 32 s (controlCycle s) := by
  unfold controlCycle
  rw [hl]
  · refine calmOp_andThen (m := 29) (resolveCpu_opSpec s hB).calmOp fun cpu t _ hc => ?_
    have hBt : 1 ≤ t.cfg.pollBudget := by rw [hc]; exact hB
    refine calmOp_andThen (m := 26) (resolveGpu_opSpec t hBt).calmOp fun gpu u _ hc' => ?_
    have hBu : 1 ≤ u.cfg.pollBudget := by rw [hc']; exact hBt
    simp only
    set v := setOverride (targetDuty u.cfg (hot cpu gpu) _).2 u
    have hv : CalmOp 0 u (.done () v : Res Unit) :=
      calmOp_done () (calm_write u u.ctl v.override u.cmd) rfl rfl
    refine calmOp_mono (calmOp_andThen (m := 26) (k := fun _ v => andThen (applyDuty _ _ v) fun _ w =>
      andThen (reportWith cpu gpu w) fun _ x => .done () (clearOverride x)) hv fun _ v' hv' _ => ?_) (by omega)
    cases hv'
    refine calmOp_andThen (m := 18) (applyDuty_calmOp _ _ v hBu) fun _ w _ hc'' => ?_
    refine calmOp_andThen (m := 0) (reportWith_opSpec cpu gpu w (by rw [hc'']; exact hBu)).calmOp fun _ x _ _ => ?_
    exact calmOp_done () (calm_write x x.ctl none x.cmd) rfl rfl

/-- The duty a cycle commands from `last` at a temperature (rules R201, R203, R204). -/
def dutyAt (c : Config) (hot last : Int) : Int := rateLimit c (overrideAt c hot) last (targetValue c hot last)

theorem andThen_after {α β : Type} {r : Res α} {k : α → State → Res β} {P : State → Prop} (h1 : P r.after)
    (h2 : ∀ a t, r = .done a t → P (k a t).after) : P (andThen r k).after := by
  cases r with
  | done a t => exact h2 a t rfl
  | halted t => exact h1

theorem OpSpec.kept {α : Type} {n : Nat} {s : State} {r : Res α} (h : OpSpec n s r) :
    r.after.ctl = s.ctl ∧ r.after.override = s.override ∧ r.after.cmd = s.cmd :=
  h.quiet.elim fun _ he => he.kept

theorem opSpec_kept_done {α : Type} {n : Nat} {s t : State} {r : Res α} {a : α} (h : OpSpec n s r)
    (hr : r = .done a t) : t.ctl = s.ctl ∧ t.override = s.override ∧ t.cmd = s.cmd ∧ t.cfg = s.cfg := by
  subst hr
  obtain ⟨h1, h2, h3⟩ := h.kept
  exact ⟨h1, h2, h3, h.quiet.elim fun _ he => he.cfg⟩

theorem applyDuty_ctl (last duty : Int) (s : State) (hB : 1 ≤ s.cfg.pollBudget) (h : s.ctl = some last) :
    (applyDuty last duty s).after.ctl = some last ∨ (applyDuty last duty s).after.ctl = some duty := by
  unfold applyDuty
  split
  · exact .inl h
  · have hw := writeBoth_opSpec duty s hB
    refine andThen_after (P := fun t => t.ctl = some last ∨ t.ctl = some duty) (.inl (hw.kept.1.trans h)) ?_
    intro r t hr
    have hk := (opSpec_kept_done hw hr).1
    split
    · exact .inr rfl
    · exact .inl (hk.trans h)

/-- What a cycle may leave in the ControlState: `last`, or the duty it commanded (rules R204, R205). The command's own
state is untouched. -/
theorem controlCycle_ctl {s : State} {last : Int} (hB : 1 ≤ s.cfg.pollBudget) (h : s.ctl = some last) :
    ((controlCycle s).after.ctl = some last ∨ ∃ x, (controlCycle s).after.ctl = some (dutyAt s.cfg x last)) := by
  unfold controlCycle
  simp only [h]
  refine andThen_after (P := fun t => t.ctl = some last ∨ ∃ y, t.ctl = some (dutyAt s.cfg y last))
    (.inl ((resolveCpu_opSpec s hB).kept.1.trans h)) fun cpu t ht => ?_
  obtain ⟨k1, -, -, c1⟩ := opSpec_kept_done (resolveCpu_opSpec s hB) ht
  have hBt : 1 ≤ t.cfg.pollBudget := by rw [c1]; exact hB
  refine andThen_after (P := fun t => t.ctl = some last ∨ ∃ y, t.ctl = some (dutyAt s.cfg y last))
    (.inl ((resolveGpu_opSpec t hBt).kept.1.trans (k1.trans h))) fun gpu u hu => ?_
  obtain ⟨k2, -, -, c2⟩ := opSpec_kept_done (resolveGpu_opSpec t hBt) hu
  have hcu : u.cfg = s.cfg := c2.trans c1
  have hBu : 1 ≤ u.cfg.pollBudget := by rw [hcu]; exact hB
  set v := setOverride (targetDuty u.cfg (hot cpu gpu) last).2 u with hv
  have hvc : v.ctl = some last := k2.trans (k1.trans h)
  have hd : rateLimit v.cfg (v.override == some true) last (targetDuty u.cfg (hot cpu gpu) last).1 =
      dutyAt s.cfg (hot cpu gpu) last := by
    simp only [hv, setOverride, targetDuty, dutyAt, hcu]
    congr 1
    cases overrideAt s.cfg (hot cpu gpu) <;> rfl
  rw [hd]
  have ha := applyDuty_ctl last (dutyAt s.cfg (hot cpu gpu) last) v hBu hvc
  have ha' : (applyDuty last (dutyAt s.cfg (hot cpu gpu) last) v).after.ctl = some last ∨
      ∃ y, (applyDuty last (dutyAt s.cfg (hot cpu gpu) last) v).after.ctl = some (dutyAt s.cfg y last) :=
    ha.imp id fun h => ⟨_, h⟩
  refine andThen_after (P := fun t => t.ctl = some last ∨ ∃ y, t.ctl = some (dutyAt s.cfg y last)) ha'
    fun _ w hw => ?_
  have hcw : w.cfg = s.cfg := by
    obtain ⟨es, he⟩ := (applyDuty_calmOp last (dutyAt s.cfg (hot cpu gpu) last) v hBu).calm
    rw [hw] at he
    exact he.cfg.trans hcu
  rw [hw] at ha'
  have hr := reportWith_opSpec cpu gpu w (by rw [hcw]; exact hB)
  refine andThen_after (P := fun t => t.ctl = some last ∨ ∃ y, t.ctl = some (dutyAt s.cfg y last)) ?_
    fun _ x hx => ?_
  · rw [hr.kept.1]; exact ha'
  · have := (opSpec_kept_done hr hx).1
    show x.ctl = some last ∨ ∃ y, x.ctl = some (dutyAt s.cfg y last)
    rw [this]; exact ha'

/-! ## Manual commands -/

/-- A manual command's writes and report. -/
theorem manualCommand_calmOp {n : Nat} (p : Except Rejected Int) (write : Int → State → Res Bool) (s : State)
    (hB : 1 ≤ s.cfg.pollBudget) (hw : ∀ d, OpSpec n s (write d s)) :
    CalmOp (n + 24) s (manualCommand p write s) := by
  unfold manualCommand
  split
  · rename_i f hf
    exact calmOp_mono (opSpec_fault (channelFault_some hf).1 s (channelFault_some hf).2).calmOp (by omega)
  · split
    · exact calmOp_mono (calmOp_done _ (calm_write s s.ctl s.override ⟨s.cmd.phase, true⟩) rfl rfl) (by omega)
    · refine calmOp_andThen (hw _).calmOp fun ok t _ hc => ?_
      have hBt : 1 ≤ t.cfg.pollBudget := by rw [hc]; exact hB
      unfold reportAfter
      cases ok with
      | true => exact (opSpec_map (f := fun _ => (Except.ok () : Except ErrorKind Unit)) (reportAlone_opSpec t hBt)).calmOp
      | false =>
        have hf : CalmOp 0 t (.done () (failCommand t) : Res Unit) :=
          calmOp_done () (calm_write t t.ctl t.override ⟨t.cmd.phase, true⟩) rfl rfl
        refine calmOp_mono (n := 24) (calmOp_andThen (n := 0) (m := 24) (k := fun _ t => andThen (reportAlone t) fun _ u =>
          .done (.ok () : Except ErrorKind Unit) u) hf fun _ v hv _ => ?_) le_rfl
        cases hv
        exact (opSpec_map (f := fun _ => (Except.ok () : Except ErrorKind Unit))
          (reportAlone_opSpec (failCommand t) hBt)).calmOp

/-- A manual command leaves the ControlState and the `override` flag; of the command only its failure mark may rise. -/
theorem manualCommand_kept {n : Nat} (p : Except Rejected Int) (write : Int → State → Res Bool) (s : State)
    (hB : 1 ≤ s.cfg.pollBudget) (hw : ∀ d, OpSpec n s (write d s)) :
    (manualCommand p write s).after.ctl = s.ctl ∧ (manualCommand p write s).after.override = s.override ∧
      ((manualCommand p write s).after.cmd = s.cmd ∨ (manualCommand p write s).after.cmd = ⟨s.cmd.phase, true⟩) := by
  unfold manualCommand
  split
  · exact ⟨by simp [faultRes], by simp [faultRes], .inl (by simp [faultRes])⟩
  · split
    · exact ⟨rfl, rfl, .inr rfl⟩
    · refine andThen_after (P := fun t => t.ctl = s.ctl ∧ t.override = s.override ∧
        (t.cmd = s.cmd ∨ t.cmd = ⟨s.cmd.phase, true⟩)) ⟨(hw _).kept.1, (hw _).kept.2.1, .inl (hw _).kept.2.2⟩ ?_
      intro ok t ht
      obtain ⟨k1, k2, k3, hc⟩ := opSpec_kept_done (hw _) ht
      have hBt : 1 ≤ t.cfg.pollBudget := by rw [hc]; exact hB
      cases ok with
      | true =>
        have hk := (opSpec_map (f := fun _ => (Except.ok () : Except ErrorKind Unit)) (reportAlone_opSpec t hBt)).kept
        exact ⟨hk.1.trans k1, hk.2.1.trans k2, .inl (hk.2.2.trans k3)⟩
      | false =>
        have hk := (opSpec_map (f := fun _ => (Except.ok () : Except ErrorKind Unit))
          (reportAlone_opSpec (failCommand t) hBt)).kept
        refine ⟨hk.1.trans k1, hk.2.1.trans k2, .inr (hk.2.2.trans ?_)⟩
        rw [failCommand_cmd, k3]

/-! ## What the operations leave of the rest -/

theorem Calm.fields {n : Nat} {s t : State} {es : List Event} (h : Calm n s t es) :
    t.session = s.session ∧ t.acquireCount = s.acquireCount ∧ t.loop = s.loop ∧ t.exit = s.exit ∧
      t.ret = s.ret ∧ t.invocation = s.invocation ∧ t.env.grants = s.env.grants := by
  have hf := Quiet.frame h
  have he := Quiet.env h
  refine ⟨?_, ?_, ?_, ?_, ?_, ?_, by rw [he]⟩ <;> rw [hf]

theorem CalmOp.fields {α : Type} {n : Nat} {s : State} {r : Res α} (h : CalmOp n s r) (f : α → OpResult) :
    (returned f r).session = s.session ∧ (returned f r).acquireCount = s.acquireCount ∧
      (returned f r).loop = s.loop ∧ (returned f r).exit = s.exit ∧ (returned f r).invocation = s.invocation ∧
      (returned f r).env.grants = s.env.grants ∧ (returned f r).ctl = r.after.ctl ∧
      (returned f r).override = r.after.override ∧ (returned f r).cmd = r.after.cmd := by
  obtain ⟨es, hc⟩ := h.calm
  obtain ⟨h1, h2, h3, h4, -, h6, h7⟩ := hc.fields
  cases r <;> exact ⟨h1, h2, h3, h4, h6, h7, rfl, rfl, rfl⟩

theorem applyDuty_cmd (last duty : Int) (s : State) (hB : 1 ≤ s.cfg.pollBudget) :
    (applyDuty last duty s).after.cmd = s.cmd := by
  unfold applyDuty
  split
  · rfl
  · refine andThen_after (P := fun t => t.cmd = s.cmd) (writeBoth_opSpec duty s hB).kept.2.2 ?_
    intro r t hr
    have := (opSpec_kept_done (writeBoth_opSpec duty s hB) hr).2.2.1
    split <;> exact this

/-- A cycle leaves the command's own state. -/
theorem controlCycle_cmd (s : State) (hB : 1 ≤ s.cfg.pollBudget) : (controlCycle s).after.cmd = s.cmd := by
  unfold controlCycle
  split
  · simp [faultRes]
  · rename_i last _
    refine andThen_after (P := fun t => t.cmd = s.cmd) (resolveCpu_opSpec s hB).kept.2.2 fun cpu t ht => ?_
    obtain ⟨-, -, k1, c1⟩ := opSpec_kept_done (resolveCpu_opSpec s hB) ht
    have hBt : 1 ≤ t.cfg.pollBudget := by rw [c1]; exact hB
    refine andThen_after (P := fun t => t.cmd = s.cmd) ((resolveGpu_opSpec t hBt).kept.2.2.trans k1) fun gpu u hu => ?_
    obtain ⟨-, -, k2, c2⟩ := opSpec_kept_done (resolveGpu_opSpec t hBt) hu
    have hBu : 1 ≤ u.cfg.pollBudget := by rw [c2]; exact hBt
    simp only
    set v := setOverride (targetDuty u.cfg (hot cpu gpu) last).2 u
    generalize rateLimit _ _ _ _ = duty
    have ha : (applyDuty last duty v).after.cmd = s.cmd := (applyDuty_cmd last duty v hBu).trans (k2.trans k1)
    refine andThen_after (P := fun t => t.cmd = s.cmd) ha fun _ w hw => ?_
    have hBw : 1 ≤ w.cfg.pollBudget := by
      obtain ⟨es, he⟩ := (applyDuty_calmOp last duty v hBu).calm
      rw [hw] at he
      have hcw := he.cfg
      rw [Res.after_done] at hcw
      rw [hcw]; exact hBu
    rw [hw] at ha
    refine andThen_after (P := fun t => t.cmd = s.cmd) ((reportWith_opSpec cpu gpu w hBw).kept.2.2.trans ha)
      fun _ x hx => ?_
    exact (opSpec_kept_done (reportWith_opSpec cpu gpu w hBw) hx).2.2.1.trans ha

/-! ## The cycle completes -/

/-- Step 4 of a cycle in a ready state (rules R204, R205). -/
theorem applyDuty_run {last duty : Int} {s : State} (hl : s.ctl = some last) (hr : Ready s)
    (hB : 1 ≤ s.cfg.pollBudget) :
    ∃ last' t es, applyDuty last duty s = .done () t ∧ t.trace = s.trace ++ es ∧ Ready t ∧
      OnlyObservation { s with ctl := some last' } t ∧
      t.env = { t.env with grants := s.env.grants, stops := s.env.stops } ∧
      ((duty = last ∧ es = [] ∧ last' = last) ∨
          (duty ≠ last ∧ ∃ r1 r2 w1 w2, DutyWriteEvents s.cfg .one duty r1 w1 ∧
            DutyWriteEvents s.cfg .two duty r2 w2 ∧ es = w1 ++ w2 ∧
            (r1 = .ok () ∧ r2 = .ok () → last' = duty) ∧ (¬(r1 = .ok () ∧ r2 = .ok ()) → last' = last))) := by
  unfold applyDuty
  by_cases hd : duty = last
  · rw [if_pos hd]
    refine ⟨last, s, [], rfl, by simp, hr, ?_, rfl, .inl ⟨hd, rfl, rfl⟩⟩
    rw [onlyObservation_iff]; simp [hl]
  · rw [if_neg hd]
    obtain ⟨r1, r2, t, w1, w2, h, h1, h2⟩ := writeBoth_run duty hr hB
    have hs := h.sensor
    rw [h.eq, andThen_done]
    have ho := (onlyObservation_iff _ _).1 hs.only
    by_cases hok : bothOk (r1, r2) = true
    · rw [if_pos hok]
      have : r1 = .ok () ∧ r2 = .ok () := by cases r1 <;> cases r2 <;> simp_all [bothOk]
      refine ⟨duty, _, w1 ++ w2, rfl, hs.trace, ⟨ho.2.1.trans hr.1, h.left.1⟩, ?_, hs.env,
        .inr ⟨hd, r1, r2, w1, w2, h1, h2, rfl, fun _ => rfl, fun h => absurd this h⟩⟩
      rw [onlyObservation_iff]; simp [ho]
    · rw [if_neg hok]
      have : ¬(r1 = .ok () ∧ r2 = .ok ()) := by rintro ⟨rfl, rfl⟩; simp [bothOk] at hok
      refine ⟨last, _, w1 ++ w2, rfl, hs.trace, ⟨ho.2.1.trans hr.1, h.left.1⟩, ?_, hs.env,
        .inr ⟨hd, r1, r2, w1, w2, h1, h2, rfl, fun h => absurd h this, fun _ => rfl⟩⟩
      rw [onlyObservation_iff]; simp [ho, hl]

/-- A cycle that completed, before its result is recorded (rules R204, R205). -/
def CycleRun (s : State) (last : Int) (t : State) : Prop :=
  controlCycle s = .done () t ∧ t.ret = s.ret ∧ CycleCompletes s last { t with ret := some .ok }

/-- The cycle in a ready state whose GPU reading came, the sensors' part of it being given. -/
theorem cycleRun_of_readings {s t1 t2 : State} {last : Int} {cpu gpu : Reading} {e1 e2 : List Event}
    (hc : configOk s.cfg = true) (hr : Ready s) (hl : s.ctl = some last)
    (h1 : ChannelRun s (resolveCpu s) cpu t1 e1) (hev1 : CpuEvents s.cfg cpu e1)
    (h2 : SensorRun t1 (resolveGpu t1) gpu t2 e2) (hev2 : GpuEvents s.cfg gpu e2) : ∃ t, CycleRun s last t := by
  have hB := ((configOk_iff _).1 hc).2.2.1
  have h12 := h1.sensor.andThen (k := fun _ t => resolveGpu t) h2
  have o12 := (onlyObservation_iff _ _).1 h12.only
  have hr2 := h12.ready hr
  set v := setOverride (targetDuty t2.cfg (hot cpu gpu) last).2 t2 with hv
  have hcv : v.cfg = s.cfg := h12.cfg
  have hvl : v.ctl = some last := o12.2.2.2.1.trans hl
  obtain ⟨last', w, e3, ha, htr3, hrw, how, hew, hcases⟩ :=
    applyDuty_run (duty := dutyAt s.cfg (hot cpu gpu) last) hvl hr2 (by rw [hcv]; exact hB)
  have how' := (onlyObservation_iff _ _).1 how
  have hcw : w.cfg = s.cfg := how'.1.trans hcv
  obtain ⟨x, e4, h4, hev4⟩ := reportWith_run cpu gpu hrw (by rw [hcw]; exact hB)
  have h4s := h4.sensor
  have o4 := (onlyObservation_iff _ _).1 h4s.only
  rw [hcw, how'.2.2.2.1] at hev4
  refine ⟨clearOverride x, ?_, ?_, cpu, gpu, targetValue s.cfg (hot cpu gpu) last, e1, e2, e3, e4, last',
    hev1, hev2, targetValue_isTarget hc _ _, ?_, hev4, h4.left.1, ?_⟩
  · have hd : rateLimit v.cfg (v.override == some true) last (targetDuty t2.cfg (hot cpu gpu) last).1 =
      dutyAt s.cfg (hot cpu gpu) last := by
      have : t2.cfg = s.cfg := h12.cfg
      simp only [hv, setOverride, targetDuty, dutyAt, this]
      congr 1
      cases overrideAt s.cfg (hot cpu gpu) <;> rfl
    unfold controlCycle
    simp only [hl, h1.eq, andThen_done, h2.eq]
    rw [← hv, hd, ha, andThen_done, h4.eq, andThen_done]
  · show x.ret = s.ret
    rw [o4.2.2.2.2.2.2.2.2.2.2.1, how'.2.2.2.2.2.2.2.2.2.2.1]; exact o12.2.2.2.2.2.2.2.2.2.2.1
  · rw [hcv] at hcases
    have : dutyAt s.cfg (hot cpu gpu) last =
        if s.cfg.maxTemp ≤ max cpu.value gpu.value then 100
        else if last < targetValue s.cfg (hot cpu gpu) last then
          min (targetValue s.cfg (hot cpu gpu) last) (last + s.cfg.step)
        else max (targetValue s.cfg (hot cpu gpu) last) (last - s.cfg.step) := by
      simp [dutyAt, rateLimit, overrideAt, hot]
    simp only
    rw [← this]; exact hcases
  · have htr : x.trace = s.trace ++ (e1 ++ e2 ++ e3 ++ e4) := by
      rw [h4s.trace, htr3]; show (t2.trace ++ e3) ++ e4 = _
      rw [h12.trace]; simp
    have ho : x = { s with ctl := some last', override := x.override, chan := x.chan, trace := x.trace, env := x.env } := by
      have := (onlyObservation_iff { s with ctl := some last', override := x.override } x).2
        ⟨o4.1.trans hcw, o4.2.1.trans (how'.2.1.trans o12.2.1), o4.2.2.1.trans (how'.2.2.1.trans o12.2.2.1),
          o4.2.2.2.1.trans how'.2.2.2.1, o4.2.2.2.2.1.trans (how'.2.2.2.2.1.trans o12.2.2.2.2.1), rfl, ?_⟩
      · exact this
      · obtain ⟨-, -, -, -, -, -, a7, a8, a9, a10, a11, a12, a13⟩ := o12
        obtain ⟨-, -, -, -, -, -, b7, b8, b9, b10, b11, b12, b13⟩ := how'
        obtain ⟨-, -, -, -, -, -, c7, c8, c9, c10, c11, c12, c13⟩ := o4
        exact ⟨c7.trans (b7.trans a7), c8.trans (b8.trans a8), c9.trans (b9.trans a9), c10.trans (b10.trans a10),
          c11.trans (b11.trans a11), c12.trans (b12.trans a12), c13.trans (b13.trans a13)⟩
    have he : x.env = { x.env with grants := s.env.grants, stops := s.env.stops } := by
      have h5 := h4s.env
      rw [hew] at h5
      have h6 : t2.env = { t2.env with grants := s.env.grants, stops := s.env.stops } := h12.env
      have f1 : t2.env.grants = s.env.grants := by rw [h6]
      have f2 : t2.env.stops = s.env.stops := by rw [h6]
      simp only [hv, setOverride] at h5
      rw [f1, f2] at h5
      exact h5
    show ({ clearOverride x with ret := some .ok } : State) = _
    rw [clearOverride, ho, ← htr, ← he]

/-- The cycle in a ready state (rules R204, R205), whatever the tool does. -/
theorem controlCycle_cases {s : State} {last : Int} (hc : configOk s.cfg = true) (hr : Ready s) (hl : s.ctl = some last) :
    (∃ t, CycleRun s last t) ∨
      ∃ t, controlCycle s = .halted t ∧ ReportStops s [] { t with ret := none } ∧ ¬ToolReturns s := by
  have hB := ((configOk_iff _).1 hc).2.2.1
  obtain ⟨cpu, t1, e1, h1, hev1⟩ := resolveCpu_run hr hB
  rcases resolveGpu_cases (h1.ready hr) (by rw [h1.cfg]; exact hB) with ⟨gpu, t2, e2, h2, hev2, -⟩ | ⟨u, h2, hst, -, hno⟩
  · exact .inl (cycleRun_of_readings hc hr hl h1 hev1 h2 (h1.cfg ▸ hev2))
  · refine .inr ⟨u, by simp [controlCycle, hl, h1.eq, h2], ⟨cpu, e1, hev1, ?_⟩,
      fun h => hno (by simpa [ToolReturns, h1.seg.tools] using h)⟩
    simpa using hst.after h1.sensor

theorem controlCycle_run {s : State} {last : Int} (hc : configOk s.cfg = true) (hr : Ready s) (ht : ToolReturns s)
    (hl : s.ctl = some last) : ∃ t, CycleRun s last t :=
  (controlCycle_cases hc hr hl).resolve_right fun ⟨_, _, _, hno⟩ => hno ht

end Sys2Proof.Machine
end

