-- ==== Sys2Proof/Laws/Machine.lean ====
section
/-! SUPPORT. What every operation and every step keeps, and what a step can be. -/

namespace Sys2Proof.Machine

/-- What holds across every operation and every move of the block: `es` are its events. -/
structure Kept (s t : State) (es : List Event) : Prop where
  trace : t.trace = s.trace ++ es
  cfg : t.cfg = s.cfg
  stop : t.stop = s.stop
  stops : t.env.stops = s.env.stops
  idle : s.chan.phase = .idle → t.chan.phase = .idle
  kind : s.chan.kind = .none → t.chan.kind = .none
  attempt : s.chan.attempt ≤ s.cfg.pollBudget → t.chan.attempt ≤ s.cfg.pollBudget
  cells : ecCellsOk s.env.ec = true → ecCellsOk t.env.ec = true
  handshake : HandshakeTrace s.cfg es
  sticky : ∀ f, s.fault = some f → t.fault = some f
  admitted : s.fault ≠ some .badConfig → t.fault ≠ some .badConfig

/-- A move that emits nothing and touches neither the channel, the environment nor the fault mark. -/
theorem kept_plain {s t : State} (h1 : t.trace = s.trace) (h2 : t.cfg = s.cfg) (h3 : t.stop = s.stop)
    (h4 : t.env = s.env) (h5 : t.chan = s.chan) (h6 : t.fault = s.fault) : Kept s t [] :=
  ⟨by simp [h1], h2, h3, by rw [h4], by rw [h5]; exact id, by rw [h5]; exact id, by rw [h5]; exact id,
    by rw [h4]; exact id, .nil, by rw [h6]; exact fun _ h => h, by rw [h6]; exact id⟩

theorem Kept.trans {s t u : State} {es fs : List Event} (h1 : Kept s t es) (h2 : Kept t u fs) :
    Kept s u (es ++ fs) := by
  refine ⟨by rw [h2.trace, h1.trace, List.append_assoc], h2.cfg.trans h1.cfg, h2.stop.trans h1.stop,
    h2.stops.trans h1.stops, fun h => h2.idle (h1.idle h), fun h => h2.kind (h1.kind h), fun h => ?_,
    fun h => h2.cells (h1.cells h), h1.handshake.append (h1.cfg ▸ h2.handshake), fun f h => h2.sticky f (h1.sticky f h),
    fun h => h2.admitted (h1.admitted h)⟩
  · have := h2.attempt (by rw [h1.cfg]; exact h1.attempt h)
    rwa [h1.cfg] at this

theorem Kept.trans_plain {s t u : State} {es : List Event} (h1 : Kept s t es) (h2 : Kept t u []) : Kept s u es := by
  have := h1.trans h2
  rwa [List.append_nil] at this

theorem Quiet.keeps {n : Nat} {s t : State} {es : List Event} (h : Quiet n s t es) : Kept s t es := by
  have hf := h.frame
  have he := h.env
  exact ⟨h.trace, h.cfg, by rw [hf], by rw [he], h.idle, h.kind, h.attempt, h.cells, h.handshake, h.sticky, h.admitted⟩

theorem Calm.keeps {n : Nat} {s t : State} {es : List Event} (h : Calm n s t es) : Kept s t es := by
  have hk := Quiet.keeps h
  exact ⟨hk.trace, hk.cfg, hk.stop, hk.stops, hk.idle, hk.kind, hk.attempt, hk.cells, hk.handshake, hk.sticky, hk.admitted⟩

theorem returned_keeps {α : Type} (f : α → OpResult) (r : Res α) : Kept r.after (returned f r) [] := by
  cases r <;> exact kept_plain rfl rfl rfl rfl rfl rfl

theorem CalmOp.keeps {α : Type} {n : Nat} {s : State} {r : Res α} (h : CalmOp n s r) : ∃ es, Kept s r.after es :=
  h.calm.elim fun es he => ⟨es, he.keeps⟩

theorem CalmOp.returned {α : Type} {n : Nat} {s : State} {r : Res α} (h : CalmOp n s r) (f : α → OpResult) :
    ∃ es, Kept s (returned f r) es :=
  h.keeps.elim fun es he => ⟨es, he.trans_plain (returned_keeps f r)⟩

theorem raise_keeps {f : FaultKind} (hf : f ≠ .badConfig) (s : State) : Kept s (raise f s) [] :=
  (quiet_raise hf s).keeps

/-! ## The operations that are not quiet -/

theorem drawGrant_env (e : Env) :
    (drawGrant e).2 = { e with grants := (drawGrant e).2.grants, count := (drawGrant e).2.count } := by
  unfold drawGrant; split <;> rfl

/-- `ACQUIRE`: what it may write (rule R100). -/
theorem acquire_after (s : State) :
    (1 ≤ s.acquireCount ∧ acquire s = faultRes .doubleAcquire s) ∨
      (s.acquireCount = 0 ∧ ∃ granted r,
        acquire s = .done r { s with acquireCount := 1, env := (drawGrant s.env).2,
                                     session := if granted then .held else .denied } ∧
          granted = (drawGrant s.env).1 ∧ r = if granted then .ok () else .error .permissionError) := by
  unfold acquire
  by_cases h : 1 ≤ s.acquireCount
  · exact .inl ⟨h, by rw [if_pos h]⟩
  · rw [if_neg h]
    exact .inr ⟨by omega, (drawGrant s.env).1, _, rfl, rfl, rfl⟩

theorem acquire_keeps (s : State) : ∃ es, Kept s (acquire s).after es := by
  rcases acquire_after s with ⟨-, h⟩ | ⟨-, g, r, h, -, -⟩
  · rw [h]; exact ⟨[], raise_keeps (by simp) s⟩
  · rw [h]
    refine ⟨[], by simp, rfl, rfl, ?_, id, id, id, ?_, .nil, fun _ h => h, id⟩
    · show (drawGrant s.env).2.stops = _
      rw [drawGrant_env]
    · show _ → ecCellsOk (drawGrant s.env).2.ec = true
      rw [drawGrant_ec]; exact id

/-- The start of the loop: what it may write (rules R103, R207). -/
theorem startLoop_after (s : State) :
    (∃ f, channelFault s = some f ∧ startLoop s = faultRes f s) ∨
      (Ready s ∧ s.loop = .exited ∧ startLoop s = .done () s) ∨
      (Ready s ∧ s.loop ≠ .exited ∧
        startLoop s = .done () { s with ctl := some (s.cfg.initLast.val : Int), loop := .top }) := by
  unfold startLoop
  cases h : channelFault s with
  | some f => exact .inl ⟨f, rfl, rfl⟩
  | none =>
    have hr := channelFault_none.1 h
    by_cases hl : s.loop = .exited
    · exact .inr (.inl ⟨hr, hl, by simp [hl]⟩)
    · exact .inr (.inr ⟨hr, hl, by simp [hl]⟩)

theorem startLoop_keeps (s : State) : Kept s (startLoop s).after [] := by
  rcases startLoop_after s with ⟨f, hf, h⟩ | ⟨-, -, h⟩ | ⟨-, -, h⟩ <;> rw [h]
  · exact raise_keeps (channelFault_some hf).1 s
  · exact kept_plain rfl rfl rfl rfl rfl rfl
  · exact kept_plain rfl rfl rfl rfl rfl rfl

theorem controlCycle_keeps (s : State) (hB : 1 ≤ s.cfg.pollBudget) : ∃ es, Kept s (controlCycle s).after es := by
  cases h : s.ctl with
  | none => rw [controlCycle_none h]; exact ⟨[], raise_keeps (by simp) s⟩
  | some last => exact (controlCycle_calmOp h hB).keeps

/-! ## Instructions -/

/-- The state an instruction ends in. -/
def execState (i : Instr) (s : State) : State :=
  match exec i s with
  | .next t => t
  | .fault _ => s
  | .refused _ => s

theorem exec_next (i : Instr) (s : State) : exec i s = .next (execState i s) := by
  have h : ∃ t, exec i s = .next t := by
    cases i <;>
      simp [exec, execSet, execSet1, execSet2, execDump, execAuto, execAcquire, execEcRead, execEcWrite, execCpuTempRead,
        execGpuTempEcRead, execFanDutyRead, execFanRpmRead, execFanDutyWrite, execResolveCpu, execResolveGpu,
        execControlCycle, execReport]
    · unfold execTargetDuty; split <;> exact ⟨_, rfl⟩
    · unfold execRateLimit; split <;> exact ⟨_, rfl⟩
  obtain ⟨t, ht⟩ := h
  simp [execState, ht]

theorem exec_eq_next {i : Instr} {s t : State} : exec i s = .next t ↔ execState i s = t := by
  rw [exec_next]; simp

theorem budget_of_ok {c : Config} (h : configOk c = true) : 1 ≤ c.pollBudget := ((configOk_iff c).1 h).2.2.1

theorem step_of_ok {c : Config} (h : configOk c = true) : 1 ≤ c.step := ((configOk_iff c).1 h).2.2.2.2.2.2.2.1

/-- The three manual commands. -/
theorem setCommand_calmOp (p : Except Rejected Int) (s : State) (hB : 1 ≤ s.cfg.pollBudget) :
    CalmOp 32 s (setCommand p s) := manualCommand_calmOp p _ s hB fun d => writeForSet_opSpec d s hB

theorem set1Command_calmOp (p : Except Rejected Int) (s : State) (hB : 1 ≤ s.cfg.pollBudget) :
    CalmOp 28 s (set1Command p s) := manualCommand_calmOp p _ s hB fun d => writeForOne_opSpec .one d s hB

theorem set2Command_calmOp (p : Except Rejected Int) (s : State) (hB : 1 ≤ s.cfg.pollBudget) :
    CalmOp 28 s (set2Command p s) := manualCommand_calmOp p _ s hB fun d => writeForOne_opSpec .two d s hB

theorem exec_keeps (i : Instr) (s : State) (hB : 1 ≤ s.cfg.pollBudget) : ∃ es, Kept s (execState i s) es := by
  cases i with
  | set p => exact (setCommand_calmOp _ s hB).returned _
  | set1 p => exact (set1Command_calmOp _ s hB).returned _
  | set2 p => exact (set2Command_calmOp _ s hB).returned _
  | dump => exact (dumpCommand_opSpec s hB).calmOp.returned _
  | auto => exact ⟨[], (startLoop_keeps s).trans_plain (returned_keeps _ _)⟩
  | acquire => exact (acquire_keeps s).elim fun es h => ⟨es, h.trans_plain (returned_keeps _ _)⟩
  | ecRead a => exact (ecRead_opSpec a s hB).calmOp.returned _
  | ecWrite c a v => exact (ecWrite_opSpec c a v s hB).calmOp.returned _
  | cpuTempRead => exact (cpuTempRead_opSpec s hB).calmOp.returned _
  | gpuTempEcRead => exact (gpuTempEcRead_opSpec s hB).calmOp.returned _
  | fanDutyRead ch => exact (fanDutyRead_opSpec ch s hB).calmOp.returned _
  | fanRpmRead ch => exact (fanRpmRead_opSpec ch s hB).calmOp.returned _
  | fanDutyWrite ch p => exact (fanDutyWrite_opSpec ch _ s hB).calmOp.returned _
  | resolveCpu => exact (resolveCpu_opSpec s hB).calmOp.returned _
  | resolveGpu => exact (resolveGpu_opSpec s hB).calmOp.returned _
  | targetDuty hot last =>
    refine ⟨[], ?_⟩
    unfold execState
    simp only [exec, execTargetDuty]
    split
    · rename_i t ht
      split at ht <;> cases ht
      · exact kept_plain rfl rfl rfl rfl rfl rfl
      · exact raise_keeps (by simp) s
    · exact kept_plain rfl rfl rfl rfl rfl rfl
    · exact kept_plain rfl rfl rfl rfl rfl rfl
  | rateLimit o last target =>
    refine ⟨[], ?_⟩
    unfold execState
    simp only [exec, execRateLimit]
    split
    · rename_i t ht
      split at ht <;> cases ht
      · exact kept_plain rfl rfl rfl rfl rfl rfl
      · exact raise_keeps (by simp) s
    · exact kept_plain rfl rfl rfl rfl rfl rfl
    · exact kept_plain rfl rfl rfl rfl rfl rfl
  | controlCycle => exact (controlCycle_keeps s hB).elim fun es h => ⟨es, h.trans_plain (returned_keeps _ _)⟩
  | report => exact (reportAlone_opSpec s hB).calmOp.returned _

/-! ## The block's own moves -/

theorem loopStep_keeps {s t : State} (hB : 1 ≤ s.cfg.pollBudget) (h : loopStep s = .next t) : ∃ es, Kept s t es := by
  unfold loopStep at h
  split at h
  · cases h; exact ⟨[], kept_plain rfl rfl rfl rfl rfl rfl⟩
  · cases h; refine ⟨[], ?_⟩; split <;> exact kept_plain rfl rfl rfl rfl rfl rfl
  · obtain ⟨es, hk⟩ := controlCycle_keeps s hB
    split at h <;> cases h
    · rename_i heq
      rw [heq] at hk
      exact ⟨es, hk.trans_plain (kept_plain rfl rfl rfl rfl rfl rfl)⟩
    · rename_i heq
      rw [heq] at hk
      exact ⟨es, hk⟩
  · cases h; refine ⟨[], ?_⟩; split <;> exact kept_plain rfl rfl rfl rfl rfl rfl
  · cases h
    exact ⟨[.sleep s.cfg.tickMs], rfl, rfl, rfl, rfl, id, id, id, id, handshakeTrace_event _ rfl, fun _ h => h, id⟩
  · cases h; refine ⟨[], ?_⟩; split <;> exact kept_plain rfl rfl rfl rfl rfl rfl
  · cases h; exact ⟨[], kept_plain rfl rfl rfl rfl rfl rfl⟩

theorem endCommand_keeps {n : Nat} {s t : State} {r : Res (Except ErrorKind Unit)} (hr : CalmOp n s r)
    (h : endCommand r = .next t) : ∃ es, Kept s t es := by
  obtain ⟨es, hk⟩ := hr.keeps
  unfold endCommand at h
  split at h <;> cases h
  · exact ⟨es, hk.trans_plain (kept_plain rfl rfl rfl rfl rfl rfl)⟩
  · exact ⟨es, hk⟩

theorem processAuto_keeps {s t : State} (h : processAuto s = .next t) : Kept s t [] := by
  unfold processAuto at h
  split at h
  · cases h; exact kept_plain rfl rfl rfl rfl rfl rfl
  · have hk := startLoop_keeps s
    split at h <;> cases h <;> (rename_i heq; rw [heq] at hk; exact hk)

theorem processStep_keeps {c : Command} {s t : State} (hB : 1 ≤ s.cfg.pollBudget) (h : processStep c s = .next t) :
    ∃ es, Kept s t es := by
  unfold processStep at h
  split at h
  · cases h; exact ⟨[], kept_plain rfl rfl rfl rfl rfl rfl⟩
  · obtain ⟨es, hk⟩ := acquire_keeps s
    unfold processAcquire at h
    split at h <;> cases h <;> (rename_i heq; rw [heq] at hk; refine ⟨es, ?_⟩) <;>
      first | exact hk | exact hk.trans_plain (kept_plain rfl rfl rfl rfl rfl rfl)
  · split at h <;> cases h <;> exact ⟨[], kept_plain rfl rfl rfl rfl rfl rfl⟩
  · split at h
    · cases h; exact ⟨[], kept_plain rfl rfl rfl rfl rfl rfl⟩
    · rename_i hc _
      unfold processRun at h
      split at h
      · exact endCommand_keeps (setCommand_calmOp _ s hB) h
      · exact endCommand_keeps (set1Command_calmOp _ s hB) h
      · exact endCommand_keeps (set2Command_calmOp _ s hB) h
      · exact endCommand_keeps (dumpCommand_opSpec s hB).calmOp h
      · exact ⟨[], processAuto_keeps h⟩
  · cases h

theorem wordStep_keeps {w : Word} {rest : List Word} {s t : State} (hB : 1 ≤ s.cfg.pollBudget)
    (h : wordStep w rest s = .next t) : ∃ es, Kept s t es := by
  unfold wordStep at h
  split at h
  · cases h; exact ⟨[], raise_keeps (by simp) s⟩
  · rw [exec_eq_next] at h
    subst h
    obtain ⟨es, hk⟩ := exec_keeps ‹Instr› { s with invocation := .program rest } hB
    exact ⟨es, (kept_plain (s := s) (t := { s with invocation := .program rest }) rfl rfl rfl rfl rfl rfl).trans hk⟩

theorem blockStep_keeps {s t : State} (hB : 1 ≤ s.cfg.pollBudget) (h : blockStep s = .next t) : ∃ es, Kept s t es := by
  unfold blockStep at h
  split at h
  · exact loopStep_keeps hB h
  · split at h
    · cases h
    · exact processStep_keeps hB h
    · cases h
    · exact wordStep_keeps hB h

/-! ## The step -/

theorem drawStop_env (e : Env) :
    (drawStop e).2 = { e with stops := (drawStop e).2.stops, count := (drawStop e).2.count } := by
  unfold drawStop; split <;> rfl

/-- The interrupt source's move, field by field: the flag may rise, and its answers are used. -/
theorem interrupt_eq (t : State) :
    interrupt t = { t with stop := t.stop || (drawStop t.env).1,
                           env := { t.env with stops := (drawStop t.env).2.stops, count := (drawStop t.env).2.count } } := by
  unfold interrupt
  simp only [raiseStop, withEnv]
  rw [← drawStop_env]

/-- Everything a step can be: a bad configuration is refused, or the block moves and the interrupt source after it. -/
theorem step_next {s t : State} (h : step s = .next t) :
    s.fault = none ∧ s.stuckInTool = false ∧
      ((configOk s.cfg = false ∧ t = { s with fault := some .badConfig }) ∨
        (configOk s.cfg = true ∧ ∃ u, blockStep s = .next u ∧ t = interrupt u)) := by
  unfold step machineStep at h
  split at h
  · cases h
  · rename_i hf
    split at h
    · cases h
    · rename_i hst
      refine ⟨hf, by simpa using hst, ?_⟩
      split at h
      · rename_i hok
        refine .inr ⟨hok, ?_⟩
        unfold withInterrupt at h
        split at h <;> cases h
        exact ⟨_, ‹_›, rfl⟩
      · rename_i hok
        cases h
        exact .inl ⟨by simpa using hok, by simp [raise, hf]⟩

/-- An enabled step is the block's move with the interrupt source's after it. -/
theorem step_enabled {s : State} (h : Enabled s) : step s = withInterrupt (blockStep s) := by
  simp [step, machineStep, h.1, h.2.1, h.2.2]

end Sys2Proof.Machine
end

