-- ==== Sys2Proof/Laws/Reference.lean ====
section
/-! SUPPORT. Transactions under the reference EC of rule R291: what they return, and what they leave in its registers. -/

namespace Sys2Proof.Machine

/-! ## Status reads -/

theorem twoPow_bit (i j : Fin 8) : (BitVec.twoPow 8 i.val).getLsbD j.val = decide (i = j) := by
  rw [BitVec.getLsbD_twoPow]
  simp [Fin.ext_iff]

theorem ibfEmpty_ref {c : Config} (hc : c.ibfBit ≠ c.obfBit) (r : RefEc) : ibfEmpty c (refStatus c r) = !r.busy := by
  unfold ibfEmpty refStatus
  cases r.busy
  · cases r.latch
    · simp
    · simp only [Bool.false_eq_true, if_false, Option.isSome_some, if_true, twoPow_bit]
      simp [Ne.symm hc]
  · simp only [if_true, twoPow_bit]
    simp

theorem obfFull_ref {c : Config} (hc : c.ibfBit ≠ c.obfBit) (r : RefEc) :
    obfFull c (refStatus c r) = (!r.busy && r.latch.isSome) := by
  unfold obfFull refStatus
  cases r.busy
  · cases r.latch
    · simp
    · simp only [Bool.false_eq_true, if_false, Option.isSome_some, if_true, twoPow_bit]
      simp
  · simp only [if_true, twoPow_bit]
    simp [hc]

theorem portIn_sc_ref {s : State} {r : RefEc} (h : s.env.ec = .reference r) :
    (portIn .sc s).1 = refStatus s.cfg r ∧ (portIn .sc s).2.env.ec = .reference r := by
  simp [portIn, drawPort, h]

theorem portIn_data_ref {s : State} {r : RefEc} (h : s.env.ec = .reference r) :
    (portIn .data s).1 = (refDataIn r).1 ∧ (portIn .data s).2.env.ec = .reference (refDataIn r).2 := by
  simp [portIn, drawPort, h]

theorem refDataIn_regs (r : RefEc) : (refDataIn r).2.regs = r.regs ∧ (refDataIn r).2.busy = r.busy := by
  unfold refDataIn
  split
  · exact ⟨rfl, rfl⟩
  · split <;> exact ⟨rfl, rfl⟩

/-- Polling leaves the reference EC alone, and its status is the same at every poll. -/
theorem poll_ref (cond : Byte → Bool) (n : Nat) {s : State} {r : RefEc} (h : s.env.ec = .reference r) (hn : 1 ≤ n) :
    (poll cond n s).1 = cond (refStatus s.cfg r) ∧ (poll cond n s).2.env.ec = .reference r := by
  induction n generalizing s with
  | zero => omega
  | succ k ih =>
    unfold poll
    simp only
    have ha := portIn_sc_ref (s := setAttempt (s.chan.attempt + 1) s) h
    set a := portIn .sc (setAttempt (s.chan.attempt + 1) s) with hadef
    have hval : a.1 = refStatus s.cfg r := ha.1
    rw [hval]
    by_cases hc : cond (refStatus s.cfg r) = true
    · simp only [hc, if_true]; exact ⟨trivial, ha.2⟩
    · by_cases hk : k = 0
      · simp only [hc, hk, if_true, Bool.false_eq_true, if_false]
        exact ⟨trivial, ha.2⟩
      · simp only [hc, hk, Bool.false_eq_true, if_false]
        have := ih (s := sleep a.2.cfg.pollIntervalMs a.2) ha.2 (by omega)
        have hcfg : (sleep a.2.cfg.pollIntervalMs a.2).cfg = s.cfg := rfl
        rw [hcfg] at this
        simpa [hc] using this

theorem wait_ref (cond : Byte → Bool) (p : ChanPhase) {s : State} {r : RefEc} (h : s.env.ec = .reference r)
    (hB : 1 ≤ s.cfg.pollBudget) :
    (wait cond (setPhase p s)).1 = cond (refStatus s.cfg r) ∧ (wait cond (setPhase p s)).2.env.ec = .reference r :=
  poll_ref cond _ (s := setAttempt 0 (setPhase p s)) h hB

/-- What a read or a write may do to the reference EC: its cells change only where a duty register is stored to. -/
structure RefMove (c : Config) (stores : Bool) (r r' : RefEc) : Prop where
  busy : r'.busy = r.busy
  wf : Memory.wf r.regs = true → Memory.wf r'.regs = true
  same : stores = false → r'.regs = r.regs
  off : Memory.wf r.regs = true → ∀ x, x ≠ c.regDuty.one.toNat → x ≠ c.regDuty.two.toNat →
    cellRead r'.regs x = cellRead r.regs x

theorem RefMove.refl (c : Config) (b : Bool) (r : RefEc) : RefMove c b r r :=
  ⟨rfl, id, fun _ => rfl, fun _ _ _ _ => rfl⟩

theorem refMove_of_regs {c : Config} {b : Bool} {r r' : RefEc} (h1 : r'.regs = r.regs) (h2 : r'.busy = r.busy) :
    RefMove c b r r' := ⟨h2, by rw [h1]; exact id, fun _ => h1, fun _ _ _ _ => by rw [h1]⟩

theorem RefMove.trans {c : Config} {b : Bool} {r r' r'' : RefEc} (h1 : RefMove c b r r') (h2 : RefMove c b r' r'') :
    RefMove c b r r'' :=
  ⟨h2.busy.trans h1.busy, fun h => h2.wf (h1.wf h), fun h => (h2.same h).trans (h1.same h),
    fun h x h3 h4 => (h2.off (h1.wf h) x h3 h4).trans (h1.off h x h3 h4)⟩

theorem RefMove.stores {c : Config} {r r' : RefEc} (h : RefMove c false r r') : RefMove c true r r' :=
  ⟨h.busy, h.wf, (by simp), h.off⟩

/-! ## Reads -/

theorem refCommand_regs (c : Config) (v : Byte) (r : RefEc) :
    (refCommand c v r).regs = r.regs ∧ (refCommand c v r).busy = r.busy ∧ (refCommand c v r).latch = r.latch := by
  unfold refCommand
  split
  · exact ⟨rfl, rfl, rfl⟩
  · split <;> exact ⟨rfl, rfl, rfl⟩

theorem refCommand_read (c : Config) (r : RefEc) : refCommand c c.cmdRead r = { r with stage := .readAddr } := by
  simp [refCommand]

theorem readWait_ref (k : Nat) (cond : Byte → Bool) (p : ChanPhase) {s : State} {r : RefEc} (h : s.env.ec = .reference r)
    (hB : 1 ≤ s.cfg.pollBudget) :
    (readWait k cond p s).2.env.ec = .reference r ∧
      (cond (refStatus s.cfg r) = true → (readWait k cond p s).1 = true ∧
        (readWait k cond p s).2.chan.timedOut = s.chan.timedOut) := by
  obtain ⟨h1, h2⟩ := wait_ref cond p h hB
  obtain ⟨bs, hseg, hends, hch⟩ := wait_in_phase cond p s hB
  unfold readWait
  simp only
  by_cases hw : (wait cond (setPhase p s)).1 = true
  · rw [if_pos hw]; exact ⟨h2, fun _ => ⟨hw, by rw [hch]⟩⟩
  · rw [if_neg hw]
    refine ⟨?_, fun hc => absurd (h1.trans hc) hw⟩
    split <;> exact h2

/-- A read under the reference EC: its registers are untouched; not busy, it completes in time with the byte there. -/
theorem readSequence_ref {s : State} {r : RefEc} (h : s.env.ec = .reference r) (hc : configOk s.cfg = true) :
    ∃ r', (readSequence s).2.env.ec = .reference r' ∧ r'.regs = r.regs ∧ r'.busy = r.busy ∧
      (r.busy = false → (readSequence s).1 = cellRead r.regs s.chan.addr.toNat ∧
        (readSequence s).2.chan.timedOut = s.chan.timedOut) := by
  have hB := budget_of_ok hc
  have hbits := ((configOk_iff _).1 hc).2.1
  obtain ⟨e1, t1⟩ := readWait_ref 1 (ibfEmpty s.cfg) .rW1 h hB
  rw [ibfEmpty_ref hbits] at t1
  obtain ⟨bs1, ok1, hs1, -, hc1, -⟩ := readWait_spec 1 (ibfEmpty s.cfg) .rW1 s hB
  unfold readSequence
  simp only
  set w1 := readWait 1 (ibfEmpty s.cfg) .rW1 s with hw1
  by_cases g1 : w1.1 = true
  · rw [if_pos g1]
    set p1 := portOut .sc s.cfg.cmdRead w1.2 with hp1
    have hcfg1 : p1.cfg = s.cfg := hs1.cfg
    have ep1 : p1.env.ec = .reference { r with stage := .readAddr } := by
      have : p1.env.ec = ecAfterOut w1.2.cfg .sc s.cfg.cmdRead w1.2.env.ec := rfl
      rw [this, e1, hs1.cfg]
      simp [ecAfterOut, refCommand_read]
    obtain ⟨e2, t2⟩ := readWait_ref 2 (ibfEmpty s.cfg) .rW2 ep1 (by rw [hcfg1]; exact hB)
    rw [hcfg1, ibfEmpty_ref hbits] at t2
    obtain ⟨bs2, ok2, hs2, -, hc2, -⟩ := readWait_spec 2 (ibfEmpty s.cfg) .rW2 p1 (by rw [hcfg1]; exact hB)
    set w2 := readWait 2 (ibfEmpty s.cfg) .rW2 p1 with hw2
    by_cases g2 : w2.1 = true
    · rw [if_pos g2]
      set p2 := portOut .data w2.2.chan.addr w2.2 with hp2
      have hcfg2 : p2.cfg = s.cfg := hs2.cfg.trans hcfg1
      have haddr : w2.2.chan.addr = s.chan.addr := by rw [hc2]; simp [hp1, hc1]
      have ep2 : p2.env.ec =
          .reference { r with stage := .idle, latch := some (cellRead r.regs s.chan.addr.toNat) } := by
        have : p2.env.ec = ecAfterOut w2.2.cfg .data w2.2.chan.addr w2.2.env.ec := rfl
        rw [this, e2, haddr]
        simp [ecAfterOut, refDataOut]
      obtain ⟨e3, t3⟩ := readWait_ref 3 (obfFull s.cfg) .rW3 ep2 (by rw [hcfg2]; exact hB)
      rw [hcfg2, obfFull_ref hbits] at t3
      set w3 := readWait 3 (obfFull s.cfg) .rW3 p2 with hw3
      obtain ⟨d1, d2⟩ := portIn_data_ref e3
      refine ⟨_, d2, (refDataIn_regs _).1, (refDataIn_regs _).2, fun hb => ⟨?_, ?_⟩⟩
      · show (portIn .data w3.2).1 = _
        rw [d1]; simp [refDataIn, hb]
      · show (portIn .data w3.2).2.chan.timedOut = _
        rw [portIn_chan, (t3 (by simp [hb])).2]
        show w2.2.chan.timedOut = _
        rw [(t2 (by simp [hb])).2]
        exact (t1 (by simp [hb])).2
    · rw [if_neg g2]
      obtain ⟨d1, d2⟩ := portIn_data_ref e2
      refine ⟨_, d2, (refDataIn_regs _).1, (refDataIn_regs _).2, fun hb => absurd (t2 (by simp [hb])).1 g2⟩
  · rw [if_neg g1]
    obtain ⟨d1, d2⟩ := portIn_data_ref e1
    exact ⟨_, d2, (refDataIn_regs _).1, (refDataIn_regs _).2, fun hb => absurd (t1 (by simp [hb])).1 g1⟩

theorem takeResult_ec (s : State) : (takeResult s).env.ec = s.env.ec := rfl

theorem ecRead_ref {s : State} {r : RefEc} (addr : Byte) (hr : Ready s) (h : s.env.ec = .reference r)
    (hc : configOk s.cfg = true) :
    ∃ v late t r', ecRead addr s = .done (v, late) t ∧ t.env.ec = .reference r' ∧ r'.regs = r.regs ∧ r'.busy = r.busy ∧
      (r.busy = false → v = cellRead r.regs addr.toNat ∧ late = false) := by
  obtain ⟨r', h1, h2, h3, h4⟩ := readSequence_ref (s := beginRead addr s) h hc
  refine ⟨_, _, takeResult (readSequence (beginRead addr s)).2, r', ?_, h1, h2, h3, fun hb => h4 hb⟩
  simp [ecRead, channelFault_none.2 hr]

/-! ## Writes -/

/-- The registers after a completed write (rules R59, R291). -/
def storedRegs (c : Config) (cmd addr value : Byte) (m : List Host.Cell) : List Host.Cell :=
  if cmd = c.cmdRead then m
  else if cmd = c.cmdSetDuty then refSetDuty c addr value .two (refSetDuty c addr value .one m)
  else m

theorem writeSequence_ref {s : State} {r : RefEc} (h : s.env.ec = .reference r) (hc : configOk s.cfg = true) :
    ∃ r', (writeSequence s).2.env.ec = .reference r' ∧ r'.busy = r.busy ∧
      (r.busy = true → r' = r ∧ (writeSequence s).1 = .error (.timeoutError 1)) ∧
      (r.busy = false → (writeSequence s).1 = .ok () ∧
        r'.regs = storedRegs s.cfg s.chan.cmd s.chan.addr s.chan.value r.regs) := by
  have hB := budget_of_ok hc
  have hbits := ((configOk_iff _).1 hc).2.1
  obtain ⟨v1, e1⟩ := wait_ref (ibfEmpty s.cfg) .wW1 h hB
  rw [ibfEmpty_ref hbits] at v1
  obtain ⟨bs1, hs1, -, hc1⟩ := wait_in_phase (ibfEmpty s.cfg) .wW1 s hB
  unfold writeSequence
  simp only
  set w1 := wait (ibfEmpty s.cfg) (setPhase .wW1 s) with hw1
  cases hb : r.busy with
  | true =>
    rw [hb] at v1
    simp only [v1, Bool.not_true, Bool.false_eq_true, if_false]
    exact ⟨r, e1, hb, fun _ => ⟨rfl, rfl⟩, by simp⟩
  | false =>
    rw [hb] at v1
    simp only [v1, Bool.not_false, if_true]
    set p1 := portOut .sc w1.2.chan.cmd w1.2 with hp1
    have hcfg1 : p1.cfg = s.cfg := hs1.cfg
    have hcmd : w1.2.chan.cmd = s.chan.cmd := by rw [hc1]
    have ep1 : p1.env.ec = .reference (refCommand s.cfg s.chan.cmd r) := by
      have : p1.env.ec = ecAfterOut w1.2.cfg .sc w1.2.chan.cmd w1.2.env.ec := rfl
      rw [this, e1, hs1.cfg, hcmd]
      rfl
    obtain ⟨r1, b1, l1⟩ := refCommand_regs s.cfg s.chan.cmd r
    obtain ⟨v2, e2⟩ := wait_ref (ibfEmpty s.cfg) .wW2 ep1 (by rw [hcfg1]; exact hB)
    rw [hcfg1, ibfEmpty_ref hbits, b1, hb] at v2
    obtain ⟨bs2, hs2, -, hc2⟩ := wait_in_phase (ibfEmpty s.cfg) .wW2 p1 (by rw [hcfg1]; exact hB)
    set w2 := wait (ibfEmpty s.cfg) (setPhase .wW2 p1) with hw2
    simp only [v2, Bool.not_false, if_true]
    set p2 := portOut .data w2.2.chan.addr w2.2 with hp2
    have hcfg2 : p2.cfg = s.cfg := hs2.cfg.trans hcfg1
    have haddr : w2.2.chan.addr = s.chan.addr := by rw [hc2]; simp [hp1, hc1]
    have ep2 : p2.env.ec = .reference (refDataOut s.cfg s.chan.addr (refCommand s.cfg s.chan.cmd r)) := by
      have : p2.env.ec = ecAfterOut w2.2.cfg .data w2.2.chan.addr w2.2.env.ec := rfl
      rw [this, e2, haddr, hs2.cfg, hcfg1]
      rfl
    have b2 : (refDataOut s.cfg s.chan.addr (refCommand s.cfg s.chan.cmd r)).busy = false := by
      unfold refDataOut
      split <;> simp [b1, hb]
    obtain ⟨v3, e3⟩ := wait_ref (ibfEmpty s.cfg) .wW3 ep2 (by rw [hcfg2]; exact hB)
    rw [hcfg2, ibfEmpty_ref hbits, b2] at v3
    obtain ⟨bs3, hs3, -, hc3⟩ := wait_in_phase (ibfEmpty s.cfg) .wW3 p2 (by rw [hcfg2]; exact hB)
    set w3 := wait (ibfEmpty s.cfg) (setPhase .wW3 p2) with hw3
    simp only [v3, Bool.not_false, if_true]
    set p3 := portOut .data w3.2.chan.value w3.2 with hp3
    have hcfg3 : p3.cfg = s.cfg := hs3.cfg.trans hcfg2
    have hval : w3.2.chan.value = s.chan.value := by rw [hc3]; simp [hp2, hc2, hp1, hc1]
    set rf := refDataOut s.cfg s.chan.value (refDataOut s.cfg s.chan.addr (refCommand s.cfg s.chan.cmd r)) with hrf
    have ep3 : p3.env.ec = .reference rf := by
      have : p3.env.ec = ecAfterOut w3.2.cfg .data w3.2.chan.value w3.2.env.ec := rfl
      rw [this, e3, hval, hs3.cfg, hcfg2]
      rfl
    have hfin : rf.busy = false ∧ rf.regs = storedRegs s.cfg s.chan.cmd s.chan.addr s.chan.value r.regs := by
      rw [hrf]
      unfold storedRegs refCommand
      split
      · simp [refDataOut, hb]
      · split
        · simp [refDataOut, hb]
        · simp [refDataOut, hb]
    obtain ⟨v4, e4⟩ := wait_ref (ibfEmpty s.cfg) .wW4 ep3 (by rw [hcfg3]; exact hB)
    rw [hcfg3, ibfEmpty_ref hbits, hfin.1] at v4
    simp only [v4, Bool.not_false, if_true]
    exact ⟨rf, e4, hfin.1, by simp, fun _ => ⟨rfl, hfin.2⟩⟩

theorem ecWrite_ref {s : State} {r : RefEc} (cmd addr value : Byte) (hr : Ready s) (h : s.env.ec = .reference r)
    (hc : configOk s.cfg = true) :
    ∃ u t r', ecWrite cmd addr value s = .done u t ∧ t.env.ec = .reference r' ∧ r'.busy = r.busy ∧
      (r.busy = true → r' = r ∧ u = .error (.timeoutError 1)) ∧
      (r.busy = false → u = .ok () ∧ r'.regs = storedRegs s.cfg cmd addr value r.regs) := by
  obtain ⟨r', h1, h2, h3, h4⟩ := writeSequence_ref (s := beginWrite cmd addr value s) h hc
  refine ⟨_, takeResult (writeSequence (beginWrite cmd addr value s)).2, r', ?_, h1, h2, h3, h4⟩
  simp [ecWrite, channelFault_none.2 hr]

/-- What a register reads as after a completed write (rules R59, R291). -/
theorem cellRead_stored (c : Config) (cmd addr value : Byte) {m : List Host.Cell} (hm : Memory.wf m = true) (x : Nat) :
    cellRead (storedRegs c cmd addr value m) x =
      if cmd = c.cmdSetDuty ∧ cmd ≠ c.cmdRead ∧
          ((c.subAddr.one = addr ∧ c.regDuty.one.toNat = x) ∨ (c.subAddr.two = addr ∧ c.regDuty.two.toNat = x))
        then value else cellRead m x := by
  unfold storedRegs
  by_cases h1 : cmd = c.cmdRead
  · simp [h1]
  · by_cases h2 : cmd = c.cmdSetDuty
    · have hm1 := refSetDuty_wf c addr value .one m hm
      simp only [h2, if_true]
      have hne : ¬c.cmdSetDuty = c.cmdRead := by rw [← h2]; exact h1
      simp only [hne, if_false, ne_eq, not_false_eq_true, true_and]
      have read : ∀ (ch : Channel) (m : List Host.Cell), Memory.wf m = true →
          cellRead (refSetDuty c addr value ch m) x =
            if forChannel c.subAddr ch = addr ∧ (forChannel c.regDuty ch).toNat = x then value else cellRead m x := by
        intro ch m hm
        unfold refSetDuty
        by_cases hs : forChannel c.subAddr ch = addr
        · rw [if_pos hs, cellRead_cellWrite m hm]
          by_cases hx : x = (forChannel c.regDuty ch).toNat
          · simp [hs, hx]
          · simp [hs, hx, Ne.symm hx]
        · simp [hs]
      rw [read .two _ hm1, read .one m hm]
      simp only [forChannel]
      by_cases a1 : c.subAddr.two = addr ∧ c.regDuty.two.toNat = x
      · simp [a1]
      · by_cases a2 : c.subAddr.one = addr ∧ c.regDuty.one.toNat = x
        · simp [a1, a2]
        · simp only [a1, a2, if_false, or_self]
    · simp [h1, h2]

theorem storedRegs_wf (c : Config) (cmd addr value : Byte) {m : List Host.Cell} (hm : Memory.wf m = true) :
    Memory.wf (storedRegs c cmd addr value m) = true := by
  unfold storedRegs
  split
  · exact hm
  · split
    · exact refSetDuty_wf _ _ _ _ _ (refSetDuty_wf _ _ _ _ _ hm)
    · exact hm

/-! ## What the operations leave in the registers -/

/-- From `s` to `t` the reference EC's registers change in the duty registers at most, and not at all with
`stores = false`. -/
def Leaves (stores : Bool) (s t : State) : Prop :=
  ∀ r, s.env.ec = .reference r → ∃ r', t.env.ec = .reference r' ∧ RefMove s.cfg stores r r'

theorem leaves_of_ec {b : Bool} {s t : State} (h : t.env.ec = s.env.ec) : Leaves b s t :=
  fun r hr => ⟨r, h.trans hr, RefMove.refl _ _ _⟩

theorem Leaves.trans {b : Bool} {s t u : State} (hc : t.cfg = s.cfg) (h1 : Leaves b s t) (h2 : Leaves b t u) :
    Leaves b s u := fun r hr => by
  obtain ⟨r', h3, h4⟩ := h1 r hr
  obtain ⟨r'', h5, h6⟩ := h2 r' h3
  rw [hc] at h6
  exact ⟨r'', h5, h4.trans h6⟩

theorem Leaves.stores {s t : State} (h : Leaves false s t) : Leaves true s t := fun r hr => by
  obtain ⟨r', h1, h2⟩ := h r hr
  exact ⟨r', h1, h2.stores⟩

/-- An operation in two parts, the first of which leaves the configuration alone. -/
theorem leaves_andThen {α β : Type} {b : Bool} {n : Nat} {s : State} {r : Res α} {k : α → State → Res β}
    (hk : CalmOp n s r) (h1 : Leaves b s r.after)
    (h2 : ∀ a t, r = .done a t → t.cfg = s.cfg → Leaves b t (k a t).after) : Leaves b s (andThen r k).after := by
  cases r with
  | halted t => exact h1
  | done a t =>
    have hc : t.cfg = s.cfg := hk.calm.elim fun es he => he.cfg
    exact h1.trans hc (h2 a t rfl hc)

theorem leaves_map {α β : Type} {b : Bool} {n : Nat} {s : State} {r : Res α} {f : α → β} (hk : CalmOp n s r)
    (h1 : Leaves b s r.after) : Leaves b s (andThen r fun a t => .done (f a) t).after :=
  leaves_andThen hk h1 fun _ _ _ _ => leaves_of_ec rfl

theorem faultRes_leaves {α : Type} {b : Bool} (f : FaultKind) (s : State) :
    Leaves b s (faultRes f s : Res α).after := leaves_of_ec (by simp [faultRes])

theorem ecRead_leaves (a : Byte) (s : State) (hc : configOk s.cfg = true) : Leaves false s (ecRead a s).after := by
  intro r hr
  by_cases hrd : Ready s
  · obtain ⟨v, late, t, r', h1, h2, h3, h4, -⟩ := ecRead_ref a hrd hr hc
    rw [h1]; exact ⟨r', h2, refMove_of_regs h3 h4⟩
  · obtain ⟨f, hf⟩ := Option.ne_none_iff_exists'.1 (mt channelFault_none.1 hrd)
    rw [ecRead, hf]
    exact faultRes_leaves f s r hr

theorem fanDutyWrite_leaves (ch : Channel) (p : Int) (s : State) (hc : configOk s.cfg = true) :
    Leaves true s (fanDutyWrite ch p s).after := by
  intro r hr
  unfold fanDutyWrite
  by_cases hrd : Ready s
  · obtain ⟨u, t, r', h1, h2, h3, h4, h5⟩ := ecWrite_ref s.cfg.cmdSetDuty (forChannel s.cfg.subAddr ch)
      (rawFromDuty s.cfg (clamp p 0 100)) hrd hr hc
    rw [h1]
    refine ⟨r', h2, h3, fun hw => ?_, by simp, fun hw x hx1 hx2 => ?_⟩
    · cases hb : r.busy with
      | true => rw [(h4 hb).1]; exact hw
      | false => rw [(h5 hb).2]; exact storedRegs_wf _ _ _ _ hw
    · cases hb : r.busy with
      | true => rw [(h4 hb).1]
      | false =>
        rw [(h5 hb).2, cellRead_stored _ _ _ _ hw]
        simp [Ne.symm hx1, Ne.symm hx2]
  · obtain ⟨f, hf⟩ := Option.ne_none_iff_exists'.1 (mt channelFault_none.1 hrd)
    rw [ecWrite, hf]
    exact faultRes_leaves f s r hr

theorem readByte_leaves (a : Byte) (s : State) (hc : configOk s.cfg = true) : Leaves false s (readByte a s).after :=
  leaves_map (ecRead_opSpec a s (budget_of_ok hc)).calmOp (ecRead_leaves a s hc)

theorem cpuTempRead_leaves (s : State) (hc : configOk s.cfg = true) : Leaves false s (cpuTempRead s).after :=
  leaves_map (readByte_opSpec _ s (budget_of_ok hc)).calmOp (readByte_leaves _ s hc)

theorem gpuTempEcRead_leaves (s : State) (hc : configOk s.cfg = true) : Leaves false s (gpuTempEcRead s).after :=
  leaves_map (readByte_opSpec _ s (budget_of_ok hc)).calmOp (readByte_leaves _ s hc)

theorem fanDutyRead_leaves (ch : Channel) (s : State) (hc : configOk s.cfg = true) :
    Leaves false s (fanDutyRead ch s).after :=
  leaves_map (readByte_opSpec _ s (budget_of_ok hc)).calmOp (readByte_leaves _ s hc)

theorem fanRpmRead_leaves (ch : Channel) (s : State) (hc : configOk s.cfg = true) :
    Leaves false s (fanRpmRead ch s).after :=
  leaves_andThen (readByte_opSpec _ s (budget_of_ok hc)).calmOp (readByte_leaves _ s hc) fun _ t _ ht =>
    leaves_map (readByte_opSpec _ t (budget_of_ok (ht ▸ hc))).calmOp (readByte_leaves _ t (ht ▸ hc))

theorem resolveCpu_leaves (s : State) (hc : configOk s.cfg = true) : Leaves false s (resolveCpu s).after :=
  leaves_map (cpuTempRead_opSpec s (budget_of_ok hc)).calmOp (cpuTempRead_leaves s hc)

theorem scanInputs_ec (e k n : Nat) (best : Option Int) (s : State) :
    (scanInputs e k n best s).2.env.ec = s.env.ec := by
  induction n generalizing k best s with
  | zero => rfl
  | succ m ih => exact (ih (k + 1) _ _).trans (drawTemp_env _).1

theorem scanEntries_ec (l : List Nat) (best : Option Int) (s : State) :
    (scanEntries l best s).2.env.ec = s.env.ec := by
  induction l generalizing best s with
  | nil => rfl
  | cons e rest ih =>
    have hn : (sysfsName e s).2.env.ec = s.env.ec := (drawName_env _).1
    unfold scanEntries
    simp only
    split
    · exact (ih _ _).trans hn
    · split
      · exact ((ih _ _).trans (scanInputs_ec _ _ _ _ _)).trans hn
      · exact (ih _ _).trans hn

theorem sysfsStage_ec (s : State) : (sysfsStage s).2.env.ec = s.env.ec :=
  (scanEntries_ec _ _ _).trans (drawEntries_env _).1

theorem vendorStage_leaves (s : State) : (vendorStage s).after.env.ec = s.env.ec := by
  have hx : (toolExists s).2.env.ec = s.env.ec := (drawFileTest_env _).1
  unfold vendorStage
  simp only
  split
  · refine andThen_after (P := fun t => t.env.ec = s.env.ec) ?_ fun out t ht => ?_
    · unfold runTool
      simp only
      split <;> exact (drawToolRun_env _).1.trans hx
    · have : (runTool (toolExists s).2).after.env.ec = s.env.ec := by
        unfold runTool
        simp only
        split <;> exact (drawToolRun_env _).1.trans hx
      rw [ht] at this
      exact this
  · exact hx

theorem resolveGpu_leaves (s : State) (hc : configOk s.cfg = true) : Leaves false s (resolveGpu s).after := by
  obtain ⟨es, -, hf, -⟩ := sysfsStage_spec s
  have hcfg := hf.quiet.cfg
  refine Leaves.trans hcfg (leaves_of_ec (sysfsStage_ec s)) ?_
  have hc' : configOk (sysfsStage s).2.cfg = true := by rw [hcfg]; exact hc
  unfold resolveGpu
  simp only
  generalize (sysfsStage s).2 = u at hc'
  cases (sysfsStage s).1 with
  | ok v => exact leaves_of_ec rfl
  | error e =>
    refine leaves_andThen (vendorStage_opSpec u).calmOp (leaves_of_ec (vendorStage_leaves u)) fun r2 t _ ht => ?_
    have hct : configOk t.cfg = true := ht ▸ hc'
    cases r2 with
    | ok v => exact leaves_of_ec rfl
    | error e => exact leaves_map (gpuTempEcRead_opSpec t (budget_of_ok hct)).calmOp (gpuTempEcRead_leaves t hct)

theorem fanReport_leaves (ch : Channel) (s : State) (hc : configOk s.cfg = true) :
    Leaves false s (fanReport ch s).after :=
  leaves_andThen (fanDutyRead_opSpec ch s (budget_of_ok hc)).calmOp (fanDutyRead_leaves ch s hc) fun _ t _ ht =>
    leaves_map (fanRpmRead_opSpec ch t (budget_of_ok (ht ▸ hc))).calmOp (fanRpmRead_leaves ch t (ht ▸ hc))

theorem reportWith_leaves (cpu gpu : Reading) (s : State) (hc : configOk s.cfg = true) :
    Leaves false s (reportWith cpu gpu s).after :=
  leaves_andThen (fanReport_opSpec .one s (budget_of_ok hc)).calmOp (fanReport_leaves .one s hc) fun _ t _ ht =>
    leaves_andThen (fanReport_opSpec .two t (budget_of_ok (ht ▸ hc))).calmOp (fanReport_leaves .two t (ht ▸ hc))
      fun _ _ _ _ => leaves_of_ec rfl

theorem reportAlone_leaves (s : State) (hc : configOk s.cfg = true) : Leaves false s (reportAlone s).after :=
  leaves_andThen (resolveCpu_opSpec s (budget_of_ok hc)).calmOp (resolveCpu_leaves s hc) fun _ t _ ht =>
    leaves_andThen (resolveGpu_opSpec t (budget_of_ok (ht ▸ hc))).calmOp (resolveGpu_leaves t (ht ▸ hc))
      fun _ u _ hu => reportWith_leaves _ _ u (by rw [hu, ht]; exact hc)

theorem writeBoth_leaves (d : Int) (s : State) (hc : configOk s.cfg = true) : Leaves true s (writeBoth d s).after :=
  leaves_andThen (fanDutyWrite_opSpec .one d s (budget_of_ok hc)).calmOp (fanDutyWrite_leaves .one d s hc)
    fun _ t _ ht => leaves_map (f := fun r2 => (_, r2))
      (fanDutyWrite_opSpec .two d t (budget_of_ok (ht ▸ hc))).calmOp (fanDutyWrite_leaves .two d t (ht ▸ hc))

theorem applyDuty_leaves (last duty : Int) (s : State) (hc : configOk s.cfg = true) :
    Leaves true s (applyDuty last duty s).after := by
  unfold applyDuty
  split
  · exact leaves_of_ec rfl
  · refine leaves_andThen (writeBoth_opSpec duty s (budget_of_ok hc)).calmOp (writeBoth_leaves duty s hc)
      fun r t _ _ => leaves_of_ec ?_
    show (if bothOk r then { t with ctl := some duty } else t).env.ec = t.env.ec
    split <;> rfl

theorem controlCycle_leaves (s : State) (hc : configOk s.cfg = true) : Leaves true s (controlCycle s).after := by
  unfold controlCycle
  split
  · exact faultRes_leaves _ s
  · rename_i last _
    refine leaves_andThen (resolveCpu_opSpec s (budget_of_ok hc)).calmOp (resolveCpu_leaves s hc).stores
      fun cpu t _ ht => ?_
    have hct : configOk t.cfg = true := ht ▸ hc
    refine leaves_andThen (resolveGpu_opSpec t (budget_of_ok hct)).calmOp (resolveGpu_leaves t hct).stores
      fun gpu u _ hu => ?_
    have hcu : configOk u.cfg = true := hu ▸ hct
    simp only
    set v := setOverride (targetDuty u.cfg (hot cpu gpu) last).2 u
    refine Leaves.trans (t := v) rfl (leaves_of_ec rfl) ?_
    refine leaves_andThen (applyDuty_calmOp last _ v (budget_of_ok hcu)) (applyDuty_leaves last _ v hcu)
      fun _ w _ hw => ?_
    have hcw : configOk w.cfg = true := hw ▸ hcu
    exact leaves_andThen (reportWith_opSpec cpu gpu w (budget_of_ok hcw)).calmOp (reportWith_leaves cpu gpu w hcw).stores
      fun _ _ _ _ => leaves_of_ec rfl

theorem manualCommand_leaves {n : Nat} (p : Except Rejected Int) (write : Int → State → Res Bool) (s : State)
    (hc : configOk s.cfg = true) (hw : ∀ d, OpSpec n s (write d s)) (hl : ∀ d, Leaves true s (write d s).after) :
    Leaves true s (manualCommand p write s).after := by
  unfold manualCommand
  split
  · exact faultRes_leaves _ s
  · split
    · exact leaves_of_ec rfl
    · refine leaves_andThen (hw _).calmOp (hl _) fun ok t _ ht => ?_
      have hct : configOk t.cfg = true := ht ▸ hc
      unfold reportAfter
      cases ok with
      | true => exact (leaves_map (f := fun _ => (Except.ok () : Except ErrorKind Unit))
          (reportAlone_opSpec t (budget_of_ok hct)).calmOp (reportAlone_leaves t hct)).stores
      | false =>
        exact (Leaves.trans (t := failCommand t) rfl (leaves_of_ec rfl)
          (leaves_map (f := fun _ => (Except.ok () : Except ErrorKind Unit))
            (reportAlone_opSpec (failCommand t) (budget_of_ok hct)).calmOp
            (reportAlone_leaves (failCommand t) hct))).stores

end Sys2Proof.Machine
end

