-- ==== Sys2Proof/Laws/EcRuns.lean ====
section
/-! SUPPORT. The reference EC of rule R291 along a run (`EcRun`): what its register file keeps, whatever the block does. -/

namespace Sys2Proof.Machine

/-! ## Single transactions and operations -/

theorem ready_of_ecRead {a : Byte} {x : Byte × Bool} {s t : State} (h : ecRead a s = .done x t) : Ready s := by
  by_contra hn
  obtain ⟨f, hf⟩ := Option.ne_none_iff_exists'.1 (mt channelFault_none.1 hn)
  rw [ecRead, hf] at h; cases h

theorem ready_of_ecWrite {c a v : Byte} {x : Except ErrorKind Unit} {s t : State} (h : ecWrite c a v s = .done x t) :
    Ready s := by
  by_contra hn
  obtain ⟨f, hf⟩ := Option.ne_none_iff_exists'.1 (mt channelFault_none.1 hn)
  rw [ecWrite, hf] at h; cases h

/-- A read of an EC that is not busy returns its cell, in time, and leaves the registers. -/
theorem ecRead_done_ref {s t : State} {a : Byte} {x : Byte × Bool} {r : RefEc} (hc : configOk s.cfg = true)
    (hr : s.env.ec = .reference r) (hb : r.busy = false) (h : ecRead a s = .done x t) :
    t.cfg = s.cfg ∧ x = (cellRead r.regs a.toNat, false) ∧
      ∃ r', t.env.ec = .reference r' ∧ r'.regs = r.regs ∧ r'.busy = false := by
  have hrd := ready_of_ecRead h
  obtain ⟨v', l', t', r', h1, h2, h3, h4, h5⟩ := ecRead_ref a hrd hr hc
  obtain ⟨v, ts, t2, es, hrun, -⟩ := ecRead_run a hrd (budget_of_ok hc)
  have e := hrun.eq
  rw [h1] at e h
  cases h; cases e
  obtain ⟨rfl, h7⟩ := h5 hb
  exact ⟨hrun.cfg, by rw [h7], r', h2, h3, h4.trans hb⟩

/-- A write to an EC that is not busy succeeds and stores as rule R291 says. -/
theorem ecWrite_done_ref {s t : State} {c a v : Byte} {x : Except ErrorKind Unit} {r : RefEc}
    (hc : configOk s.cfg = true) (hr : s.env.ec = .reference r) (hb : r.busy = false) (h : ecWrite c a v s = .done x t) :
    t.cfg = s.cfg ∧ x = .ok () ∧
      ∃ r', t.env.ec = .reference r' ∧ r'.regs = storedRegs s.cfg c a v r.regs ∧ r'.busy = false := by
  have hrd := ready_of_ecWrite h
  obtain ⟨v', t', r', h1, h2, h3, -, h5⟩ := ecWrite_ref c a v hrd hr hc
  obtain ⟨_, t2, es, hrun, -⟩ := ecWrite_run c a v hrd (budget_of_ok hc)
  have e := hrun.eq
  rw [h1] at e h
  cases h; cases e
  exact ⟨hrun.cfg, (h5 hb).1, r', h2, (h5 hb).2, h3.trans hb⟩

theorem Leaves.returned {α : Type} {b : Bool} {s : State} {r : Res α} (h : Leaves b s r.after) (f : α → OpResult) :
    Leaves b s (Machine.returned f r) := fun q hq => by
  obtain ⟨r', h1, h2⟩ := h q hq
  refine ⟨r', ?_, h2⟩
  cases r <;> exact h1

/-- An operation that stores nothing leaves the reference EC's registers. -/
theorem exec_leaves {i : Instr} (s : State) (hc : configOk s.cfg = true) (hi : storesNothing i = true) :
    Leaves false s (execState i s) := by
  cases i <;> simp [storesNothing] at hi
  case dump =>
    exact (leaves_map (f := fun _ => (Except.ok () : Except ErrorKind Unit))
      (reportAlone_opSpec s (budget_of_ok hc)).calmOp (reportAlone_leaves s hc)).returned _
  case auto =>
    refine Leaves.returned (r := startLoop s) (leaves_of_ec ?_) _
    rcases startLoop_after s with ⟨f, -, h⟩ | ⟨-, -, h⟩ | ⟨-, -, h⟩ <;> rw [h] <;> simp [faultRes]
  case acquire =>
    refine Leaves.returned (r := acquire s) (leaves_of_ec ?_) _
    rcases acquire_after s with ⟨-, h⟩ | ⟨-, g, r, h, -, -⟩ <;> rw [h]
    · simp [faultRes]
    · exact drawGrant_ec _
  case ecRead a => exact (ecRead_leaves a s hc).returned _
  case cpuTempRead => exact (cpuTempRead_leaves s hc).returned _
  case gpuTempEcRead => exact (gpuTempEcRead_leaves s hc).returned _
  case fanDutyRead ch => exact (fanDutyRead_leaves ch s hc).returned _
  case fanRpmRead ch => exact (fanRpmRead_leaves ch s hc).returned _
  case resolveCpu => exact (resolveCpu_leaves s hc).returned _
  case resolveGpu => exact (resolveGpu_leaves s hc).returned _
  case targetDuty a b =>
    apply leaves_of_ec; simp only [execState, exec, execTargetDuty]
    by_cases hp : b.toNat ≤ 100 <;> simp [hp, setOverride]
  case rateLimit o a b =>
    apply leaves_of_ec; simp only [execState, exec, execRateLimit]
    by_cases hp : a.toNat ≤ 100 ∧ b.toNat ≤ 100 <;> simp [hp]
  case report => exact (reportAlone_leaves s hc).returned _

/-! ## Runs -/

/-- Along a run the reference EC stays a reference EC that is not busy, its registers canonical, and keeps whatever of
its registers every write that is not barred keeps. -/
theorem EcRun.reference {barred : Byte → Byte → Prop} {s u : State} {r : RefEc} (P : List Host.Cell → Prop)
    (hc : configOk s.cfg = true) (hr : s.env.ec = .reference r) (hb : r.busy = false) (hw : Memory.wf r.regs = true)
    (hP : P r.regs)
    (hstore : ∀ c a v m, ¬barred c a → Memory.wf m = true → P m → P (storedRegs s.cfg c a v m)) (h : EcRun barred s u) :
    u.cfg = s.cfg ∧ ∃ r', u.env.ec = .reference r' ∧ r'.busy = false ∧ Memory.wf r'.regs = true ∧ P r'.regs := by
  induction h with
  | refl => exact ⟨rfl, r, hr, hb, hw, hP⟩
  | read addr y t u _ h ih =>
    obtain ⟨h1, r', h2, h3, h4, h5⟩ := ih
    obtain ⟨g1, -, r2, g2, g3, g4⟩ := ecRead_done_ref (by rw [h1]; exact hc) h2 h3 h
    exact ⟨g1.trans h1, r2, g2, g4, by rw [g3]; exact h4, by rw [g3]; exact h5⟩
  | write c a v y t u _ hnb h ih =>
    obtain ⟨h1, r', h2, h3, h4, h5⟩ := ih
    obtain ⟨g1, g0, r2, g2, g3, g4⟩ := ecWrite_done_ref (by rw [h1]; exact hc) h2 h3 h
    exact ⟨g1.trans h1, r2, g2, g4, by rw [g3]; exact storedRegs_wf _ _ _ _ h4,
      by rw [g3, h1]; exact hstore _ _ _ _ (fun hb' => hnb ⟨hb', g0⟩) h4 h5⟩
  | operation i t u _ hs h ih =>
    obtain ⟨h1, r', h2, h3, h4, h5⟩ := ih
    have hct : configOk t.cfg = true := by rw [h1]; exact hc
    rw [exec_eq_next] at h; subst h
    obtain ⟨r2, g2, g3⟩ := exec_leaves t hct hs r' h2
    have g1 := (exec_keeps i t (budget_of_ok hct)).elim fun es hk => hk.cfg
    have g4 := g3.same rfl
    exact ⟨g1.trans h1, r2, g2, g3.busy.trans h3, by rw [g4]; exact h4, by rw [g4]; exact h5⟩
  | elsewhere t u _ h6 h7 _ ih =>
    obtain ⟨h1, r', h2, h3, h4, h5⟩ := ih
    exact ⟨h6.trans h1, r', h7.trans h2, h3, h4, h5⟩

end Sys2Proof.Machine
end

