-- ==== Sys2Proof/Laws/Encoding.lean ====
section
/-! SUPPORT. The fields of a CW32 word: reading them from a packed word, packing them again, and their places. -/

namespace Sys2Proof

theorem opField_toNat (w : Word) : (opField w).toNat = w.toNat / 2 ^ 24 := by
  have := w.isLt
  simp [opField, BitVec.extractLsb'_toNat, Nat.shiftRight_eq_div_pow]; omega

theorem aField_toNat (w : Word) : (aField w).toNat = w.toNat / 2 ^ 16 % 256 := by
  simp [aField, BitVec.extractLsb'_toNat, Nat.shiftRight_eq_div_pow]

theorem bField_toNat (w : Word) : (bField w).toNat = w.toNat / 2 ^ 8 % 256 := by
  simp [bField, BitVec.extractLsb'_toNat, Nat.shiftRight_eq_div_pow]

theorem cField_toNat (w : Word) : (cField w).toNat = w.toNat % 256 := by
  simp [cField, BitVec.extractLsb'_toNat]

/-- A word's number from its fields (rule R73). -/
theorem packWord_toNat (op a b c : Byte) :
    (packWord op a b c).toNat = 2 ^ 24 * op.toNat + 2 ^ 16 * a.toNat + 2 ^ 8 * b.toNat + c.toNat := by
  have h1 := op.isLt
  have h2 := a.isLt
  have h3 := b.isLt
  have h4 := c.isLt
  unfold packWord
  rw [BitVec.toNat_append, BitVec.toNat_append, BitVec.toNat_append, Nat.shiftLeft_eq, Nat.shiftLeft_eq,
    Nat.shiftLeft_eq, Nat.mul_comm op.toNat, ← Nat.two_pow_add_eq_or_of_lt (by omega), Nat.mul_comm _ (2 ^ 8),
    ← Nat.two_pow_add_eq_or_of_lt (by omega), Nat.mul_comm _ (2 ^ 8), ← Nat.two_pow_add_eq_or_of_lt (by omega)]
  omega

@[simp] theorem opField_packWord (op a b c : Byte) : opField (packWord op a b c) = op := by
  apply BitVec.eq_of_toNat_eq
  have h1 := a.isLt
  have h2 := b.isLt
  have h3 := c.isLt
  rw [opField_toNat, packWord_toNat]; omega

@[simp] theorem aField_packWord (op a b c : Byte) : aField (packWord op a b c) = a := by
  apply BitVec.eq_of_toNat_eq
  have h1 := a.isLt
  have h2 := b.isLt
  have h3 := c.isLt
  rw [aField_toNat, packWord_toNat]; omega

@[simp] theorem bField_packWord (op a b c : Byte) : bField (packWord op a b c) = b := by
  apply BitVec.eq_of_toNat_eq
  have h2 := b.isLt
  have h3 := c.isLt
  rw [bField_toNat, packWord_toNat]; omega

@[simp] theorem cField_packWord (op a b c : Byte) : cField (packWord op a b c) = c := by
  apply BitVec.eq_of_toNat_eq
  have h3 := c.isLt
  rw [cField_toNat, packWord_toNat]; omega

@[simp] theorem packWord_fields (w : Word) : packWord (opField w) (aField w) (bField w) (cField w) = w := by
  apply BitVec.eq_of_toNat_eq
  rw [packWord_toNat, opField_toNat, aField_toNat, bField_toNat, cField_toNat]; omega

/-- Masking acts field by field. -/
theorem packWord_and (a b c d a' b' c' d' : Byte) :
    packWord a b c d &&& packWord a' b' c' d' = packWord (a &&& a') (b &&& b') (c &&& c') (d &&& d') := by
  have h1 := BitVec.and_append (x₁ := a) (x₂ := a') (y₁ := b) (y₂ := b')
  have h2 := BitVec.and_append (x₁ := a ++ b) (x₂ := a' ++ b') (y₁ := c) (y₂ := c')
  rw [h1] at h2
  have h3 := BitVec.and_append (x₁ := a ++ b ++ c) (x₂ := a' ++ b' ++ c') (y₁ := d) (y₂ := d')
  rw [h2] at h3
  exact h3

theorem packWord_inj {a b c d a' b' c' d' : Byte} :
    packWord a b c d = packWord a' b' c' d' ↔ a = a' ∧ b = b' ∧ c = c' ∧ d = d' := by
  constructor
  · intro h
    exact ⟨by simpa using congrArg opField h, by simpa using congrArg aField h, by simpa using congrArg bField h,
      by simpa using congrArg cField h⟩
  · rintro ⟨rfl, rfl, rfl, rfl⟩; rfl

end Sys2Proof
end

