-- ==== Sys2Proof/Laws/PerInstr.lean ====
section
/-! SUPPORT. The family RowFit, stated per operation: the word of an operation fits the match and mask of its row of
opcode_table.json (rule R78). -/

namespace Sys2Proof.Laws.RowFit

/-- The word fits its row. -/
def Statement (i : Instr) : Prop := encode i &&& rowMask i = rowMatch i

/-- A row whose `C` is an operand. -/
theorem fits_of_mask_c (op : Byte) (b : Byte) : packWord op 0 0 b &&& packWord 255 255 255 0 = packWord op 0 0 0 := by
  have h (x : Byte) : x &&& 255#8 = x := BitVec.and_allOnes
  simp [packWord_and, h]

/-- A row whose `B` and `C` are operands. -/
theorem fits_of_mask_bc (op : Byte) (b c : Byte) : packWord op 0 b c &&& packWord 255 255 0 0 = packWord op 0 0 0 := by
  have h (x : Byte) : x &&& 255#8 = x := BitVec.and_allOnes
  simp [packWord_and, h]

/-- A row whose three fields are operands. -/
theorem fits_of_mask_abc (op : Byte) (a b c : Byte) : packWord op a b c &&& packWord 255 0 0 0 = packWord op 0 0 0 := by
  have h (x : Byte) : x &&& 255#8 = x := BitVec.and_allOnes
  simp [packWord_and, h]

theorem set (p : Byte) : Statement (.set p) := fits_of_mask_c _ _

theorem set1 (p : Byte) : Statement (.set1 p) := fits_of_mask_c _ _

theorem set2 (p : Byte) : Statement (.set2 p) := fits_of_mask_c _ _

theorem dump : Statement .dump := by unfold Statement; decide

theorem auto : Statement .auto := by unfold Statement; decide

theorem acquire : Statement .acquire := by unfold Statement; decide

theorem ecRead (addr : Byte) : Statement (.ecRead addr) := fits_of_mask_c _ _

theorem ecWrite (cmd : Byte) (addr : Byte) (value : Byte) : Statement (.ecWrite cmd addr value) := fits_of_mask_abc _ _ _ _

theorem cpuTempRead : Statement .cpuTempRead := by unfold Statement; decide

theorem gpuTempEcRead : Statement .gpuTempEcRead := by unfold Statement; decide

theorem fanDutyRead (ch : Channel) : Statement (.fanDutyRead ch) := fits_of_mask_c _ _

theorem fanRpmRead (ch : Channel) : Statement (.fanRpmRead ch) := fits_of_mask_c _ _

theorem fanDutyWrite (ch : Channel) (p : Byte) : Statement (.fanDutyWrite ch p) := fits_of_mask_bc _ _ _

theorem resolveCpu : Statement .resolveCpu := by unfold Statement; decide

theorem resolveGpu : Statement .resolveGpu := by unfold Statement; decide

theorem targetDuty (hot : Byte) (last : Byte) : Statement (.targetDuty hot last) := fits_of_mask_bc _ _ _

theorem rateLimit (o : Bool) (last : Byte) (target : Byte) : Statement (.rateLimit o last target) := fits_of_mask_abc _ _ _ _

theorem controlCycle : Statement .controlCycle := by unfold Statement; decide

theorem report : Statement .report := by unfold Statement; decide

end Sys2Proof.Laws.RowFit
end

