-- ==== Sys2Proof/Machine/Assembler.lean ====
section
/-! DEFINITION. The assembler syntax of rule R81 and of the table's assembler column (rule R80 for the host commands): a
line's text to its CW32 word. -/

namespace Sys2Proof.Machine

/-- The value of a hexadecimal digit. -/
def hexDigit (c : Char) : Option Nat :=
  if isDecDigit c then some (c.toNat - 48)
  else if decide (97 ≤ c.toNat) && decide (c.toNat ≤ 102) then some (c.toNat - 87)
  else if decide (65 ≤ c.toNat) && decide (c.toNat ≤ 70) then some (c.toNat - 55)
  else none

/-- Hexadecimal digits, most significant first, after the value `acc`. -/
def hexFrom (acc : Nat) (t : Text) : Option Nat :=
  match t with
  | [] => some acc
  | c :: rest => (hexDigit c).bind fun d => hexFrom (16 * acc + d) rest

/-- One or more hexadecimal digits. -/
def parseHex (t : Text) : Option Nat :=
  match t with
  | [] => none
  | c :: rest => (hexDigit c).bind fun d => hexFrom d rest

/-- An operand: decimal or `0x` hexadecimal (rule R81), in a byte. -/
def parseOperand (t : Text) : Option Byte :=
  let n :=
    match trimText t with
    | '0' :: 'x' :: hs => parseHex hs
    | ds => parseDigits ds
  n.bind fun v => if v < 256 then some (BitVec.ofNat 8 v) else none

/-- The comma-separated parts of a text, `part` being the reversed part under way. -/
def splitCommas (part : Text) (t : Text) : List Text :=
  match t with
  | [] => [part.reverse]
  | c :: rest => if c = ',' then part.reverse :: splitCommas [] rest else splitCommas (c :: part) rest

/-- The operands of a line: none for an empty text, else its comma-separated parts. -/
def parseOperands (t : Text) : Option (List Byte) :=
  if trimText t = [] then some [] else (splitCommas [] t).mapM parseOperand

/-- A mnemonic's word with its operands in the fields rules R75 and R76 name. -/
def assembleWith (mnemonic : Text) (ops : List Byte) : Option Word :=
  match String.ofList mnemonic, ops with
  | "set", [p] => some (packWord 0x01 0 0 p)
  | "set1", [p] => some (packWord 0x02 0 0 p)
  | "set2", [p] => some (packWord 0x03 0 0 p)
  | "dump", [] => some (packWord 0x04 0 0 0)
  | "auto", [] => some (packWord 0x05 0 0 0)
  | "acquire", [] => some (packWord 0x10 0 0 0)
  | "ec.read", [addr] => some (packWord 0x11 0 0 addr)
  | "ec.write", [cmd, addr, value] => some (packWord 0x12 cmd addr value)
  | "rm.cpu_temp", [] => some (packWord 0x13 0 0 0)
  | "rm.gpu_temp_ec", [] => some (packWord 0x14 0 0 0)
  | "rm.duty_read", [ch] => some (packWord 0x15 0 0 ch)
  | "rm.rpm_read", [ch] => some (packWord 0x16 0 0 ch)
  | "rm.duty_write", [ch, p] => some (packWord 0x17 0 ch p)
  | "mux.cpu", [] => some (packWord 0x18 0 0 0)
  | "mux.gpu", [] => some (packWord 0x19 0 0 0)
  | "ctl.target", [hot, last] => some (packWord 0x1A 0 hot last)
  | "ctl.rate_limit", [o, last, target] => some (packWord 0x1B o last target)
  | "ctl.cycle", [] => some (packWord 0x1C 0 0 0)
  | "ctl.report", [] => some (packWord 0x1D 0 0 0)
  | _, _ => none

/-- A line: the lower-case mnemonic, then its operands (rule R81; log 32). -/
def assemble (line : Text) : Option Word :=
  let t := trimText line
  let mnemonic := t.takeWhile (fun c => !isAsciiSpace c)
  let rest := t.dropWhile (fun c => !isAsciiSpace c)
  (parseOperands rest).bind (assembleWith mnemonic)

end Sys2Proof.Machine
end

