-- ==== Sys2Proof/Tests/Slice0.lean ====
section
/-! SUPPORT. The model's own tests. Expected values come from the spec's worked examples and from 95_test_vectors.md
(the vector is named before each test); the witnesses at the end meet the hypotheses of the statements. -/

namespace Sys2Proof.Tests

open Sys2Proof Sys2Proof.Machine

/-! ## Concrete states (section 0 of 95_test_vectors.md) -/

/-- The environment of section 0: ports granted, no hwmon entry, no tool, no stop. -/
def envWith (ec : Ec) : Env where
  grants := [true]
  ec := ec
  entryLists := [[]]
  names := []
  temps := []
  fileTests := [false]
  toolRuns := [.notRun]
  stops := [false]
  count := 0

/-- `REF_EC` with these registers. -/
def refEc (cells : List Host.Cell) : Ec := .reference ⟨cells, none, 0, .idle, false⟩

/-- `REF_EC_BUSY`. -/
def busyEc : Ec := .reference ⟨[], none, 0, .idle, true⟩

/-- Reset under `RC`, in the environment of section 0, with a session held. -/
def held (ec : Ec) : State :=
  { State.boot referenceConfig (envWith ec) (.program []) with session := .held, acquireCount := 1 }

/-- The registers at the start of section 2.6. -/
def cells : List Host.Cell := [(0xA0, 55), (0xA1, 48), (0xA4, 0x01), (0xA5, 0xF4), (0xA6, 0x03), (0xA7, 0xE8)]

/-- The state at the start of section 2.6, with the session held. -/
def start : State := held (refEc cells)

/-- A CW32 program at process start. -/
def program (ws : List Word) : State := State.boot referenceConfig (envWith (refEc cells)) (.program ws)

/-- A process at one of its phases, with or without the session. -/
def process (c : Command) (p : CmdPhase) : State :=
  { start with invocation := .process c, cmd := ⟨p, false⟩ }

/-- The loop in one of its phases. -/
def looping (p : LoopPhase) : State := { start with loop := p, ctl := some 0 }

/-- The next state of an outcome, or reset. -/
def after (o : Host.Outcome State Fault Refusal) : State :=
  match o with
  | .next t => t
  | .fault _ => .reset
  | .refused _ => .reset

/-- The registers of the reference EC in a state. -/
def regsOf (s : State) : List Host.Cell :=
  match s.env.ec with
  | .lawless _ => []
  | .reference r => r.regs

/-- The number of port events of a trace. -/
def ports (s : State) : Nat := s.trace.countP isPortEvent

/-! ## Well-formedness: ill-formed operations are refused (rule R77 (e)) -/

theorem test_wf_target_last : ¬WellFormed (.targetDuty 45 101) := by decide
theorem test_wf_rate_last : ¬WellFormed (.rateLimit false 101 0) := by decide
theorem test_wf_rate_target : ¬WellFormed (.rateLimit false 0 101) := by decide

/-! ## Decoding: each word written out from rules R73, R75, R76 (OP, A, B, C) -/

theorem test_decode_set : decode 0b00000001000000000000000000110010 = .ok (.set 50) := by decide
theorem test_decode_set1 : decode 0b00000010000000000000000001100100 = .ok (.set1 100) := by decide
theorem test_decode_set2 : decode 0b00000011000000000000000000000000 = .ok (.set2 0) := by decide
theorem test_decode_dump : decode 0b00000100000000000000000000000000 = .ok .dump := by decide
theorem test_decode_auto : decode 0b00000101000000000000000000000000 = .ok .auto := by decide
theorem test_decode_acquire : decode 0b00010000000000000000000000000000 = .ok .acquire := by decide
theorem test_decode_ecRead : decode 0b00010001000000000000000010100000 = .ok (.ecRead 0xA0) := by decide
theorem test_decode_ecWrite : decode 0b00010010100110010000000110000000 = .ok (.ecWrite 0x99 0x01 0x80) := by decide
theorem test_decode_cpuTempRead : decode 0b00010011000000000000000000000000 = .ok .cpuTempRead := by decide
theorem test_decode_gpuTempEcRead : decode 0b00010100000000000000000000000000 = .ok .gpuTempEcRead := by decide
theorem test_decode_fanDutyRead : decode 0b00010101000000000000000000000001 = .ok (.fanDutyRead .one) := by decide
theorem test_decode_fanRpmRead : decode 0b00010110000000000000000000000010 = .ok (.fanRpmRead .two) := by decide
theorem test_decode_fanDutyWrite : decode 0b00010111000000000000001000011110 = .ok (.fanDutyWrite .two 30) := by decide
theorem test_decode_resolveCpu : decode 0b00011000000000000000000000000000 = .ok .resolveCpu := by decide
theorem test_decode_resolveGpu : decode 0b00011001000000000000000000000000 = .ok .resolveGpu := by decide
theorem test_decode_targetDuty : decode 0b00011010000000000010110100000000 = .ok (.targetDuty 45 0) := by decide
theorem test_decode_rateLimit : decode 0b00011011000000010000010001100100 = .ok (.rateLimit true 4 100) := by decide
theorem test_decode_controlCycle : decode 0b00011100000000000000000000000000 = .ok .controlCycle := by decide
theorem test_decode_report : decode 0b00011101000000000000000000000000 = .ok .report := by decide

/-- V-30-1, the illegal words. -/
theorem test_decode_illegal :
    decode 0x04000001 = .error .reservedNonzero ∧ decode 0x06000000 = .error .unassignedOp ∧
      decode 0x00000000 = .error .unassignedOp ∧ decode 0xFF000000 = .error .unassignedOp ∧
      decode 0x10000001 = .error .reservedNonzero ∧ decode 0x11FF00A0 = .error .reservedNonzero ∧
      decode 0x15000000 = .error .badChannel ∧ decode 0x15000003 = .error .badChannel ∧
      decode 0x1702001E = .error .reservedNonzero ∧ decode 0x1A000065 = .error .badPercent ∧
      decode 0x1B020000 = .error .badOverride ∧ decode 0x1B000065 = .error .badPercent ∧
      decode 0x1E000000 = .error .unassignedOp := by decide

/-- V-30-3: a program's bytes, most significant first. -/
theorem test_program_bytes :
    programOfBytes [0x10, 0, 0, 0, 0x11, 0, 0, 0xA0] = some [0x10000000, 0x110000A0] := by decide

theorem test_decodeTableWord : decodeTableWord 32 0x1700021E = some (.fanDutyWrite .two 30) := by decide

/-- V-30-2: the step runs the word placed where it fetches. -/
theorem test_withFetchWord : (after (step (State.reset.withFetchWord 32 0x06000000))).fault = some .illegalEncoding ∧
    (after (step (State.reset.withFetchWord 32 0x10000000))).acquireCount = 1 := by decide

/-- Rule R81. -/
theorem test_assemble :
    assemble "ec.write 0x99, 0x01, 128".toList = some 0x12990180 ∧
      assemble "rm.duty_write 2, 30".toList = some 0x1700021E ∧ assemble "ctl.cycle".toList = some 0x1C000000 ∧
      assemble "ec.read 256".toList = none := by decide +kernel

/-! ## Instructions, one step each -/

/-- V-44-1: both registers at 0x80, 62 port events, one report. -/
theorem test_set : regsOf (after (exec (.set 50) start)) =
      [(0xA0, 55), (0xA1, 48), (0xA2, 0x80), (0xA3, 0x80), (0xA4, 0x01), (0xA5, 0xF4), (0xA6, 0x03), (0xA7, 0xE8)] ∧
    (after (exec (.set 50) start)).trace.getLast? = some (.report ⟨⟨.cpu, 55, .ecFallback⟩, ⟨.gpu, 48, .ecFallback⟩,
      none, ⟨50, 500, mkRat 107811 25⟩, ⟨50, 1000, mkRat 107811 50⟩⟩) := by decide +kernel

/-- V-44-2: an invalid percent emits nothing and fails the command. -/
theorem test_set_invalid : (after (exec (.set 101) start)).trace = [] ∧ (after (exec (.set 101) start)).cmd.failed := by
  decide

/-- V-44-4: one write; register 0xA3 is unchanged. -/
theorem test_set1 : regsOf (after (exec (.set1 100) start)) = [(0xA0, 55), (0xA1, 48), (0xA2, 0xFF), (0xA4, 0x01),
    (0xA5, 0xF4), (0xA6, 0x03), (0xA7, 0xE8)] ∧ ports (after (exec (.set1 100) start)) = 55 := by decide +kernel

/-- V-44-5: the write goes to sub-address 0x02. -/
theorem test_set2 : (sent (after (exec (.set2 0) start)).trace).take 3 = [(.sc, 0x99), (.data, 0x02), (.data, 0x00)] ∧
    ports (after (exec (.set2 0) start)) = 55 := by decide +kernel

/-- V-44-6: eight reads, 48 port events, no write. -/
theorem test_dump : ports (after (exec .dump start)) = 48 ∧ regsOf (after (exec .dump start)) = cells := by
  decide +kernel

/-- Rule R207: the start of the loop. -/
theorem test_auto : (after (exec .auto start)).ctl = some 0 ∧ (after (exec .auto start)).loop = .top ∧
    (after (exec .auto start)).trace = [] := by decide

/-- V-40-1, V-40-2. -/
theorem test_acquire : (after (exec .acquire (program []))).session = .held ∧
    (after (exec .acquire { program [] with env := { envWith busyEc with grants := [false] } })).session = .denied := by
  decide

/-- V-40-3. -/
theorem test_acquire_twice : (after (exec .acquire start)).fault = some .doubleAcquire := by decide

/-- V-40-5. -/
theorem test_ecRead : (after (exec (.ecRead 0xA0) (held (refEc [(0xA0, 0x2D)])))).trace =
      [.portIn .sc 0x00, .portOut .sc 0x80, .portIn .sc 0x00, .portOut .data 0xA0, .portIn .sc 0x01,
        .portIn .data 0x2D] ∧
    (after (exec (.ecRead 0xA0) (held (refEc [(0xA0, 0x2D)])))).ret = some (.ecByte 0x2D false) := by decide +kernel

/-- V-40-7: 100 status reads, 99 sleeps, one sample, nothing sent. -/
theorem test_ecRead_busy : (after (exec (.ecRead 0xA0) (held busyEc))).trace.countP isStatusRead = 100 ∧
    (after (exec (.ecRead 0xA0) (held busyEc))).trace.countP isSleep = 99 ∧
    sent (after (exec (.ecRead 0xA0) (held busyEc))).trace = [] ∧
    (after (exec (.ecRead 0xA0) (held busyEc))).ret = some (.ecByte 0xFF true) := by decide +kernel

/-- V-40-6. -/
theorem test_ecWrite : (after (exec (.ecWrite 0x99 0x01 0x80) start)).trace =
      [.portIn .sc 0x00, .portOut .sc 0x99, .portIn .sc 0x00, .portOut .data 0x01, .portIn .sc 0x00,
        .portOut .data 0x80, .portIn .sc 0x00] ∧
    cellRead (regsOf (after (exec (.ecWrite 0x99 0x01 0x80) start))) 0xA2 = 0x80 := by decide +kernel

/-- V-40-10, the EC's answers supplied: all three bytes sent, the confirming wait expired. -/
theorem test_ecWrite_fails_at_4 :
    sent (after (exec (.ecWrite 0x99 0x01 0x80) (held (.lawless ([0, 0, 0] ++ List.replicate 100 2))))).trace =
      [(.sc, 0x99), (.data, 0x01), (.data, 0x80)] ∧
    (after (exec (.ecWrite 0x99 0x01 0x80) (held (.lawless ([0, 0, 0] ++ List.replicate 100 2))))).ret =
      some (.err (.timeoutError 4)) := by decide +kernel

/-- Rules R108, R110: in a wait phase a call is the fault `ChannelBusy` and moves nothing, and no result is taken. -/
theorem test_call_in_progress :
    chanCallRead 0xA0 (setPhase .rW2 start) = .halted { setPhase .rW2 start with fault := some .channelBusy } ∧
      chanTake (setPhase .rW3 start) = none ∧ chanStep (setPhase .done start) = none := by decide +kernel

/-- Rule R108: an expired second wait of a write ends it, with no event after its last status read. -/
theorem test_chanStep_expires :
    let s := { setAttempt 99 (setPhase .wW2 start) with env := envWith (.lawless [2]) }
    (chanStep s).map (fun t => (t.chan.phase, t.chan.result, t.trace)) =
      some (.done, some (.timeout 2), [.portIn .sc 2]) := by decide +kernel

/-- V-41-1: the byte is unsigned. -/
theorem test_cpuTempRead : (after (exec .cpuTempRead (held (refEc [(0xA0, 0x80)])))).ret = some (.number 128) := by
  decide +kernel

/-- V-41-2. -/
theorem test_gpuTempEcRead : (after (exec .gpuTempEcRead start)).ret = some (.number 48) := by decide +kernel

/-- Rule R142's worked example; V-41-8. -/
theorem test_fanDutyRead : (after (exec (.fanDutyRead .one) (held (refEc [(0xA2, 0x80)])))).ret = some (.number 50) ∧
    (after (exec (.fanDutyRead .one) (held busyEc))).ret = some (.number 100) := by decide +kernel

/-- V-41-7. -/
theorem test_fanRpmRead : (after (exec (.fanRpmRead .one) start)).ret = some (.rpm 500 (mkRat 107811 25)) ∧
    (after (exec (.fanRpmRead .two) start)).ret = some (.rpm 1000 (mkRat 107811 50)) := by decide +kernel

/-- V-41-5. -/
theorem test_fanDutyWrite : sent (after (exec (.fanDutyWrite .two 30) start)).trace =
      [(.sc, 0x99), (.data, 0x02), (.data, 0x4D)] ∧
    sent (after (exec (.fanDutyWrite .one 150) start)).trace = [(.sc, 0x99), (.data, 0x01), (.data, 0xFF)] := by
  decide +kernel

/-- Rules R143, R147 with another `DUTY_RAW_MAX`, by hand: 200 * 50 / 100, and 100 * 255 / 200 clamped. -/
theorem test_other_raw_max : rawFromDuty { referenceConfig with dutyRawMax := 200 } 50 = 100 ∧
    dutyFromRaw { referenceConfig with dutyRawMax := 200 } 255 = 100 := by decide +kernel

/-- V-42-1. -/
theorem test_resolveCpu : (after (exec .resolveCpu start)).ret = some (.reading ⟨.cpu, 55, .ecFallback⟩) := by
  decide +kernel

/-- V-L1-9: two entries, one usable input each. -/
theorem test_resolveGpu_sysfs :
    let s := { start with env := { envWith (refEc cells) with
      entryLists := [[1, 2]], names := [some "gpuA\n".toList, some "gpuA\n".toList],
      temps := [some "50000\n".toList, none, none, none, some "62000\n".toList, none, none, none] } }
    (after (exec .resolveGpu s)).ret = some (.reading ⟨.gpu, 62, .driverSysfs⟩) ∧
      (after (exec .resolveGpu s)).trace.length = 11 := by decide +kernel

/-- V-42-7, the second row. -/
theorem test_resolveGpu_tool :
    let s := { start with env := { envWith (refEc cells) with
      fileTests := [true], toolRuns := [.output " 62 , 55\n".toList] } }
    (after (exec .resolveGpu s)).ret = some (.reading ⟨.gpu, 62, .vendorTool⟩) ∧
      ports (after (exec .resolveGpu s)) = 0 := by decide +kernel

/-- Rules R103, R172: without a session the first two stages still run, and the EC stage faults. -/
theorem test_resolveGpu_no_session : (after (exec .resolveGpu (program []))).fault = some .noSession ∧
    (after (exec .resolveGpu (program []))).trace =
      [.sysfsList [], .fileExists referenceConfig.toolPath false] := by decide +kernel

/-- Rules R175, R249: no numeral, and whitespace, which the textual percent does not trim. -/
theorem test_parse :
    (["", "-", "+5", "5 5", "x5", "-5x", "--5", "- 5"].map fun t => parseInt t.toList) = List.replicate 8 none ∧
      (["", "-", "+5", " 5", "5 ", "x5"].map fun t => parseDecimal t.toList) = List.replicate 6 none ∧
      parseInt "\t007 \n".toList = some 7 := by decide +kernel

/-- Rules R174 to R176: the trailing trim and the exact match, the bounds of each source. -/
theorem test_texts :
    allowListed referenceConfig "gpuA \n".toList = true ∧ allowListed referenceConfig " gpuA".toList = false ∧
      allowListed referenceConfig "gpuAB".toList = false ∧ sysfsValue (some "999".toList) = some 0 ∧
      sysfsValue (some "1999".toList) = some 1 ∧ sysfsValue (some "0".toList) = none ∧
      sysfsValue (some "-5".toList) = none ∧ vendorValue referenceConfig "129, 5\n7".toList = some 129 ∧
      vendorValue referenceConfig "130".toList = none ∧ vendorValue referenceConfig "0".toList = none ∧
      vendorValue referenceConfig "\n62".toList = none := by decide +kernel

/-- V-L1-4: the second and the corrected fourth scenario; V-L1-1. -/
theorem test_targetDuty : (after (exec (.targetDuty 45 0) start)).ret = some (.target 30 false) ∧
    (after (exec (.targetDuty 37 30) start)).ret = some (.target 0 false) ∧
    (after (exec (.targetDuty 80 30) start)).ret = some (.target 100 true) := by decide +kernel

/-- V-43-4: the tie rule. -/
theorem test_target_tie : targetDuty { referenceConfig with minDuty := 25 } 44 50 = (33, false) ∧
    targetDuty { referenceConfig with minDuty := 25, roundTie := .halfEven } 44 50 = (32, false) := by decide +kernel

/-- V-L1-6, V-43-5. -/
theorem test_rateLimit : (after (exec (.rateLimit false 0 30) start)).ret = some (.number 2) ∧
    (after (exec (.rateLimit false 30 0) start)).ret = some (.number 28) ∧
    (after (exec (.rateLimit true 4 0) start)).ret = some (.number 100) := by decide

/-- The state before V-43-7's cycle. -/
def cycling : State :=
  { held (refEc [(0xA0, 45)]) with
    ctl := some 0, loop := .cycle
    env := { envWith (refEc [(0xA0, 45)]) with
      entryLists := [[1]], names := [some "gpuA".toList], temps := [some "40000".toList, none, none, none] } }

/-- V-43-7. -/
theorem test_controlCycle : (after (exec .controlCycle cycling)).ctl = some 2 ∧
    regsOf (after (exec .controlCycle cycling)) = [(0xA0, 45), (0xA2, 0x05), (0xA3, 0x05)] ∧
    ports (after (exec .controlCycle cycling)) = 56 ∧
    (after (exec .controlCycle cycling)).trace.getLast? = some (.report ⟨⟨.cpu, 45, .ecFallback⟩,
      ⟨.gpu, 40, .driverSysfs⟩, some 2, ⟨2, 0, 0⟩, ⟨2, 0, 0⟩⟩) := by decide +kernel

/-- V-43-6. -/
theorem test_controlCycle_no_state : (after (exec .controlCycle (program []))).fault = some .noControlState := by decide

/-- V-43-14. -/
theorem test_report :
    let s := held (refEc [(0xA0, 55), (0xA1, 48), (0xA2, 5), (0xA3, 5), (0xA4, 0x01), (0xA5, 0xF4)])
    (after (exec .report s)).trace.getLast? = some (.report ⟨⟨.cpu, 55, .ecFallback⟩, ⟨.gpu, 48, .ecFallback⟩, none,
      ⟨2, 500, mkRat 107811 25⟩, ⟨2, 0, 0⟩⟩) ∧
      (sent (after (exec .report s)).trace).filterMap (fun e => if e.1 = .data then some e.2 else none) =
        [0xA0, 0xA1, 0xA2, 0xA4, 0xA5, 0xA3, 0xA6, 0xA7] := by decide +kernel

/-- V-43-15: a stop raised before `AUTO` is seen at `TOP`. -/
theorem test_loop_stop : (after (step { looping .top with stop := true })).loop = .exited ∧
    (after (step { looping .top with stop := true })).ctl = none := by decide

/-- V-44-7, V-44-8: an unknown command, and a denied session. -/
theorem test_process_ends :
    (after (step (process (.text "foo".toList none) .dispatch))).exit = some 1 ∧
      (after (step { State.boot referenceConfig { envWith busyEc with grants := [false] }
        (.process (.encoded (.set 50))) with cmd := ⟨.acquiring, false⟩ })).exit = some 1 := by decide

/-- V-60-1. -/
theorem test_bad_config :
    (after (step { program [] with cfg := { referenceConfig with maxTemp := 40 } })).fault = some .badConfig := by decide

/-! ## Witnesses: concrete states and operands that meet the hypotheses of the statements -/

/-- `DecodeInvertsEncode`, at the greatest admitted operands. -/
theorem witness_wellFormed :
    WellFormed (.set 255) ∧ WellFormed (.targetDuty 255 100) ∧ WellFormed (.rateLimit true 100 100) := by decide

/-- `DecodeFollowsTheOpcodeTable`, each clause; the third with a word its row's operand check refuses. -/
theorem witness_opcodeTable :
    decode 0x1B016464 = .ok (.rateLimit true 100 100) ∧
      (0x010000FF : Word) &&& rowMask (.set 0) = rowMatch (.set 0) ∧
      (0x010000FF : Word) &&& rowMask (.set 255) = rowMatch (.set 255) ∧
      (0x15000003 : Word) &&& rowMask (.fanDutyRead .one) = rowMatch (.fanDutyRead .one) ∧
      decode 0x15000003 = .error .badChannel := by decide

/-- `ExactlyTheListedWordsAreIllegal`: the least and greatest illegal `last`, and the neighbour that is legal. -/
theorem witness_illegalWord :
    NextWord (program [0x1A000065]) 0x1A000065 [] ∧ IllegalWord 0x1A000065 ∧ IllegalWord 0x1E000000 ∧
      ¬IllegalWord 0x1A000064 := by
  refine ⟨by decide, ?_, ?_, ?_⟩ <;> unfold IllegalWord <;> decide

/-- `StepRunsTheDecodedWord`, both clauses. -/
theorem witness_nextWord :
    NextWord (program [0x110000A0]) 0x110000A0 [] ∧ decode 0x110000A0 = .ok (.ecRead 0xA0) ∧
      Enabled (program [0x10000000, 0x110000A0]) ∧
      loopRunning (program [0x10000000, 0x110000A0]).loop = false ∧
      programOfBytes [0x10, 0, 0, 0, 0x11, 0, 0, 0xA0] = some [0x10000000, 0x110000A0] ∧
      decodeBytes [0x10, 0, 0, 0, 0x11, 0, 0, 0xA0] = .ok (.acquire, [0x11, 0, 0, 0xA0]) := by decide

/-- `InvariantAtReset`. -/
theorem witness_cells : ecCellsOk (refEc cells) = true ∧ ecCellsOk (refEc [(0, 1), (255, 255)]) = true := by decide

/-- A held session before any command. -/
theorem start_inv : StepInv start := by
  constructor <;> decide

/-- `RC` is admitted (rule R8). -/
theorem rc_ok : configOk referenceConfig = true := by decide

/-- A loop in progress. -/
theorem looping_inv {p : LoopPhase} (h : loopRunning p = true) : StepInv (looping p) := by
  cases p <;> first | (constructor <;> decide) | cases h

/-- `InvariantKeptByEveryStep`, `ConfigurationIsReadOnly`, `TraceOnlyGrows`, `EverySendFollowsAWait`,
`LastMovesByAtMostStep` (the commanded duty moves from 0 to 2): the step of a cycle. -/
theorem witness_step : configOk (looping .cycle).cfg = true ∧ StepInv (looping .cycle) ∧
    ∃ t, step (looping .cycle) = .next t ∧ (looping .cycle).ctl = some 0 ∧ t.ctl = some 2 :=
  ⟨by decide, looping_inv rfl, _, rfl, by decide, by decide +kernel⟩

/-- `ConfigurationIsReadOnly`, `TraceOnlyGrows`, `StopOnlyRises`, `FrameOfEveryInstruction` (each of its clauses),
`SessionIsDecidedOnce`, `ReadsLeaveTheRegisterFile`: operations that answer next. -/
theorem witness_exec : configOk start.cfg = true ∧ (∃ t, exec .acquire start = .next t) ∧
    (∃ t, exec .auto start = .next t) ∧ (∃ t, exec .controlCycle start = .next t) ∧
    (∃ t, exec (.targetDuty 255 100) start = .next t) ∧ (∃ t, exec (.set 0) start = .next t) ∧
    (∃ t, exec .dump start = .next t ∧ storesNothing .dump = true ∧
      start.env.ec = .reference ⟨cells, none, 0, .idle, false⟩) :=
  ⟨by decide, ⟨_, rfl⟩, ⟨_, rfl⟩, ⟨_, rfl⟩, ⟨_, rfl⟩, ⟨_, rfl⟩, _, rfl, by decide, rfl⟩

/-- `FaultIsSticky`, both clauses. -/
theorem witness_fault : { start with fault := some .noSession }.fault = some .noSession ∧ configOk start.cfg = true ∧
    ∃ t, exec (.rateLimit false 0 0) { start with fault := some .noSession } = .next t :=
  ⟨by decide, by decide, _, rfl⟩

/-- `BadConfigBeforeAnyStep`: a configuration one check short (`MIN_TEMP = MAX_TEMP`), and an admitted one. -/
theorem witness_config :
    let s := { looping .top with cfg := { referenceConfig with maxTemp := 40 } }
    let u := { looping .top with cfg := { referenceConfig with maxTemp := 41 } }
    (s.fault = none ∧ s.stuckInTool = false ∧ ¬s.cfg.minTemp < s.cfg.maxTemp) ∧
      u.fault = none ∧ u.stuckInTool = false ∧ configOk u.cfg = true ∧ ∃ t, step u = .next t :=
  ⟨by decide, by decide, by decide, by decide, _, rfl⟩

/-- `SessionIsDecidedOnce`, the first clause. -/
theorem witness_session : ∃ t, step (program [0x10000000]) = .next t ∧ t.session ≠ (program [0x10000000]).session :=
  ⟨_, rfl, by decide⟩

/-- `StopOnlyRises`, the first and the last clause. -/
theorem witness_stop : ({ looping .sleeping with stop := true }).stop = true ∧
    (∃ t, step { looping .sleeping with stop := true } = .next t) ∧ start.env.stops = false :: [] :=
  ⟨rfl, ⟨_, rfl⟩, rfl⟩

/-- `StopIsReadOnlyAtCheckPoints`. -/
theorem witness_noCheckPoint : (looping .cycle).loop ≠ .top ∧ (looping .cycle).loop ≠ .preSleep ∧
    (looping .cycle).loop ≠ .postSleep := by decide

/-- `AcquireDecidesTheSession`, both clauses. -/
theorem witness_acquire : (program []).acquireCount = 0 ∧ (program []).env.grants = true :: [] ∧
    1 ≤ start.acquireCount ∧ start.fault = none := by decide

/-- The statements over every admitted configuration and ready state, with a tool that returns: the EC transactions,
`TransactionEventBounds`, `StepLevelSequencerAgrees`, `IdleOperandsAreNeverRead`, the register map, the resolvers,
`ReportAndDumpReadEverythingOnce`; and the session clauses, with no session. -/
theorem witness_ready : configOk start.cfg = true ∧ Ready start ∧ ToolReturns start ∧
    (program []).session ≠ .held ∧ (program []).fault = none ∧ ToolReturns (program []) :=
  ⟨by decide, by decide, ⟨_, _, rfl, by decide⟩, by decide, by decide, _, _, rfl, by decide⟩

/-- `QuickTransactions`, both clauses. -/
theorem witness_quick :
    (Ready (held (.lawless [0, 0, 1, 0x2D])) ∧ ibfEmpty referenceConfig 0 = true ∧ obfFull referenceConfig 1 = true) ∧
      Ready (held (.lawless [0, 0, 0, 0])) ∧ ∀ b ∈ [0, 0, 0, (0 : Byte)], ibfEmpty referenceConfig b = true := by
  decide

/-- `EcReadFollowsTheHandshake` under `CONTINUE`: the first wait expires, the sequence goes on, and `k = 1` is kept. -/
theorem witness_continue :
    let s := { held (.lawless [2, 2, 0, 1, 0x2D]) with
      cfg := { referenceConfig with pollBudget := 2, readTimeoutMode := .continueSequence } }
    configOk s.cfg = true ∧ Ready s ∧ ∃ t, exec (.ecRead 0xA0) s = .next t ∧ t.ret = some (.ecByte 0x2D true) ∧
      t.chan.timeouts = [.timeoutError 1] ∧ sent t.trace = [(.sc, 0x80), (.data, 0xA0)] :=
  ⟨by decide, by decide, _, rfl, by decide +kernel, by decide +kernel, by decide +kernel⟩

/-- `NoTransactionUnlessReady`, both clauses. -/
theorem witness_notReady : needsChannel (.ecRead 0xA0) = true ∧ (program []).session ≠ .held ∧
    (setPhase .rW1 start).session = .held ∧ (setPhase .rW1 start).chan.phase ≠ .idle ∧
    (setPhase .rW1 start).fault = none := by decide

/-- `ChannelTransitionsAreTheTables`, each clause: a state that is ready, two that are not, a wait phase at its first and
at its last attempt, and `DONE`. -/
theorem witness_transitions : Ready start ∧ (¬Ready (setPhase .wW1 start) ∧ (setPhase .wW1 start).fault = none) ∧
    (¬Ready (program []) ∧ (program []).fault = none) ∧ (setPhase .rW1 start).chan.attempt < referenceConfig.pollBudget ∧
    (setAttempt 99 (setPhase .wW4 start)).chan.attempt + 1 = referenceConfig.pollBudget ∧
    (setPhase .done start).chan.phase = .done := by decide

/-- `ReferenceEcIsWellBehaved`, `WritesStoreOnlyTheDutyRegisters`. -/
theorem witness_reference : start.env.ec = .reference ⟨cells, none, 0, .idle, false⟩ ∧ Memory.wf cells = true ∧
    start.cfg.cmdSetDuty ≠ start.cfg.cmdRead ∧ start.cfg.regDuty.one ≠ start.cfg.regDuty.two ∧
    (∃ t, ecWrite 0x99 0x01 0xFF start = .done (.ok ()) t) ∧
    (∃ t, exec (.set 100) start = .next t) ∧ ∃ t, exec .controlCycle (looping .cycle) = .next t :=
  ⟨rfl, by decide, by decide, by decide, ⟨_, rfl⟩, ⟨_, rfl⟩, _, rfl⟩

/-- Under `RC` a write that is not a set-duty write of a channel leaves its duty register. -/
theorem stored_elsewhere {ch : Channel} {x c a v : Byte} {m : List Host.Cell}
    (hn : ¬(c = referenceConfig.cmdSetDuty ∧ a = forChannel referenceConfig.subAddr ch)) (hw : Memory.wf m = true)
    (hx : cellRead m (forChannel referenceConfig.regDuty ch).toNat = x) :
    cellRead (storedRegs referenceConfig c a v m) (forChannel referenceConfig.regDuty ch).toNat = x := by
  rw [cellRead_stored _ _ _ _ hw, if_neg, hx]
  rintro ⟨rfl, -, ⟨rfl, h⟩ | ⟨rfl, h⟩⟩ <;> cases ch <;> first | exact hn ⟨rfl, rfl⟩ | exact absurd h (by decide)

/-- The EC of section 0 echoes duties (rule R285). -/
theorem start_echo : EcDutyEcho start := by
  intro t ht ch raw u hwr v hv b late w hrd
  obtain ⟨h1, r, h2, h3, h4, -⟩ :=
    ht.reference (fun _ => True) (by decide) rfl rfl (by decide) trivial fun _ _ _ _ _ _ _ => trivial
  change t.cfg = referenceConfig at h1
  have hct : configOk t.cfg = true := by rw [h1]; decide
  obtain ⟨k1, -, r2, k2, k3, k4⟩ := ecWrite_done_ref hct h2 h3 hwr
  rw [h1] at k3
  have hcu : u.cfg = referenceConfig := k1.trans h1
  unfold UntilNextDutyWrite at hv
  rw [hcu] at hv
  obtain ⟨l1, r3, l2, l3, -, l5⟩ := hv.reference (fun m => cellRead m (forChannel referenceConfig.regDuty ch).toNat = raw)
    (by rw [hcu]; decide) k2 k4 (by rw [k3]; exact storedRegs_wf _ _ _ _ h4)
    (by rw [k3, cellRead_stored _ _ _ _ h4, if_pos]; exact ⟨rfl, by decide, by cases ch <;> simp [forChannel]⟩)
    fun c a x m hn hm hx => by rw [hcu]; exact stored_elsewhere hn hm hx
  have hcv : v.cfg = referenceConfig := l1.trans hcu
  have := (ecRead_done_ref (by rw [hcv]; decide) l2 l3 hrd).2.1
  rw [hcv, l5] at this
  exact congrArg Prod.fst this

/-- `DutyRoundTripIsExact`: the greatest percent is written, and another operation comes before the read. -/
theorem witness_echo : configOk start.cfg = true ∧ start.cfg.dutyRawMax = 255 ∧ (100 : Byte).toNat ≤ 100 ∧
    EcDutyEcho start ∧
    ∃ t u, exec (.fanDutyWrite .one 100) start = .next t ∧ t.ret = some .ok ∧ exec (.fanDutyRead .two) t = .next u ∧
      UntilNextDutyWrite .one t u ∧ Ready u := by
  exact ⟨by decide, rfl, by decide, start_echo, _, _, exec_next _ _, by decide +kernel, exec_next _ _,
    .operation _ _ _ .refl rfl (exec_next _ _), by decide +kernel⟩

/-- `RpmStrictlyDecreases`, at both ends; `RoundIsNearest`. -/
theorem witness_rpm : 0 < 2156220 ∧ (1 : BitVec 16) ≠ 0 ∧ (1 : BitVec 16) < 2 ∧ (65534 : BitVec 16) < 65535 ∧
    (0 : Int) < 2 := by decide

/-- `ResolveGpuTakesTheFirstUsableSource`, `ToolThatNeverReturnsStopsTheBlock`: a tool that never returns, with no sysfs
reading before it. -/
theorem witness_stuck :
    let s := { looping .cycle with env := { envWith (refEc cells) with fileTests := [true], toolRuns := [.neverReturns] } }
    configOk s.cfg = true ∧ Ready s ∧ s.ctl = some 0 ∧
      ∀ i ∈ [Instr.resolveGpu, .report, .dump, .controlCycle, .set 100, .set1 100, .set2 100],
        (execState i s).stuckInTool = true ∧ (execState i s).fault = none ∧ (execState i s).ctl = some 0 := by
  decide +kernel

/-- `ReadingsStayInRange`: one reading of each source, under the source's vendor bounds. -/
theorem witness_readings : start.cfg.vendorLo = 0 ∧ start.cfg.vendorHi = 130 ∧
    255 < hot ⟨.cpu, 255, .ecFallback⟩ ⟨.gpu, 300, .driverSysfs⟩ ∧
    (∃ t, exec .resolveCpu start = .next t ∧ t.ret = some (.reading ⟨.cpu, 55, .ecFallback⟩)) ∧
    (∃ t, exec .resolveGpu start = .next t ∧ t.ret = some (.reading ⟨.gpu, 48, .ecFallback⟩)) ∧
    (∃ t, exec .resolveGpu { start with env := { envWith (refEc cells) with
      fileTests := [true], toolRuns := [.output "129".toList] } } = .next t ∧
        t.ret = some (.reading ⟨.gpu, 129, .vendorTool⟩)) ∧
    ∃ t, exec .resolveGpu { start with env := { envWith (refEc cells) with
      entryLists := [[1]], names := [some "gpuA".toList], temps := [some "999".toList, none, none, none] } } =
        .next t ∧ t.ret = some (.reading ⟨.gpu, 0, .driverSysfs⟩) :=
  ⟨rfl, rfl, by decide, ⟨_, rfl, by decide +kernel⟩, ⟨_, rfl, by decide +kernel⟩, ⟨_, rfl, by decide +kernel⟩, _, rfl,
    by decide +kernel⟩

/-- `ParseIntReadsDecimalNumerals`: leading zeros, a negative zero, whitespace around, a foreign character. -/
theorem witness_parse : IsDecimal "007".toList 7 ∧ IsDecimal "-0".toList 0 ∧ IsBlank ([' '] ++ ['\n']) ∧
    isDecDigit '.' = false ∧ isAsciiSpace '.' = false ∧ parseDecimal "-12".toList = some (-12) ∧
    parseInt " -12\n".toList = some (-12) := by
  refine ⟨⟨"007".toList, by decide, by simp, .inl ⟨rfl, by simp [digitsValue, Nat.ofDigits]⟩⟩,
    ⟨"0".toList, by decide, by simp, .inr ⟨rfl, by simp [digitsValue]⟩⟩,
    by simp [IsBlank, isAsciiSpace], by decide, by decide, by decide, by decide⟩

/-- `SensorTextsFollowTheRules`: a name with trailing whitespace; a field ended by the comma, by the line, by the output. -/
theorem witness_texts : IsTrimmedRight "gpuA \n".toList "gpuA".toList ∧ IsFirstField "62,5\n7".toList "62".toList ∧
    IsFirstField "62\n7,5".toList "62".toList ∧ IsFirstField "".toList "".toList := by
  refine ⟨⟨" \n".toList, by decide, by simp [IsBlank, isAsciiSpace], ?_⟩,
    ⟨by decide, by decide, ",5\n7".toList, by decide, ?_⟩,
    ⟨by decide, by decide, "\n7,5".toList, by decide, ?_⟩, by decide, by decide, [], rfl, nofun⟩
  all_goals
    intro c h
    simp at h
    subst h
    decide

/-- `TargetDutyFollowsTheRule`, `RateLimitFollowsTheRule`: the last legal and the first illegal operand, and each
direction of the move. -/
theorem witness_percents : (100 : Byte).toNat ≤ 100 ∧ 100 < (101 : Byte).toNat ∧ (0 : Byte).toNat < (100 : Byte).toNat ∧
    (30 : Byte).toNat ≤ (30 : Byte).toNat ∧ start.fault = none := by decide

/-- `ControllerLaws`, each clause at the ends of its range under `RC`. -/
theorem witness_controller : configOk referenceConfig = true ∧ referenceConfig.maxTemp ≤ 80 ∧
    (42 ≤ referenceConfig.minTemp + referenceConfig.deadBand ∧ 42 < referenceConfig.maxTemp) ∧
    ((1 : Int) ≠ 0 ∧ referenceConfig.minTemp - referenceConfig.deadBand ≤ 38 ∧ 38 ≤ referenceConfig.minTemp) ∧
    37 < referenceConfig.minTemp - referenceConfig.deadBand ∧
    (referenceConfig.minTemp < 41 ∧ 79 < referenceConfig.maxTemp) ∧
    (referenceConfig.minTemp < 43 ∧ referenceConfig.minTemp + referenceConfig.deadBand < 43) := by decide

/-- `ControlCycleRunsItsFiveSteps`, each clause. -/
theorem witness_cycle : configOk (looping .cycle).cfg = true ∧ Ready (looping .cycle) ∧ ToolReturns (looping .cycle) ∧
    (looping .cycle).ctl = some 0 ∧ (start.ctl = none ∧ start.fault = none) ∧
    ({ looping .cycle with session := .denied }).ctl = some 0 ∧
    ({ looping .cycle with session := .denied }).session ≠ .held :=
  ⟨by decide, by decide, ⟨_, _, rfl, by decide⟩, by decide, by decide, by decide, by decide⟩

/-- `HotCpuForcesFullDuty`, at the threshold. -/
theorem witness_hot :
    let s := { looping .cycle with env := envWith (refEc [(0xA0, 80)]) }
    Enabled s ∧ StepInv s ∧ s.loop = .cycle ∧ ToolReturns s ∧ s.ctl = some 0 ∧ s.cfg.cmdSetDuty ≠ s.cfg.cmdRead ∧
      s.cfg.dutyRawMax ≤ 255 ∧ s.cfg.maxTemp ≤ (cellRead [(0xA0, 80)] s.cfg.regCpuTemp.toNat).toNat := by
  refine ⟨by decide, ?_, by decide, ⟨_, _, rfl, by decide⟩, by decide, by decide, by decide, by decide⟩
  constructor <;> decide

/-- `AutoStartsTheLoop`, both clauses. -/
theorem witness_auto : (Ready start ∧ start.loop ≠ .exited) ∧ Ready { start with loop := .exited } := by decide

/-- `LoopPhasesFollowTheTable`, `OnlyTheStopFlagEndsTheLoop`: each phase, with and without the flag. -/
theorem witness_loop (p : LoopPhase) (h : loopRunning p = true) (b : Bool) :
    Enabled { looping p with stop := b } ∧ Ready { looping p with stop := b } ∧
      ToolReturns { looping p with stop := b } ∧ StepInv { looping p with stop := b } ∧
      ({ looping p with stop := b }).ctl ≠ none ∧ ∃ t, step { looping p with stop := b } = .next t := by
  refine ⟨⟨rfl, rfl, rc_ok⟩, ⟨rfl, rfl⟩, ⟨_, _, rfl, by decide⟩, ?_, nofun, ?_⟩
  · obtain ⟨h1, h2, h3, h4, h5, h6, h7, h8⟩ := looping_inv h
    exact ⟨h1, h2, h3, h4, h5, h6, h7, h8⟩
  · cases b <;> cases p <;> first | exact ⟨_, rfl⟩ | cases h

/-- `ManualCommandsWriteThenReport`, `InvalidPercentIsRejected`: the last percent admitted, the first refused; a missing
argument, one that is no numeral, and both sides of the range. -/
theorem witness_percent : (100 : Byte).toNat ≤ 100 ∧ 100 < (101 : Byte).toNat ∧
    InProcess (process (.text "set".toList none) .running) (.text "set".toList none) ∧
    Ready (process (.text "set".toList none) .running) ∧ String.ofList "set".toList ∈ ["set", "set1", "set2"] ∧
    (none : Option Text).bind parseDecimal = none ∧ (some "abc".toList).bind parseDecimal = none ∧
    (some "-1".toList).bind parseDecimal = some (-1) ∧ (some "101".toList).bind parseDecimal = some 101 := by
  decide

/-- `ProcessFollowsItsPhases`: each phase; a host command and two that are none. -/
theorem witness_process :
    InProcess (process (.encoded .dump) .start) (.encoded .dump) ∧
      InProcess { program [] with invocation := .process (.encoded .dump), cmd := ⟨.acquiring, false⟩ }
        (.encoded .dump) ∧
      (program []).acquireCount = 0 ∧ IsHostCommand (.encoded .dump) ∧ IsHostCommand (.text "auto".toList none) ∧
      ¬IsHostCommand (.text "foo".toList none) ∧ ¬IsHostCommand (.encoded .acquire) := by
  refine ⟨by decide, by decide, rfl, ?_, ?_, ?_, ?_⟩ <;> unfold IsHostCommand <;> decide

/-- `ProcessEndsWithItsExitStatus`: each command, and both ends of `auto`. -/
theorem witness_running (c : Command) (p : LoopPhase) (h : loopRunning p = false) :
    let s := { process c .running with loop := p }
    InProcess s c ∧ s.cmd.phase = .running ∧ Ready s ∧ ToolReturns s ∧
      (some "100".toList).bind parseDecimal = some ((100 : Byte).toNat : Int) ∧
      (some "0".toList).bind parseDecimal = some ((0 : Byte).toNat : Int) :=
  ⟨⟨⟨rfl, rfl, rc_ok⟩, h, rfl⟩, rfl, ⟨rfl, rfl⟩, ⟨_, _, rfl, by decide⟩, by decide, by decide⟩

/-- `HostCommandsNeverFault`, the second clause: a command about to run. -/
theorem witness_processInv :
    let s := process (.encoded .dump) .running
    s.invocation = .process (.encoded .dump) ∧ configOk s.cfg = true ∧ StepInv s ∧ ProcessInv s ∧
      ∃ t, step s = .next t := by
  refine ⟨rfl, by decide, ?_, ⟨rfl, .inr (.inl ⟨.inr rfl, rfl⟩)⟩, _, rfl⟩
  constructor <;> decide

end Sys2Proof.Tests
end

section
/-! The checks of a configuration before the block runs (rule R8), and rounding (rule R16). -/

namespace Sys2Proof.Machine

/-! ## Bad configurations -/

/-- Rule R8 with rule R276: the step of a state with a bad configuration raises `BadConfig` and does nothing else. -/
theorem step_badConfig {s : State} (hf : s.fault = none) (hst : s.stuckInTool = false) (hc : configOk s.cfg = false) :
    step s = .next { s with fault := some .badConfig } := by
  simp [step, machineStep, raise, hf, hst, hc]

/-- The interrupt source's move leaves the fault mark alone. -/
@[simp] theorem interrupt_fault (s : State) : (interrupt s).fault = s.fault := by rw [interrupt_eq]

/-- Under an admitted configuration `BadConfig` is never raised: the block's moves keep its absence (`Kept.admitted`),
and the interrupt source's move does not touch the mark. -/
theorem step_ne_badConfig {s t : State} (hc : configOk s.cfg = true) (h : step s = .next t) :
    t.fault ≠ some .badConfig := by
  obtain ⟨hf, -, ⟨hbad, -⟩ | ⟨-, u, hu, rfl⟩⟩ := step_next h
  · rw [hc] at hbad
    cases hbad
  · obtain ⟨es, hk⟩ := blockStep_keeps (budget_of_ok hc) hu
    have hs : s.fault ≠ some .badConfig := by simp [hf]
    rw [interrupt_fault]
    exact hk.admitted hs

/-- Settles O10: the checks are those of `configOk`, and a step either is the refusal or runs under an admitted
configuration. -/
theorem badConfigBeforeAnyStep : Obligations.BadConfigBeforeAnyStep := by
  intro s hf hst admitted
  have hadm : configOk s.cfg = true ↔ admitted := configOk_iff s.cfg
  constructor
  · intro hbad
    exact step_badConfig hf hst (Bool.eq_false_iff.2 (mt hadm.1 hbad))
  · intro hok t ht
    exact step_ne_badConfig (hadm.2 hok) ht

/-! ## Rounding -/

/-- Settles O35: `roundQuot` is a rounding of the quotient, and a quotient has only one. -/
theorem roundIsNearest : Obligations.RoundIsNearest := by
  intro tie num den n hden
  have hround := roundQuot_isRound tie num den hden
  constructor
  · intro hn
    exact hn.unique hround
  · rintro rfl
    exact hround

end Sys2Proof.Machine
end

section
/-! What a move of the block may do to the session, the controller and the process, the invariants of the state that
follow (rules R22 to R26, R32, R34, R35, R37, R110, R211), and that the channel's idle operands are never read (R24). -/

namespace Sys2Proof.Machine

/-! ## The interrupt source's move -/

@[simp] theorem interrupt_cfg (s : State) : (interrupt s).cfg = s.cfg := rfl
@[simp] theorem interrupt_session (s : State) : (interrupt s).session = s.session := rfl
@[simp] theorem interrupt_acquireCount (s : State) : (interrupt s).acquireCount = s.acquireCount := rfl
@[simp] theorem interrupt_stop (s : State) : (interrupt s).stop = (s.stop || (drawStop s.env).1) := rfl
@[simp] theorem interrupt_trace (s : State) : (interrupt s).trace = s.trace := rfl
@[simp] theorem interrupt_ec (s : State) : (interrupt s).env.ec = s.env.ec := by rw [interrupt_eq]

/-- A supplied answer is the one drawn, and a free one only counts (rule R279; log 2). -/
theorem drawStop_supplied {e : Env} {b : Bool} {rest : List Bool} (h : e.stops = b :: rest) :
    drawStop e = (b, { e with stops := rest }) := by
  simp [drawStop, h]

/-- The interrupt source touches nothing the invariant speaks of. -/
theorem StepInv.interrupt {s : State} (h : StepInv s) : StepInv (interrupt s) where
  channelIdle := h.channelIdle
  attempts := h.attempts
  session := h.session
  controller := h.controller
  loopSession := h.loopSession
  lastRange := h.lastRange
  exitStatus := h.exitStatus
  registers := by rw [interrupt_ec]; exact h.registers

/-! ## What every operation and every step keeps -/

/-- An operation under an admitted configuration keeps what `Kept` says. -/
theorem exec_next_keeps {i : Instr} {s t : State} (hc : configOk s.cfg = true) (h : exec i s = .next t) :
    ∃ es, Kept s t es := by
  rw [exec_eq_next] at h
  subst h
  exact exec_keeps i s (budget_of_ok hc)

/-- A step is the refusal of a bad configuration, or a move of the block that keeps what `Kept` says, with the interrupt
source's move after it. -/
theorem step_next_keeps {s t : State} (h : step s = .next t) :
    t = { s with fault := some .badConfig } ∨
      (configOk s.cfg = true ∧ ∃ u es, blockStep s = .next u ∧ Kept s u es ∧ t = interrupt u) := by
  obtain ⟨-, -, ⟨-, ht⟩ | ⟨hc, u, hu, ht⟩⟩ := step_next h
  · exact .inl ht
  · obtain ⟨es, hk⟩ := blockStep_keeps (budget_of_ok hc) hu
    exact .inr ⟨hc, u, es, hu, hk, ht⟩

/-- Settles O9: the mark is tested before anything else, and every operation keeps it (`Kept.sticky`). -/
theorem faultIsSticky : Obligations.FaultIsSticky := by
  refine ⟨rfl, fun s f hf => ?_, fun i s t f hc h hf => ?_⟩
  · simp [step, machineStep, hf]
  · obtain ⟨es, hk⟩ := exec_next_keeps hc h
    exact hk.sticky f hf

/-- Settles O11: every move of the block keeps the configuration (`Kept.cfg`), and so does the interrupt source. -/
theorem configurationIsReadOnly : Obligations.ConfigurationIsReadOnly := by
  refine ⟨fun s t h => ?_, fun i s t hc h => ?_⟩
  · obtain rfl | ⟨-, u, es, -, hk, rfl⟩ := step_next_keeps h
    · rfl
    · exact (interrupt_cfg u).trans hk.cfg
  · obtain ⟨es, hk⟩ := exec_next_keeps hc h
    exact hk.cfg

theorem Kept.trace_prefix {s t : State} {es : List Event} (h : Kept s t es) : s.trace <+: t.trace := ⟨es, h.trace.symm⟩

/-- Settles O12: a move appends its events to the trace (`Kept.trace`), the interrupt source none. -/
theorem traceOnlyGrows : Obligations.TraceOnlyGrows := by
  refine ⟨fun s t h => ?_, fun i s t hc h => ?_⟩
  · obtain rfl | ⟨-, u, es, -, hk, rfl⟩ := step_next_keeps h
    · exact List.prefix_rfl
    · rw [interrupt_trace]
      exact hk.trace_prefix
  · obtain ⟨es, hk⟩ := exec_next_keeps hc h
    exact hk.trace_prefix

/-- Settles O14: the block's moves leave the flag (`Kept.stop`), and the interrupt source's move is its disjunction with
the answer drawn. -/
theorem stopOnlyRises : Obligations.StopOnlyRises := by
  refine ⟨fun s t h hs => ?_, fun i s t hc h => ?_, fun t => ?_⟩
  · obtain rfl | ⟨-, u, es, -, hk, rfl⟩ := step_next_keeps h
    · exact hs
    · rw [interrupt_stop, hk.stop, hs, Bool.true_or]
  · obtain ⟨es, hk⟩ := exec_next_keeps hc h
    exact hk.stop
  · refine ⟨_, _, _, interrupt_eq t, fun b rest hb => ?_⟩
    rw [drawStop_supplied hb]
    exact ⟨rfl, rfl, rfl⟩

/-! ## What a move may do to the session, the controller and the process -/

/-- Neither the session nor the count of acquisitions changes, or the one `ACQUIRE` decides them (rules R22, R23). -/
def SessionMove (s t : State) : Prop :=
  (t.session = s.session ∧ t.acquireCount = s.acquireCount) ∨
    (s.acquireCount = 0 ∧ t.acquireCount = 1 ∧ (t.session = .held ∨ t.session = .denied))

/-- The ControlState is left, or takes the duty a cycle commands (rules R25, R205). -/
def CtlUpdate (s t : State) : Prop :=
  t.ctl = s.ctl ∨ ∃ last hot, s.ctl = some last ∧ t.ctl = some (dutyAt s.cfg hot last)

/-- The loop goes on or stays out of progress with an updated ControlState, starts with a new one in a held session, or
ends and discards it (rules R103, R207, R210). -/
def ControllerMove (s t : State) : Prop :=
  (CtlUpdate s t ∧ loopRunning t.loop = loopRunning s.loop) ∨
    (s.session = .held ∧ t.ctl = some (s.cfg.initLast.val : Int) ∧ loopRunning t.loop = true) ∨
    (t.ctl = none ∧ loopRunning t.loop = false)

/-- The exit status is left, the process neither ending nor leaving its end, or is written as it ends (rules R32, R247). -/
def ExitMove (s t : State) : Prop :=
  (t.exit = s.exit ∧ (t.cmd.phase = .ended ↔ s.cmd.phase = .ended)) ∨
    (t.cmd.phase = .ended ∧ (t.exit = some 0 ∨ t.exit = some s.cfg.exitFail.val))

/-- What any move of the block does to the session, the controller and the process. -/
structure BlockMove (s t : State) : Prop where
  session : SessionMove s t
  controller : ControllerMove s t
  exit : ExitMove s t

/-- The session, the loop and the process stand where they stood. -/
structure SameProgress (s t : State) : Prop where
  session : t.session = s.session
  acquireCount : t.acquireCount = s.acquireCount
  loop : t.loop = s.loop
  exit : t.exit = s.exit
  phase : t.cmd.phase = s.cmd.phase

theorem SameProgress.exitMove {s t : State} (h : SameProgress s t) : ExitMove s t := .inl ⟨h.exit, by rw [h.phase]⟩

theorem SameProgress.blockMove {s t : State} (h : SameProgress s t) (hc : CtlUpdate s t) : BlockMove s t :=
  ⟨.inl ⟨h.session, h.acquireCount⟩, .inl ⟨hc, by rw [h.loop]⟩, h.exitMove⟩

/-- A move that leaves all of it alone. -/
theorem blockMove_plain {s t : State} (h1 : t.session = s.session) (h2 : t.acquireCount = s.acquireCount)
    (h3 : loopRunning t.loop = loopRunning s.loop) (h4 : t.ctl = s.ctl) (h5 : ExitMove s t) : BlockMove s t :=
  ⟨.inl ⟨h1, h2⟩, .inl ⟨.inl h4, h3⟩, h5⟩

@[simp] theorem returned_session {α : Type} (f : α → OpResult) (r : Res α) :
    (returned f r).session = r.after.session := by
  cases r <;> rfl

@[simp] theorem returned_acquireCount {α : Type} (f : α → OpResult) (r : Res α) :
    (returned f r).acquireCount = r.after.acquireCount := by
  cases r <;> rfl

@[simp] theorem returned_ctl {α : Type} (f : α → OpResult) (r : Res α) : (returned f r).ctl = r.after.ctl := by
  cases r <;> rfl

theorem SameProgress.returned {α : Type} {s : State} {r : Res α} (h : SameProgress s r.after) (f : α → OpResult) :
    SameProgress s (returned f r) := by
  cases r <;> exact ⟨h.session, h.acquireCount, h.loop, h.exit, h.phase⟩

theorem BlockMove.returned {α : Type} {s : State} {r : Res α} (h : BlockMove s r.after) (f : α → OpResult) :
    BlockMove s (returned f r) := by
  cases r <;> exact ⟨h.session, h.controller, h.exit⟩

theorem raise_sameProgress (f : FaultKind) (s : State) : SameProgress s (raise f s) := by
  constructor <;> simp

/-! ## Operations -/

theorem CalmOp.cfg {α : Type} {n : Nat} {s : State} {r : Res α} (h : CalmOp n s r) : r.after.cfg = s.cfg :=
  h.calm.elim fun _ hc => hc.cfg

theorem CalmOp.sameProgress {α : Type} {n : Nat} {s : State} {r : Res α} (h : CalmOp n s r)
    (hp : r.after.cmd.phase = s.cmd.phase) : SameProgress s r.after := by
  obtain ⟨es, hc⟩ := h.calm
  obtain ⟨hs, hn, hl, he, -, -, -⟩ := hc.fields
  exact ⟨hs, hn, hl, he, hp⟩

/-- An operation stays put: it leaves the session, the controller, the loop and the process where they stood. -/
def StaysPut {α : Type} (s : State) (r : Res α) : Prop := SameProgress s r.after ∧ r.after.ctl = s.ctl

theorem OpSpec.staysPut {α : Type} {n : Nat} {s : State} {r : Res α} (h : OpSpec n s r) : StaysPut s r := by
  obtain ⟨hctl, -, hcmd⟩ := h.kept
  exact ⟨h.calmOp.sameProgress (by rw [hcmd]), hctl⟩

theorem manualCommand_staysPut {n : Nat} (p : Except Rejected Int) (write : Int → State → Res Bool) (s : State)
    (hB : 1 ≤ s.cfg.pollBudget) (hw : ∀ d, OpSpec n s (write d s)) : StaysPut s (manualCommand p write s) := by
  obtain ⟨hctl, -, hcmd⟩ := manualCommand_kept p write s hB hw
  refine ⟨(manualCommand_calmOp p write s hB hw).sameProgress ?_, hctl⟩
  rcases hcmd with hcmd | hcmd <;> rw [hcmd]

theorem setCommand_staysPut (p : Except Rejected Int) (s : State) (hB : 1 ≤ s.cfg.pollBudget) :
    StaysPut s (setCommand p s) := manualCommand_staysPut p _ s hB fun d => writeForSet_opSpec d s hB

theorem set1Command_staysPut (p : Except Rejected Int) (s : State) (hB : 1 ≤ s.cfg.pollBudget) :
    StaysPut s (set1Command p s) := manualCommand_staysPut p _ s hB fun d => writeForOne_opSpec .one d s hB

theorem set2Command_staysPut (p : Except Rejected Int) (s : State) (hB : 1 ≤ s.cfg.pollBudget) :
    StaysPut s (set2Command p s) := manualCommand_staysPut p _ s hB fun d => writeForOne_opSpec .two d s hB

/-- A cycle writes the ControlState at most (rules R204, R205). -/
theorem controlCycle_progress (s : State) (hB : 1 ≤ s.cfg.pollBudget) :
    SameProgress s (controlCycle s).after ∧ CtlUpdate s (controlCycle s).after := by
  cases hl : s.ctl with
  | none =>
    rw [controlCycle_none hl]
    exact ⟨raise_sameProgress _ s, .inl (raise_ctl _ s)⟩
  | some last =>
    refine ⟨(controlCycle_calmOp hl hB).sameProgress (by rw [controlCycle_cmd s hB]), ?_⟩
    rcases controlCycle_ctl hB hl with h | ⟨hot, h⟩
    · exact .inl (h.trans hl.symm)
    · exact .inr ⟨last, hot, hl, h⟩

/-- The start of the loop does not touch the session. -/
theorem startLoop_session (s : State) :
    (startLoop s).after.session = s.session ∧ (startLoop s).after.acquireCount = s.acquireCount := by
  rcases startLoop_after s with ⟨f, -, h⟩ | ⟨-, -, h⟩ | ⟨-, -, h⟩ <;> rw [h]
  · exact ⟨raise_session f s, raise_acquireCount f s⟩
  · exact ⟨rfl, rfl⟩
  · exact ⟨rfl, rfl⟩

theorem startLoop_blockMove (s : State) : BlockMove s (startLoop s).after := by
  rcases startLoop_after s with ⟨f, -, h⟩ | ⟨-, -, h⟩ | ⟨hr, -, h⟩ <;> rw [h]
  · exact (raise_sameProgress f s).blockMove (.inl (raise_ctl f s))
  · exact blockMove_plain rfl rfl rfl rfl (.inl ⟨rfl, Iff.rfl⟩)
  · exact ⟨.inl ⟨rfl, rfl⟩, .inr (.inl ⟨hr.1, rfl, rfl⟩), .inl ⟨rfl, Iff.rfl⟩⟩

/-- `ACQUIRE` decides the session or, called again, raises its fault (rule R100). -/
theorem acquire_blockMove (s : State) : BlockMove s (acquire s).after ∧ (acquire s).after.exit = s.exit := by
  rcases acquire_after s with ⟨-, h⟩ | ⟨h0, granted, r, h, -, -⟩ <;> rw [h]
  · exact ⟨(raise_sameProgress _ s).blockMove (.inl (raise_ctl _ s)), raise_exit _ s⟩
  · refine ⟨⟨.inr ⟨h0, rfl, ?_⟩, .inl ⟨.inl rfl, rfl⟩, .inl ⟨rfl, Iff.rfl⟩⟩, rfl⟩
    cases granted
    · exact .inr rfl
    · exact .inl rfl

theorem StaysPut.returned {α : Type} {s : State} {r : Res α} (h : StaysPut s r) (f : α → OpResult) :
    SameProgress s (returned f r) ∧ (returned f r).ctl = s.ctl := by
  obtain ⟨hp, hctl⟩ := h
  exact ⟨hp.returned f, (returned_ctl f r).trans hctl⟩

/-! ## Instructions -/

theorem execState_auto (s : State) : execState .auto s = returned (fun _ => .ok) (startLoop s) := rfl

theorem execState_targetDuty (hot last : Byte) (s : State) :
    execState (.targetDuty hot last) s =
      if PercentOperand last then
        { (setOverride (targetDuty s.cfg hot.toNat last.toNat).2 s) with
          ret := some (.target (targetDuty s.cfg hot.toNat last.toNat).1 (targetDuty s.cfg hot.toNat last.toNat).2) }
      else raise .illegalEncoding s := by
  rw [← exec_eq_next]
  simp only [exec, execTargetDuty]
  split <;> rfl

theorem execState_rateLimit (o : Bool) (last target : Byte) (s : State) :
    execState (.rateLimit o last target) s =
      if PercentOperand last ∧ PercentOperand target then
        { s with ret := some (.number (rateLimit s.cfg o last.toNat target.toNat)) }
      else raise .illegalEncoding s := by
  rw [← exec_eq_next]
  simp only [exec, execRateLimit]
  split <;> rfl

/-- Every operation but `ACQUIRE`, `AUTO` and `CONTROL_CYCLE` leaves the session, the controller and the process. -/
theorem exec_staysPut (i : Instr) (s : State) (hB : 1 ≤ s.cfg.pollBudget) (h1 : i ≠ .acquire) (h2 : i ≠ .auto)
    (h3 : i ≠ .controlCycle) : SameProgress s (execState i s) ∧ (execState i s).ctl = s.ctl := by
  cases i with
  | acquire => exact absurd rfl h1
  | auto => exact absurd rfl h2
  | controlCycle => exact absurd rfl h3
  | set p => exact (setCommand_staysPut _ s hB).returned _
  | set1 p => exact (set1Command_staysPut _ s hB).returned _
  | set2 p => exact (set2Command_staysPut _ s hB).returned _
  | dump => exact (dumpCommand_opSpec s hB).staysPut.returned _
  | ecRead a => exact (ecRead_opSpec a s hB).staysPut.returned _
  | ecWrite c a v => exact (ecWrite_opSpec c a v s hB).staysPut.returned _
  | cpuTempRead => exact (cpuTempRead_opSpec s hB).staysPut.returned _
  | gpuTempEcRead => exact (gpuTempEcRead_opSpec s hB).staysPut.returned _
  | fanDutyRead ch => exact (fanDutyRead_opSpec ch s hB).staysPut.returned _
  | fanRpmRead ch => exact (fanRpmRead_opSpec ch s hB).staysPut.returned _
  | fanDutyWrite ch p => exact (fanDutyWrite_opSpec ch _ s hB).staysPut.returned _
  | resolveCpu => exact (resolveCpu_opSpec s hB).staysPut.returned _
  | resolveGpu => exact (resolveGpu_opSpec s hB).staysPut.returned _
  | report => exact (reportAlone_opSpec s hB).staysPut.returned _
  | targetDuty hot last =>
    rw [execState_targetDuty]
    split
    · exact ⟨⟨rfl, rfl, rfl, rfl, rfl⟩, rfl⟩
    · exact ⟨raise_sameProgress _ s, raise_ctl _ s⟩
  | rateLimit o last target =>
    rw [execState_rateLimit]
    split
    · exact ⟨⟨rfl, rfl, rfl, rfl, rfl⟩, rfl⟩
    · exact ⟨raise_sameProgress _ s, raise_ctl _ s⟩

theorem controlCycle_blockMove (s : State) (hB : 1 ≤ s.cfg.pollBudget) : BlockMove s (controlCycle s).after := by
  obtain ⟨hp, hc⟩ := controlCycle_progress s hB
  exact hp.blockMove hc

theorem exec_blockMove (i : Instr) (s : State) (hB : 1 ≤ s.cfg.pollBudget) : BlockMove s (execState i s) := by
  by_cases h1 : i = .acquire
  · subst h1
    exact (acquire_blockMove s).1.returned _
  by_cases h2 : i = .auto
  · subst h2
    exact (startLoop_blockMove s).returned _
  by_cases h3 : i = .controlCycle
  · subst h3
    exact (controlCycle_blockMove s hB).returned _
  obtain ⟨hp, hc⟩ := exec_staysPut i s hB h1 h2 h3
  exact hp.blockMove (.inl hc)

/-- Every operation but `ACQUIRE` leaves the session (rules R22, R23). -/
theorem exec_session {i : Instr} {s : State} (hB : 1 ≤ s.cfg.pollBudget) (h1 : i ≠ .acquire) :
    (execState i s).session = s.session ∧ (execState i s).acquireCount = s.acquireCount := by
  by_cases h2 : i = .auto
  · subst h2
    rw [execState_auto, returned_session, returned_acquireCount]
    exact startLoop_session s
  by_cases h3 : i = .controlCycle
  · subst h3
    have hp := (controlCycle_progress s hB).1.returned fun _ => .ok
    exact ⟨hp.session, hp.acquireCount⟩
  have hp := (exec_staysPut i s hB h1 h2 h3).1
  exact ⟨hp.session, hp.acquireCount⟩

/-! ## The block's own moves -/

theorem exitStatus_mem (s : State) : exitStatus s = 0 ∨ exitStatus s = s.cfg.exitFail.val := by
  unfold exitStatus
  split
  · exact .inr rfl
  · exact .inl rfl

/-- A move of the loop's phase alone, the loop staying in progress. -/
theorem loopPhase_blockMove {s : State} {p : LoopPhase} (hl : loopRunning s.loop = true) (hp : loopRunning p = true) :
    BlockMove s { s with loop := p } :=
  blockMove_plain rfl rfl (hp.trans hl.symm) rfl (.inl ⟨rfl, Iff.rfl⟩)

/-- A check point of the stop flag ends the loop or moves its phase (rule R208). -/
theorem checkPoint_blockMove {s : State} {p : LoopPhase} (hl : loopRunning s.loop = true)
    (hp : loopRunning p = true) : BlockMove s (if s.stop then exitLoop s else { s with loop := p }) := by
  split
  · exact ⟨.inl ⟨rfl, rfl⟩, .inr (.inr ⟨rfl, rfl⟩), .inl ⟨rfl, Iff.rfl⟩⟩
  · exact loopPhase_blockMove hl hp

/-- The phases of the loop in progress (rules R207, R208, R209). -/
theorem loopStep_blockMove {s t : State} (hB : 1 ≤ s.cfg.pollBudget) (hl : loopRunning s.loop = true)
    (h : loopStep s = .next t) : BlockMove s t := by
  unfold loopStep at h
  cases hp : s.loop <;> rw [hp] at h <;> dsimp only at h
  case off => rw [hp] at hl; cases hl
  case exited => rw [hp] at hl; cases hl
  case top => cases h; exact checkPoint_blockMove hl rfl
  case preSleep => cases h; exact checkPoint_blockMove hl rfl
  case postSleep => cases h; exact checkPoint_blockMove hl rfl
  case sleeping =>
    cases h
    obtain ⟨hs, hc, he⟩ := loopPhase_blockMove (p := .postSleep) hl rfl
    exact ⟨hs, hc, he⟩
  case cycle =>
    obtain ⟨hs, hc⟩ := controlCycle_progress s hB
    cases hr : controlCycle s <;> rw [hr] at h hs hc <;> cases h
    case done _ u => exact ⟨.inl ⟨hs.session, hs.acquireCount⟩, .inl ⟨hc, hl.symm⟩, hs.exitMove⟩
    case halted => exact hs.blockMove hc

/-- The end of a process leaves the session and the controller. -/
theorem endProcess_blockMove {s t : State} {status : Int} (hs : SessionMove s t) (hc : ControllerMove s t)
    (he : status = 0 ∨ status = s.cfg.exitFail.val) : BlockMove s (endProcess status t) :=
  ⟨hs, hc, .inr ⟨rfl, by simpa using he⟩⟩

/-- The end of a manual command's or `DUMP`'s rule (rules R240, R247). -/
theorem endCommand_blockMove {s t : State} {r : Res (Except ErrorKind Unit)} (hr : StaysPut s r)
    (hcfg : r.after.cfg = s.cfg) (h : endCommand r = .next t) : BlockMove s t := by
  obtain ⟨hp, hctl⟩ := hr
  have hm := hp.blockMove (.inl hctl)
  cases r <;> cases h
  case done a u =>
    have he := exitStatus_mem u
    rw [show u.cfg = s.cfg from hcfg] at he
    exact endProcess_blockMove hm.session hm.controller he
  case halted => exact hm

/-- `AUTO` run by `PROCESS` starts the loop or, once it has exited, ends the process (rules R207, R246). -/
theorem processAuto_blockMove {s t : State} (h : processAuto s = .next t) : BlockMove s t := by
  unfold processAuto at h
  split at h
  · cases h
    exact endProcess_blockMove (.inl ⟨rfl, rfl⟩) (.inl ⟨.inl rfl, rfl⟩) (exitStatus_mem s)
  · have hm := startLoop_blockMove s
    cases hr : startLoop s <;> rw [hr] at h hm <;> cases h <;> exact hm

/-- `RUNNING`: the command's rule (rule R240). -/
theorem processRun_blockMove {c : HostCommand} {s t : State} (hB : 1 ≤ s.cfg.pollBudget)
    (h : processRun c s = .next t) : BlockMove s t := by
  cases c with
  | set p => exact endCommand_blockMove (setCommand_staysPut p s hB) (setCommand_calmOp p s hB).cfg h
  | set1 p => exact endCommand_blockMove (set1Command_staysPut p s hB) (set1Command_calmOp p s hB).cfg h
  | set2 p => exact endCommand_blockMove (set2Command_staysPut p s hB) (set2Command_calmOp p s hB).cfg h
  | dump => exact endCommand_blockMove (dumpCommand_opSpec s hB).staysPut (dumpCommand_opSpec s hB).calmOp.cfg h
  | auto => exact processAuto_blockMove h

/-- `ACQUIRING`: on to `DISPATCH`, or the end of the process (rules R100, R240, R271). -/
theorem processAcquire_blockMove {s t : State} (hp : s.cmd.phase = .acquiring) (h : processAcquire s = .next t) :
    BlockMove s t := by
  obtain ⟨hm, hexit⟩ := acquire_blockMove s
  unfold processAcquire at h
  cases hr : acquire s with
  | halted u => rw [hr] at h hm; cases h; exact hm
  | done r u =>
    rw [hr] at h hm hexit
    cases r with
    | ok => cases h; exact ⟨hm.session, hm.controller, .inl ⟨hexit, by simp [hp]⟩⟩
    | error e => cases h; exact endProcess_blockMove hm.session hm.controller (.inr rfl)

/-- A move of the process's phase alone, before its end (rule R240). -/
theorem cmdPhase_blockMove {s : State} {p : CmdPhase} (hs : s.cmd.phase ≠ .ended) (hp : p ≠ .ended) :
    BlockMove s (setCmdPhase p s) :=
  blockMove_plain rfl rfl rfl rfl (.inl ⟨rfl, by simp [hs, hp]⟩)

/-- An unknown command ends the process (rules R240, R274). -/
theorem unknownCommand_blockMove (c : Command) (s : State) : BlockMove s (unknownCommand c s) :=
  endProcess_blockMove (.inl ⟨rfl, rfl⟩) (.inl ⟨.inl rfl, rfl⟩) (.inr rfl)

/-- The phases of `PROCESS` (rule R240). -/
theorem processStep_blockMove {c : Command} {s t : State} (hB : 1 ≤ s.cfg.pollBudget)
    (h : processStep c s = .next t) : BlockMove s t := by
  unfold processStep at h
  cases hp : s.cmd.phase <;> rw [hp] at h <;> dsimp only at h
  case start => cases h; exact cmdPhase_blockMove (by simp [hp]) (by simp)
  case acquiring => exact processAcquire_blockMove hp h
  case dispatch =>
    split at h <;> cases h
    · exact unknownCommand_blockMove c s
    · exact cmdPhase_blockMove (by simp [hp]) (by simp)
  case running =>
    split at h
    · cases h
      exact unknownCommand_blockMove c s
    · exact processRun_blockMove hB h
  case ended => cases h

/-- A word of a program: the illegal one's fault, or the operation with the program moved past it (rules R77, R83). -/
theorem wordStep_blockMove {w : Word} {rest : List Word} {s t : State} (hB : 1 ≤ s.cfg.pollBudget)
    (h : wordStep w rest s = .next t) : BlockMove s t := by
  unfold wordStep at h
  split at h
  · cases h
    exact (raise_sameProgress _ s).blockMove (.inl (raise_ctl _ s))
  · rw [exec_eq_next] at h
    subst h
    obtain ⟨hs, hc, he⟩ := exec_blockMove ‹Instr› { s with invocation := .program rest } hB
    exact ⟨hs, hc, he⟩

theorem blockStep_blockMove {s t : State} (hB : 1 ≤ s.cfg.pollBudget) (h : blockStep s = .next t) : BlockMove s t := by
  unfold blockStep at h
  split at h
  case isTrue hl => exact loopStep_blockMove hB hl h
  case isFalse =>
    cases hi : s.invocation with
    | nothing => rw [hi] at h; cases h
    | process c => rw [hi] at h; exact processStep_blockMove hB h
    | program ws =>
      rw [hi] at h
      cases ws with
      | nil => cases h
      | cons w rest => exact wordStep_blockMove hB h

/-! ## The session -/

/-- Settles O13: a step's move changes the session only by deciding it, and no operation but `ACQUIRE` writes it. -/
theorem sessionIsDecidedOnce : Obligations.SessionIsDecidedOnce := by
  refine ⟨fun s t h hne => ?_, fun i s t hc h hi => ?_⟩
  · obtain rfl | ⟨hc, u, -, hu, -, rfl⟩ := step_next_keeps h
    · exact absurd rfl hne
    · rw [interrupt_session, interrupt_acquireCount]
      rw [interrupt_session] at hne
      rcases (blockStep_blockMove (budget_of_ok hc) hu).session with ⟨hs, -⟩ | hdecided
      · exact absurd hs hne
      · exact hdecided
  · rw [exec_eq_next] at h
    subst h
    exact exec_session (budget_of_ok hc) hi

/-! ## The invariant -/

/-- In the invariant a session that is held is decided, so that a move leaves it. -/
theorem SessionMove.held {s t : State} (h : SessionMove s t) (hi : StepInv s) (hs : s.session = .held) :
    t.session = .held := by
  rcases h with ⟨ht, -⟩ | ⟨h0, -, -⟩
  · exact ht.trans hs
  · rcases hi.session with ⟨hn, -⟩ | ⟨-, h1⟩
    · rw [hs] at hn
      cases hn
    · omega

theorem SessionMove.decided {s t : State} (h : SessionMove s t)
    (hs : (s.session = .none ∧ s.acquireCount = 0) ∨ (s.session ≠ .none ∧ s.acquireCount = 1)) :
    (t.session = .none ∧ t.acquireCount = 0) ∨ (t.session ≠ .none ∧ t.acquireCount = 1) := by
  rcases h with ⟨h1, h2⟩ | ⟨-, h1, h2⟩
  · rwa [h1, h2]
  · exact .inr ⟨by rcases h2 with h2 | h2 <;> simp [h2], h1⟩

/-- The duty a cycle commands is a percentage (rules R201, R203). -/
theorem dutyAt_range {c : Config} (hc : configOk c = true) (hot : Int) {last : Int} (hl : 0 ≤ last ∧ last ≤ 100) :
    0 ≤ dutyAt c hot last ∧ dutyAt c hot last ≤ 100 :=
  rateLimit_range (step_of_ok hc) _ hl (targetValue_range hc hot last)

theorem CtlUpdate.isSome {s t : State} (h : CtlUpdate s t) : t.ctl.isSome = s.ctl.isSome := by
  rcases h with h | ⟨last, hot, hs, ht⟩
  · rw [h]
  · rw [hs, ht]; rfl

theorem ControllerMove.present {s t : State} (h : ControllerMove s t) (hs : s.ctl.isSome = loopRunning s.loop) :
    t.ctl.isSome = loopRunning t.loop := by
  rcases h with ⟨hu, hl⟩ | ⟨-, ht, hl⟩ | ⟨ht, hl⟩
  · rw [hu.isSome, hl, hs]
  · rw [ht, hl]; rfl
  · rw [ht, hl]; rfl

theorem ControllerMove.range {s t : State} (h : ControllerMove s t) (hc : configOk s.cfg = true)
    (hs : ∀ last, s.ctl = some last → 0 ≤ last ∧ last ≤ 100) : ∀ last, t.ctl = some last → 0 ≤ last ∧ last ≤ 100 := by
  intro last hlast
  rcases h with ⟨hu | ⟨l, hot, hl, ht⟩, -⟩ | ⟨-, ht, -⟩ | ⟨ht, -⟩
  · exact hs last (hu ▸ hlast)
  · cases hlast.symm.trans ht
    exact dutyAt_range hc hot (hs l hl)
  · cases hlast.symm.trans ht
    have := s.cfg.initLast.isLt
    omega
  · rw [ht] at hlast
    cases hlast

/-- The loop is in progress after a move only if it was before or the session is held. -/
theorem ControllerMove.running {s t : State} (h : ControllerMove s t) (ht : loopRunning t.loop = true) :
    loopRunning s.loop = true ∨ s.session = .held := by
  rcases h with ⟨-, hl⟩ | ⟨hs, -, -⟩ | ⟨-, hl⟩
  · exact .inl (hl ▸ ht)
  · exact .inr hs
  · rw [hl] at ht
    cases ht

theorem ExitMove.status {s t : State} (h : ExitMove s t) (hcfg : t.cfg = s.cfg)
    (hs : (s.exit = none ∧ s.cmd.phase ≠ .ended) ∨
      (s.cmd.phase = .ended ∧ (s.exit = some 0 ∨ s.exit = some s.cfg.exitFail.val))) :
    (t.exit = none ∧ t.cmd.phase ≠ .ended) ∨
      (t.cmd.phase = .ended ∧ (t.exit = some 0 ∨ t.exit = some t.cfg.exitFail.val)) := by
  rw [hcfg]
  rcases h with ⟨he, hp⟩ | h
  · rwa [he, Ne, hp]
  · exact .inr h

/-- A move of the block keeps the invariant. -/
theorem StepInv.blockMove {s t : State} {es : List Event} (hi : StepInv s) (hc : configOk s.cfg = true)
    (hk : Kept s t es) (hm : BlockMove s t) : StepInv t where
  channelIdle := ⟨hk.idle hi.channelIdle.1, hk.kind hi.channelIdle.2⟩
  attempts := by rw [hk.cfg]; exact hk.attempt hi.attempts
  session := hm.session.decided hi.session
  controller := hm.controller.present hi.controller
  loopSession ht := hm.session.held hi ((hm.controller.running ht).elim hi.loopSession id)
  lastRange := hm.controller.range hc hi.lastRange
  exitStatus := hm.exit.status hk.cfg hi.exitStatus
  registers := hk.cells hi.registers

/-- Settles O8: the refusal of a bad configuration writes the fault mark alone, and a move of the block keeps the
invariant, as does the interrupt source's after it. -/
theorem invariantKeptByEveryStep : Obligations.InvariantKeptByEveryStep := by
  intro s t hi h
  obtain rfl | ⟨hc, u, es, hu, hk, rfl⟩ := step_next_keeps h
  · exact ⟨hi.channelIdle, hi.attempts, hi.session, hi.controller, hi.loopSession, hi.lastRange, hi.exitStatus,
      hi.registers⟩
  · exact (hi.blockMove hc hk (blockStep_blockMove (budget_of_ok hc) hu)).interrupt

/-! ## The channel's idle operands -/

/-- The channel with other `cmd` and `value` operands. -/
def withOperands (cmd value : Byte) (s : State) : State :=
  { s with chan := { s.chan with cmd := cmd, value := value } }

section
variable (cmd value : Byte) (s : State)

/-! No part of a read reads `cmd` or `value`: each does the same and carries them along. -/

@[simp] theorem withOperands_cfg : (withOperands cmd value s).cfg = s.cfg := rfl
@[simp] theorem withOperands_addr : (withOperands cmd value s).chan.addr = s.chan.addr := rfl
@[simp] theorem withOperands_attempt : (withOperands cmd value s).chan.attempt = s.chan.attempt := rfl
@[simp] theorem withOperands_timedOut : (withOperands cmd value s).chan.timedOut = s.chan.timedOut := rfl

@[simp] theorem portIn_withOperands (p : Port) :
    portIn p (withOperands cmd value s) = ((portIn p s).1, withOperands cmd value (portIn p s).2) := rfl

@[simp] theorem portOut_withOperands (p : Port) (v : Byte) :
    portOut p v (withOperands cmd value s) = withOperands cmd value (portOut p v s) := rfl

@[simp] theorem sleep_withOperands (ms : Nat) :
    sleep ms (withOperands cmd value s) = withOperands cmd value (sleep ms s) := rfl

@[simp] theorem setAttempt_withOperands (n : Nat) :
    setAttempt n (withOperands cmd value s) = withOperands cmd value (setAttempt n s) := rfl

@[simp] theorem setPhase_withOperands (p : ChanPhase) :
    setPhase p (withOperands cmd value s) = withOperands cmd value (setPhase p s) := rfl

@[simp] theorem markTimedOut_withOperands (k : Nat) :
    markTimedOut k (withOperands cmd value s) = withOperands cmd value (markTimedOut k s) := rfl

@[simp] theorem takeResult_withOperands :
    takeResult (withOperands cmd value s) = withOperands cmd value (takeResult s) := rfl

@[simp] theorem readSample_withOperands :
    readSample (withOperands cmd value s) = ((readSample s).1, withOperands cmd value (readSample s).2) := rfl

theorem poll_withOperands (cond : Byte → Bool) (n : Nat) :
    poll cond n (withOperands cmd value s) = ((poll cond n s).1, withOperands cmd value (poll cond n s).2) := by
  induction n generalizing s with
  | zero => rfl
  | succ n ih =>
    simp only [poll, withOperands_attempt, setAttempt_withOperands, portIn_withOperands, withOperands_cfg,
      sleep_withOperands, ih]
    split
    · rfl
    · split <;> rfl

@[simp] theorem wait_withOperands (cond : Byte → Bool) :
    wait cond (withOperands cmd value s) = ((wait cond s).1, withOperands cmd value (wait cond s).2) := by
  simp only [wait, withOperands_cfg, setAttempt_withOperands, poll_withOperands]

@[simp] theorem readWait_withOperands (k : Nat) (cond : Byte → Bool) (p : ChanPhase) :
    readWait k cond p (withOperands cmd value s) =
      ((readWait k cond p s).1, withOperands cmd value (readWait k cond p s).2) := by
  simp only [readWait, setPhase_withOperands, wait_withOperands, withOperands_cfg, markTimedOut_withOperands]
  split
  · rfl
  · split <;> rfl

theorem readSequence_withOperands :
    readSequence (withOperands cmd value s) = ((readSequence s).1, withOperands cmd value (readSequence s).2) := by
  simp only [readSequence, withOperands_cfg, withOperands_addr, readWait_withOperands, portOut_withOperands,
    readSample_withOperands]
  split
  · split <;> rfl
  · rfl

end

/-- Settles O24: the entry of a read overwrites `addr` and its sequence carries `cmd` and `value` along, the entry of a
write overwrites all three. -/
theorem idleOperandsAreNeverRead : Obligations.IdleOperandsAreNeverRead := by
  intro s cmd addr value hr s'
  have hs : channelFault s = none := channelFault_none.2 hr
  have hs' : channelFault s' = none := channelFault_none.2 hr
  refine ⟨fun a => ?_, fun c a v => ?_⟩
  · have hentry : beginRead a s' = withOperands cmd value (beginRead a s) := rfl
    simp only [ecRead, hs, hs', hentry, readSequence_withOperands, takeResult_withOperands, withOperands_timedOut]
    rfl
  · have hentry : beginWrite c a v s' = beginWrite c a v s := rfl
    simp only [ecWrite, hs, hs', hentry]

end Sys2Proof.Machine
end

section
/-! What the storing operations leave in the registers of the reference EC (rules R59, R146, R147, R291). -/

namespace Sys2Proof.Machine

/-! ## Single writes -/

/-- Every register after a write to the reference EC, busy or not (rules R59, R291): a busy EC stores nothing. -/
theorem execEcWrite_registers {s : State} {r : RefEc} (cmd addr value : Byte) (hr : Ready s)
    (hec : s.env.ec = .reference r) (hc : configOk s.cfg = true) (hw : Memory.wf r.regs = true) :
    ∃ t r', exec (.ecWrite cmd addr value) s = .next t ∧ t.env.ec = .reference r' ∧
      ∀ x, cellRead r'.regs x =
        if r.busy = false ∧ cmd = s.cfg.cmdSetDuty ∧ cmd ≠ s.cfg.cmdRead ∧
            ((s.cfg.subAddr.one = addr ∧ s.cfg.regDuty.one.toNat = x) ∨
              (s.cfg.subAddr.two = addr ∧ s.cfg.regDuty.two.toNat = x)) then value
        else cellRead r.regs x := by
  obtain ⟨u, t, r', hwrite, hec', -, hbusy, hfree⟩ := ecWrite_ref cmd addr value hr hec hc
  refine ⟨returned unitResult (.done u t), r', ?_, hec', fun x => ?_⟩
  · simp only [exec, execEcWrite, finish, hwrite]
  · cases hb : r.busy with
    | true =>
      have hsame : r' = r := (hbusy hb).1
      simp only [hsame, Bool.true_eq_false, false_and, if_false]
    | false =>
      have hstored : r'.regs = storedRegs s.cfg cmd addr value r.regs := (hfree hb).2
      simp only [hstored, cellRead_stored _ _ _ _ hw, true_and]

/-- `FAN_DUTY_WRITE` is the set-duty `EC_WRITE` of its rounded, clamped percent (rules R146, R147). -/
theorem exec_fanDutyWrite_eq_ecWrite (ch : Channel) (p : Byte) (s : State) :
    exec (.fanDutyWrite ch p) s =
      exec (.ecWrite s.cfg.cmdSetDuty (forChannel s.cfg.subAddr ch) (rawFromDuty s.cfg (clamp p.toNat 0 100))) s := rfl

theorem clamp_percent_nat (n : Nat) : clamp n 0 100 = (min 100 n : Nat) := by
  rw [clamp_percent]
  omega

/-- Every register after a duty write: the rounded, clamped percent in those its channel's sub-address names. -/
theorem execFanDutyWrite_registers {s : State} {r : RefEc} (ch : Channel) (p : Byte) (hr : Ready s)
    (hec : s.env.ec = .reference r) (hc : configOk s.cfg = true) (hw : Memory.wf r.regs = true) :
    ∃ t r', ∃ raw : Byte, exec (.fanDutyWrite ch p) s = .next t ∧ t.env.ec = .reference r' ∧
      IsRawOf s.cfg (min 100 p.toNat : Nat) raw ∧
      ∀ x, cellRead r'.regs x =
        if r.busy = false ∧ s.cfg.cmdSetDuty ≠ s.cfg.cmdRead ∧
            ((s.cfg.subAddr.one = forChannel s.cfg.subAddr ch ∧ s.cfg.regDuty.one.toNat = x) ∨
              (s.cfg.subAddr.two = forChannel s.cfg.subAddr ch ∧ s.cfg.regDuty.two.toNat = x)) then raw
        else cellRead r.regs x := by
  have hraw : IsRawOf s.cfg (min 100 p.toNat : Nat) (rawFromDuty s.cfg (clamp p.toNat 0 100)) := by
    rw [← clamp_percent_nat]
    exact rawFromDuty_isRawOf _ (clamp_percent_bounds _).1
  obtain ⟨t, r', hexec, hec', hregs⟩ := execEcWrite_registers s.cfg.cmdSetDuty (forChannel s.cfg.subAddr ch)
    (rawFromDuty s.cfg (clamp p.toNat 0 100)) hr hec hc hw
  rw [← exec_fanDutyWrite_eq_ecWrite] at hexec
  exact ⟨t, r', _, hexec, hec', hraw, by simpa only [true_and] using hregs⟩

/-! ## The manual commands and the cycle -/

theorem setCommand_leaves (p : Except Rejected Int) (s : State) (hc : configOk s.cfg = true) :
    Leaves true s (setCommand p s).after :=
  manualCommand_leaves p writeForSet s hc (fun d => writeForSet_opSpec d s (budget_of_ok hc)) fun d =>
    leaves_map (writeBoth_opSpec d s (budget_of_ok hc)).calmOp (writeBoth_leaves d s hc)

/-- `SET1` and `SET2` are this command of their channel. -/
theorem manualCommand_writeForOne_leaves (ch : Channel) (p : Except Rejected Int) (s : State)
    (hc : configOk s.cfg = true) : Leaves true s (manualCommand p (writeForOne ch) s).after :=
  manualCommand_leaves p (writeForOne ch) s hc (fun d => writeForOne_opSpec ch d s (budget_of_ok hc)) fun d =>
    leaves_map (fanDutyWrite_opSpec ch d s (budget_of_ok hc)).calmOp (fanDutyWrite_leaves ch d s hc)

/-- A cycle or a manual command stores in the duty registers at most. -/
theorem exec_storesInDutyRegisters {i : Instr} (s : State) (hc : configOk s.cfg = true)
    (hi : i = .controlCycle ∨ ∃ p, i = .set p ∨ i = .set1 p ∨ i = .set2 p) : Leaves true s (execState i s) := by
  rcases hi with rfl | ⟨p, rfl | rfl | rfl⟩
  · exact (controlCycle_leaves s hc).returned _
  · exact (setCommand_leaves _ s hc).returned _
  · exact (manualCommand_writeForOne_leaves .one _ s hc).returned _
  · exact (manualCommand_writeForOne_leaves .two _ s hc).returned _

/-! ## What is stored -/

/-- Settles O28: `EC_WRITE` and `FAN_DUTY_WRITE` store in the registers named, and the commands and the cycle leave
every register but the two duty registers (`RefMove.off`). -/
theorem writesStoreOnlyTheDutyRegisters : Obligations.WritesStoreOnlyTheDutyRegisters := by
  intro s r hc hr hec hw
  refine ⟨fun cmd addr value => execEcWrite_registers cmd addr value hr hec hc hw,
    fun ch p => execFanDutyWrite_registers ch p hr hec hc hw, fun i t hi h => ?_⟩
  rw [exec_eq_next] at h
  subst h
  obtain ⟨r', hec', hmove⟩ := exec_storesInDutyRegisters s hc hi r hec
  exact ⟨r', hec', hmove.off hw⟩

end Sys2Proof.Machine
end

section
/-! What decoding answers, word by word (rules R73 to R79, R83): it inverts the encoder, it follows the opcode table, and
it refuses exactly the words of rule R77. -/

namespace Sys2Proof

/-! ## Answers in two parts -/

@[simp] theorem except_map_eq_ok {ε α β : Type} {f : α → β} {x : Except ε α} {b : β} :
    x.map f = .ok b ↔ ∃ a, x = .ok a ∧ f a = b := by
  cases x <;> simp [Except.map]

@[simp] theorem except_map_eq_error {ε α β : Type} {f : α → β} {x : Except ε α} {e : ε} :
    x.map f = .error e ↔ x = .error e := by
  cases x <;> simp [Except.map]

theorem except_bind_eq_ok {ε α β : Type} {f : α → Except ε β} {x : Except ε α} {b : β} :
    x.bind f = .ok b ↔ ∃ a, x = .ok a ∧ f a = .ok b := by
  cases x <;> simp [Except.bind]

theorem except_bind_eq_error {ε α β : Type} {f : α → Except ε β} {x : Except ε α} {e : ε} :
    x.bind f = .error e ↔ x = .error e ∨ ∃ a, x = .ok a ∧ f a = .error e := by
  cases x <;> simp [Except.bind]

theorem exists_except_bind_eq_ok {ε α β : Type} {f : α → Except ε β} {x : Except ε α} :
    (∃ b, x.bind f = .ok b) ↔ ∃ a, x = .ok a ∧ ∃ b, f a = .ok b := by
  cases x <;> simp [Except.bind]

theorem exists_eq_error_iff {ε α : Type} {x : Except ε α} : (∃ e, x = .error e) ↔ ¬∃ a, x = .ok a := by
  cases x <;> simp

/-! ## The checks (b) to (e) of rule R77 -/

@[simp] theorem withReserved_of_zero {fs : List Byte} (k : Except DecodeError Instr) (h : ∀ f ∈ fs, f = 0) :
    withReserved fs k = k := if_pos (by simpa using h)

theorem withReserved_of_nonzero {fs : List Byte} (k : Except DecodeError Instr) (h : ¬∀ f ∈ fs, f = 0) :
    withReserved fs k = .error .reservedNonzero := if_neg (by simpa using h)

@[simp] theorem withReserved_eq_ok {fs : List Byte} {k : Except DecodeError Instr} {i : Instr} :
    withReserved fs k = .ok i ↔ (∀ f ∈ fs, f = 0) ∧ k = .ok i := by
  by_cases h : ∀ f ∈ fs, f = 0
  · rw [withReserved_of_zero k h, and_iff_right h]
  · rw [withReserved_of_nonzero k h]
    exact iff_of_false nofun fun h' => h h'.1

@[simp] theorem decodeChannel_eq_ok {b : Byte} {ch : Channel} : decodeChannel b = .ok ch ↔ encodeChannel ch = b := by
  unfold decodeChannel
  split
  · cases ch <;> simp_all [encodeChannel]
  · split <;> cases ch <;> simp_all [encodeChannel, eq_comm]

@[simp] theorem decodeOverride_eq_ok {b : Byte} {o : Bool} : decodeOverride b = .ok o ↔ encodeOverride o = b := by
  unfold decodeOverride
  split
  · cases o <;> simp_all [encodeOverride]
  · split <;> cases o <;> simp_all [encodeOverride, @eq_comm _ _ b]

@[simp] theorem withPercents_eq_ok {ps : List Byte} {i j : Instr} :
    withPercents ps i = .ok j ↔ (∀ p ∈ ps, PercentOperand p) ∧ i = j := by
  unfold withPercents
  split <;> simp_all

theorem exists_encodeChannel_eq {b : Byte} : (∃ ch, encodeChannel ch = b) ↔ b = 1 ∨ b = 2 := by
  constructor
  · rintro ⟨_ | _, rfl⟩
    · exact .inl rfl
    · exact .inr rfl
  · rintro (rfl | rfl)
    · exact ⟨.one, rfl⟩
    · exact ⟨.two, rfl⟩

/-- The reasons that the checks (c) to (e) of rule R77 give, those of one operand. -/
def IsOperandError (e : DecodeError) : Prop := e = .badChannel ∨ e = .badOverride ∨ e = .badPercent

theorem decodeChannel_error {b : Byte} {e : DecodeError} (h : decodeChannel b = .error e) : IsOperandError e := by
  unfold decodeChannel at h
  split at h
  · cases h
  · split at h <;> cases h
    exact .inl rfl

theorem decodeOverride_error {b : Byte} {e : DecodeError} (h : decodeOverride b = .error e) : IsOperandError e := by
  unfold decodeOverride at h
  split at h
  · cases h
  · split at h <;> cases h
    exact .inr (.inl rfl)

theorem withPercents_error {ps : List Byte} {i : Instr} {e : DecodeError} (h : withPercents ps i = .error e) :
    IsOperandError e := by
  unfold withPercents at h
  split at h <;> cases h
  exact .inr (.inr rfl)

/-! ## Decoding and encoding -/

theorem decode_encode {i : Instr} (h : WellFormed i) : decode (encode i) = .ok i := by
  cases i with
  | targetDuty hot last => simpa [encode, decode] using h
  | rateLimit o last target => simpa [encode, decode, except_bind_eq_ok] using h
  | _ => simp [encode, decode]

theorem decodeBytes_encodeBytes {i : Instr} (rest : List Byte) (h : WellFormed i) :
    decodeBytes (encodeBytes i ++ rest) = .ok (i, rest) := by
  simp [decodeBytes, encodeBytes, wordOfBytes, decode_encode h]

/-- A word that decodes is the word of the operation it decodes to, and that operation is well formed: in each row of the
table, the checks passed say what the word's fields are. -/
theorem encode_of_decode {w : Word} {i : Instr} (h : decode w = .ok i) : encode i = w ∧ WellFormed i := by
  obtain ⟨op, a, b, c, rfl⟩ : ∃ op a b c, packWord op a b c = w := ⟨_, _, _, _, packWord_fields w⟩
  revert h
  simp only [decode, opField_packWord, aField_packWord, bField_packWord, cField_packWord]
  split
  case h_20 => exact nofun
  all_goals
    obtain ⟨-, rfl⟩ := BitVec.toNat_eq_nat.1 ‹op.toNat = _›
    simp only [withReserved_eq_ok, except_map_eq_ok, except_bind_eq_ok, decodeChannel_eq_ok, decodeOverride_eq_ok,
      withPercents_eq_ok, List.forall_mem_cons, Except.ok.injEq, and_imp, forall_exists_index]
    intros
    subst_vars
    exact ⟨rfl, by simp [WellFormed, *]⟩

/-! ## The rows of the table -/

/-- The word of an operation fits its row (the family `RowFit`). -/
theorem encode_fits (i : Instr) : encode i &&& rowMask i = rowMatch i :=
  match i with
  | .set p => Laws.RowFit.set p
  | .set1 p => Laws.RowFit.set1 p
  | .set2 p => Laws.RowFit.set2 p
  | .dump => Laws.RowFit.dump
  | .auto => Laws.RowFit.auto
  | .acquire => Laws.RowFit.acquire
  | .ecRead addr => Laws.RowFit.ecRead addr
  | .ecWrite cmd addr value => Laws.RowFit.ecWrite cmd addr value
  | .cpuTempRead => Laws.RowFit.cpuTempRead
  | .gpuTempEcRead => Laws.RowFit.gpuTempEcRead
  | .fanDutyRead ch => Laws.RowFit.fanDutyRead ch
  | .fanRpmRead ch => Laws.RowFit.fanRpmRead ch
  | .fanDutyWrite ch p => Laws.RowFit.fanDutyWrite ch p
  | .resolveCpu => Laws.RowFit.resolveCpu
  | .resolveGpu => Laws.RowFit.resolveGpu
  | .targetDuty hot last => Laws.RowFit.targetDuty hot last
  | .rateLimit o last target => Laws.RowFit.rateLimit o last target
  | .controlCycle => Laws.RowFit.controlCycle
  | .report => Laws.RowFit.report

theorem fits_of_decode {w : Word} {i : Instr} (h : decode w = .ok i) : w &&& rowMask i = rowMatch i := by
  obtain ⟨rfl, -⟩ := encode_of_decode h
  exact encode_fits i

theorem byte_and_255 (x : Byte) : x &&& 255#8 = x := BitVec.and_allOnes

/-- A word fits a match and a mask exactly when each of its fields does. -/
theorem fits_iff_fields {w m r : Word} :
    w &&& m = r ↔ opField w &&& opField m = opField r ∧ aField w &&& aField m = aField r ∧
      bField w &&& bField m = bField r ∧ cField w &&& cField m = cField r := by
  rw [← packWord_inj, ← packWord_and, packWord_fields, packWord_fields, packWord_fields]

/-- A row whose `C` is an operand. -/
theorem fields_of_fits_c {w : Word} {op : Byte} (h : w &&& packWord 255 255 255 0 = packWord op 0 0 0) :
    opField w = op ∧ aField w = 0 ∧ bField w = 0 := by
  simpa [fits_iff_fields, byte_and_255] using h

/-- A row whose `B` and `C` are operands. -/
theorem fields_of_fits_bc {w : Word} {op : Byte} (h : w &&& packWord 255 255 0 0 = packWord op 0 0 0) :
    opField w = op ∧ aField w = 0 := by
  simpa [fits_iff_fields, byte_and_255] using h

/-- A row whose three fields are operands. -/
theorem opField_of_fits_abc {w : Word} {op : Byte} (h : w &&& packWord 255 0 0 0 = packWord op 0 0 0) :
    opField w = op := by
  simpa [fits_iff_fields, byte_and_255] using h

theorem opField_rowMask (i : Instr) : opField (rowMask i) = 255 := by
  cases i <;> simp only [rowMask] <;> decide

/-- Every row's match is its `OP`, the other fields 0. -/
theorem packWord_rowMatch (i : Instr) : packWord (opField (rowMatch i)) 0 0 0 = rowMatch i := by
  cases i <;> simp only [rowMatch] <;> decide

/-- Every row's mask covers `OP`, so a word's `OP` is that of a row it fits. -/
theorem rowMatch_eq_of_fits {w : Word} {i : Instr} (h : w &&& rowMask i = rowMatch i) :
    rowMatch i = packWord (opField w) 0 0 0 := by
  obtain ⟨hop, -⟩ := fits_iff_fields.1 h
  rw [opField_rowMask, BitVec.ofNat_eq_ofNat, byte_and_255] at hop
  rw [hop, packWord_rowMatch]

theorem rowMatch_unique {w : Word} {i j : Instr} (hi : w &&& rowMask i = rowMatch i)
    (hj : w &&& rowMask j = rowMatch j) : rowMatch i = rowMatch j :=
  (rowMatch_eq_of_fits hi).trans (rowMatch_eq_of_fits hj).symm

/-- A word that fits a row passes the checks (a) and (b) of rule R77: `OP` is the row's and the fields that the row marks 0
are 0, so only a check of an operand can refuse it. -/
theorem operandError_of_fits {w : Word} {i : Instr} {e : DecodeError} (hfit : w &&& rowMask i = rowMatch i)
    (h : decode w = .error e) : IsOperandError e := by
  cases i with
  | set => simp [decode, fields_of_fits_c (op := 0x01) hfit] at h
  | set1 => simp [decode, fields_of_fits_c (op := 0x02) hfit] at h
  | set2 => simp [decode, fields_of_fits_c (op := 0x03) hfit] at h
  | ecRead => simp [decode, fields_of_fits_c (op := 0x11) hfit] at h
  | ecWrite => simp [decode, opField_of_fits_abc (op := 0x12) hfit] at h
  | fanDutyRead =>
    simp only [decode, fields_of_fits_c (op := 0x15) hfit] at h
    exact decodeChannel_error (by simpa using h)
  | fanRpmRead =>
    simp only [decode, fields_of_fits_c (op := 0x16) hfit] at h
    exact decodeChannel_error (by simpa using h)
  | fanDutyWrite =>
    simp only [decode, fields_of_fits_bc (op := 0x17) hfit] at h
    exact decodeChannel_error (by simpa using h)
  | targetDuty =>
    simp only [decode, fields_of_fits_bc (op := 0x1A) hfit] at h
    exact withPercents_error (by simpa using h)
  | rateLimit =>
    simp only [decode, opField_of_fits_abc (op := 0x1B) hfit] at h
    obtain h | ⟨o, -, h⟩ := except_bind_eq_error.1 h
    · exact decodeOverride_error h
    · exact withPercents_error h
  | _ =>
    obtain rfl : w = _ := BitVec.and_allOnes.symm.trans hfit
    cases h

/-! ## The illegal words -/

/-- A word is refused exactly on the conditions (a) to (e) of rule R77: row by row, the checks passed are the conditions
that fail. -/
theorem decode_refuses_iff {w : Word} : (∃ e, decode w = .error e) ↔ Machine.IllegalWord w := by
  rw [exists_eq_error_iff, not_iff_comm]
  simp only [Machine.IllegalWord, ← opField_toNat, ← aField_toNat, ← bField_toNat, ← cField_toNat]
  fun_cases decode w
  case case20 =>
    have hop : ¬(1 ≤ (opField w).toNat ∧ (opField w).toNat ≤ 5) ∧
        ¬(0x10 ≤ (opField w).toNat ∧ (opField w).toNat ≤ 0x1D) := by
      simp only [imp_false] at *
      omega
    simp [hop]
  all_goals
    simp +zetaDelta [*, exists_except_bind_eq_ok, exists_encodeChannel_eq, encodeOverride] <;> intros <;> bv_omega

/-! ## Programs given as bytes -/

/-- Bytes that hold whole words and whose first word decodes: the first word, and the words of the bytes left over. -/
theorem programOfBytes_of_decodeBytes {bs rest : List Byte} {i : Instr} {words : List Word}
    (hd : decodeBytes bs = .ok (i, rest)) (hp : programOfBytes bs = some words) :
    ∃ w left, words = w :: left ∧ decode w = .ok i ∧ programOfBytes rest = some left := by
  match bs with
  | b3 :: b2 :: b1 :: b0 :: tail =>
    obtain ⟨j, hj, hrest⟩ := except_map_eq_ok.1 hd
    obtain ⟨left, hleft, hwords⟩ := Option.map_eq_some_iff.1 hp
    cases hrest
    exact ⟨_, left, hwords.symm, hj, hleft⟩
  | [] | [_] | [_, _] | [_, _, _] => cases hd

end Sys2Proof

namespace Sys2Proof.Machine

/-! ## The step at a word -/

theorem step_nextWord {s : State} {w : Word} {rest : List Word} (h : NextWord s w rest) :
    step s = withInterrupt (wordStep w rest s) := by
  obtain ⟨hen, hloop, hinv⟩ := h
  rw [step_enabled hen]
  simp [blockStep, hloop, hinv]

theorem wordStep_of_decode {w : Word} {i : Instr} (h : decode w = .ok i) (rest : List Word) (s : State) :
    wordStep w rest s = exec i { s with invocation := .program rest } := by
  simp [wordStep, h]

/-- The step at a word that decodes is its operation's, with the program moved past the word (rule R83). -/
theorem step_nextWord_of_decode {s : State} {w : Word} {rest : List Word} {i : Instr} (h : NextWord s w rest)
    (hd : decode w = .ok i) : step s = withInterrupt (exec i { s with invocation := .program rest }) := by
  rw [step_nextWord h, wordStep_of_decode hd]

theorem wordStep_of_illegal {w : Word} (h : IllegalWord w) (rest : List Word) {s : State} (hf : s.fault = none) :
    wordStep w rest s = .next { s with fault := some .illegalEncoding } := by
  obtain ⟨e, he⟩ := decode_refuses_iff.2 h
  simp [wordStep, he, raise, hf]

/-! ## The statements -/

/-- Settles O1: `decode` inverts `encode`, and the four bytes of a word are its fields. -/
theorem decodeInvertsEncode : Obligations.DecodeInvertsEncode :=
  fun _ rest h => ⟨decode_encode h, decodeBytes_encodeBytes rest h⟩

/-- Settles O2: a word that decodes is its operation's encoding, which fits its row; the mask of every row covers `OP`. -/
theorem decodeFollowsTheOpcodeTable : Obligations.DecodeFollowsTheOpcodeTable := by
  refine ⟨fun w i h => ⟨fits_of_decode h, encode_of_decode h⟩, fun w i j => rowMatch_unique, fun w i hi => ?_⟩
  cases h : decode w with
  | ok j => exact .inl ⟨j, rfl, rowMatch_unique (fits_of_decode h) hi⟩
  | error e => exact .inr (by simpa [IsOperandError] using operandError_of_fits hi h)

/-- Settles O3, by `decode_refuses_iff`. -/
theorem exactlyTheListedWordsAreIllegal : Obligations.ExactlyTheListedWordsAreIllegal := by
  refine ⟨fun w => decode_refuses_iff, fun s w rest hnext hw => ?_⟩
  obtain ⟨⟨hf, -⟩, -⟩ := id hnext
  rw [step_nextWord hnext, wordStep_of_illegal hw rest hf]
  rfl

/-- Settles O4, each word evaluated. -/
theorem workedEncodings : Obligations.WorkedEncodings := by
  unfold Obligations.WorkedEncodings
  decide

/-- Settles O5: the bytes' first word is the program's next word. -/
theorem stepRunsTheDecodedWord : Obligations.StepRunsTheDecodedWord := by
  refine ⟨fun s w rest i => step_nextWord_of_decode, fun s bs rest i words hen hloop hp hinv hd => ?_⟩
  obtain ⟨w, left, rfl, hw, hleft⟩ := programOfBytes_of_decodeBytes hd hp
  exact ⟨left, hleft, step_nextWord_of_decode ⟨hen, hloop, hinv⟩ hw⟩

end Sys2Proof.Machine
end

section
/-! The step-level sequencer (rule R108) runs through the waits of a whole transaction (rules R104 to R106). -/

namespace Sys2Proof.Machine

/-! ## Runs of transitions -/

/-- At most `n` transitions of the channel lead from `s` to `t` (rule R108). -/
def Reaches (n : Nat) (s t : State) : Prop := ∃ m ≤ n, chanRun m s = t

theorem chanRun_of_stuck {s : State} (h : chanStep s = none) (n : Nat) : chanRun n s = s := by
  cases n with
  | zero => rfl
  | succ n => simp [chanRun, h]

theorem chanRun_succ {s t : State} (h : chanStep s = some t) (n : Nat) : chanRun (n + 1) s = chanRun n t := by
  simp [chanRun, h]

theorem chanRun_add (m n : Nat) (s : State) : chanRun (m + n) s = chanRun n (chanRun m s) := by
  induction m generalizing s with
  | zero => rw [Nat.zero_add]; rfl
  | succ m ih =>
    cases h : chanStep s with
    | none => simp only [chanRun_of_stuck h]
    | some t => rw [Nat.add_right_comm, chanRun_succ h, chanRun_succ h, ih]

theorem Reaches.trans {m n : Nat} {s t u : State} (h1 : Reaches m s t) (h2 : Reaches n t u) : Reaches (m + n) s u := by
  obtain ⟨i, hi, rfl⟩ := h1
  obtain ⟨j, hj, rfl⟩ := h2
  exact ⟨i + j, Nat.add_le_add hi hj, chanRun_add i j s⟩

theorem Reaches.mono {m n : Nat} {s t : State} (h : Reaches m s t) (hmn : m ≤ n) : Reaches n s t := by
  obtain ⟨i, hi, rfl⟩ := h
  exact ⟨i, hi.trans hmn, rfl⟩

theorem Reaches.head {n : Nat} {s t u : State} (h : chanStep s = some t) (ht : Reaches n t u) : Reaches (n + 1) s u := by
  obtain ⟨m, hm, rfl⟩ := ht
  exact ⟨m + 1, Nat.succ_le_succ hm, chanRun_succ h m⟩

/-- A branch taken on from where the transitions lead. -/
theorem Reaches.ite {b : Bool} {m n : Nat} {s t t' u : State} (h : Reaches m s (if b then t else u))
    (ht : Reaches n t t') : Reaches (m + n) s (if b then t' else u) := by
  cases b with
  | true => exact h.trans ht
  | false => exact h.mono (Nat.le_add_right m n)

theorem reaches_of_step {s t : State} (h : chanStep s = some t) (n : Nat) : Reaches (n + 1) s t :=
  .head h ⟨0, Nat.zero_le n, rfl⟩

/-! ## One transition -/

/-- The status read of a transition and of a poll, counted in `attempt`. -/
def statusRead (s : State) : Byte × State := portIn .sc (setAttempt (s.chan.attempt + 1) s)

theorem chanStep_of_condition {s : State} {cond : Byte → Bool} (h : phaseCondition s.cfg s.chan.phase = some cond) :
    chanStep s =
      if cond (statusRead s).1 then some (chanAdvance (statusRead s).2)
      else if s.chan.attempt + 1 < s.cfg.pollBudget then some (sleep s.cfg.pollIntervalMs (statusRead s).2)
      else some (chanExpire (statusRead s).2) := by
  rw [chanStep, h]
  rfl

theorem poll_succ (cond : Byte → Bool) (n : Nat) (s : State) :
    poll cond (n + 1) s =
      if cond (statusRead s).1 then (true, (statusRead s).2)
      else if n = 0 then (false, (statusRead s).2)
      else poll cond n (sleep s.cfg.pollIntervalMs (statusRead s).2) := rfl

/-! ## A wait -/

/-- The entry of a wait phase. -/
def enterWait (p : ChanPhase) (s : State) : State := setAttempt 0 (setPhase p s)

/-- The move that ends a wait: on to the next phase, or the expired wait's. -/
def leaveWait (w : Bool × State) : State := if w.1 then chanAdvance w.2 else chanExpire w.2

/-- The transitions of a wait phase are the wait's polls and the move that ends it (rules R101, R108). -/
theorem reaches_leaveWait_poll {cond : Byte → Bool} {n : Nat} {s : State} (hn : 1 ≤ n)
    (hp : phaseCondition s.cfg s.chan.phase = some cond) (ha : s.chan.attempt + n = s.cfg.pollBudget) :
    Reaches n s (leaveWait (poll cond n s)) := by
  induction n generalizing s with
  | zero => omega
  | succ n ih =>
    have hstep := chanStep_of_condition hp
    rw [poll_succ]
    cases hc : cond (statusRead s).1 with
    | true =>
      rw [if_pos hc] at hstep
      exact reaches_of_step hstep n
    | false =>
      simp only [hc, Bool.false_eq_true, if_false] at hstep ⊢
      by_cases hn0 : n = 0
      · rw [if_neg (by omega)] at hstep
        rw [if_pos hn0]
        exact reaches_of_step hstep n
      · have hleft : s.chan.attempt + 1 + n = s.cfg.pollBudget := by omega
        rw [if_pos (by omega)] at hstep
        rw [if_neg hn0]
        exact .head hstep (ih (Nat.one_le_iff_ne_zero.2 hn0) hp hleft)

theorem reaches_leaveWait {cond : Byte → Bool} {p : ChanPhase} {s : State} (hB : 1 ≤ s.cfg.pollBudget)
    (hp : phaseCondition s.cfg p = some cond) :
    Reaches s.cfg.pollBudget (enterWait p s) (leaveWait (wait cond (setPhase p s))) :=
  reaches_leaveWait_poll hB hp (Nat.zero_add _)

/-! ## The moves that end a wait, by phase -/

theorem chanAdvance_rW1 {s : State} (h : s.chan.phase = .rW1) :
    chanAdvance s = enterWait .rW2 (portOut .sc s.cfg.cmdRead s) := by simp [chanAdvance, h, enterWait]

theorem chanAdvance_rW2 {s : State} (h : s.chan.phase = .rW2) :
    chanAdvance s = enterWait .rW3 (portOut .data s.chan.addr s) := by simp [chanAdvance, h, enterWait]

theorem chanAdvance_rW3 {s : State} (h : s.chan.phase = .rW3) : chanAdvance s = (readSample s).2 := by
  simp [chanAdvance, h]

theorem chanAdvance_wW1 {s : State} (h : s.chan.phase = .wW1) :
    chanAdvance s = enterWait .wW2 (portOut .sc s.chan.cmd s) := by simp [chanAdvance, h, enterWait]

theorem chanAdvance_wW2 {s : State} (h : s.chan.phase = .wW2) :
    chanAdvance s = enterWait .wW3 (portOut .data s.chan.addr s) := by simp [chanAdvance, h, enterWait]

theorem chanAdvance_wW3 {s : State} (h : s.chan.phase = .wW3) :
    chanAdvance s = enterWait .wW4 (portOut .data s.chan.value s) := by simp [chanAdvance, h, enterWait]

theorem chanAdvance_wW4 {s : State} (h : s.chan.phase = .wW4) : chanAdvance s = (writeDone s).2 := by
  simp [chanAdvance, h]

/-- The wait phases of a read with their numbers (rule R104). -/
abbrev IsReadWait (p : ChanPhase) (k : Nat) : Prop := (p, k) ∈ [(ChanPhase.rW1, 1), (.rW2, 2), (.rW3, 3)]

/-- The wait phases of a write with their numbers (rule R106). -/
abbrev IsWriteWait (p : ChanPhase) (k : Nat) : Prop :=
  (p, k) ∈ [(ChanPhase.wW1, 1), (.wW2, 2), (.wW3, 3), (.wW4, 4)]

theorem chanExpire_readWait {k : Nat} {s : State} (h : IsReadWait s.chan.phase k) :
    chanExpire s = chanExpireRead k s := by
  simp only [List.mem_cons, Prod.mk.injEq, List.not_mem_nil, or_false] at h
  obtain ⟨hp, rfl⟩ | ⟨hp, rfl⟩ | ⟨hp, rfl⟩ := h <;> simp [chanExpire, hp]

theorem chanExpire_writeWait {k : Nat} {s : State} (h : IsWriteWait s.chan.phase k) :
    chanExpire s = (writeFail k s).2 := by
  simp only [List.mem_cons, Prod.mk.injEq, List.not_mem_nil, or_false] at h
  obtain ⟨hp, rfl⟩ | ⟨hp, rfl⟩ | ⟨hp, rfl⟩ | ⟨hp, rfl⟩ := h <;> simp [chanExpire, hp]

/-! ## Whole sequences -/

/-- After wait `k` of a read the sequencer goes on where the read does, and samples where the read does. -/
theorem leaveWait_readWait {k : Nat} {cond : Byte → Bool} {p : ChanPhase} {s : State} (hB : 1 ≤ s.cfg.pollBudget)
    (hk : IsReadWait p k) :
    leaveWait (wait cond (setPhase p s)) =
      if (readWait k cond p s).1 then chanAdvance (readWait k cond p s).2
      else (readSample (readWait k cond p s).2).2 := by
  obtain ⟨bs, -, -, hchan⟩ := wait_in_phase cond p s hB
  unfold readWait leaveWait
  simp only
  set w := wait cond (setPhase p s)
  have hphase : w.2.chan.phase = p := by rw [hchan]
  cases hw : w.1 with
  | true => simp only [hw, if_true]
  | false =>
    simp only [Bool.false_eq_true, if_false]
    rw [chanExpire_readWait (hphase.symm ▸ hk), chanExpireRead]
    cases w.2.cfg.readTimeoutMode <;> rfl

/-- Wait `k` of a read, transition by transition: the configuration and the phase after it, and where its end leads. -/
theorem reaches_readWait {c : Config} {k : Nat} {cond : Byte → Bool} {p : ChanPhase} {s : State} (hc : s.cfg = c)
    (hB : 1 ≤ c.pollBudget) (hk : IsReadWait p k) (hp : phaseCondition c p = some cond) :
    let w := readWait k cond p s
    w.2.cfg = c ∧ w.2.chan.phase = p ∧
      Reaches c.pollBudget (enterWait p s) (if w.1 then chanAdvance w.2 else (readSample w.2).2) := by
  subst hc
  obtain ⟨bs, ok, hseg, -, hchan, -⟩ := readWait_spec k cond p s hB
  refine ⟨hseg.cfg, by rw [hchan], ?_⟩
  rw [← leaveWait_readWait hB hk]
  exact reaches_leaveWait hB hp

/-- Wait `k` of a write, transition by transition, as `reaches_readWait`. -/
theorem reaches_writeWait {c : Config} {k : Nat} {p : ChanPhase} {s : State} (hc : s.cfg = c) (hB : 1 ≤ c.pollBudget)
    (hk : IsWriteWait p k) (hp : phaseCondition c p = some (ibfEmpty c)) :
    let w := wait (ibfEmpty c) (setPhase p s)
    w.2.cfg = c ∧ w.2.chan.phase = p ∧
      Reaches c.pollBudget (enterWait p s) (if w.1 then chanAdvance w.2 else (writeFail k w.2).2) := by
  subst hc
  obtain ⟨bs, hseg, -, hchan⟩ := wait_in_phase (ibfEmpty s.cfg) p s hB
  have hphase : (wait (ibfEmpty s.cfg) (setPhase p s)).2.chan.phase = p := by rw [hchan]
  have hrun := reaches_leaveWait hB hp
  rw [leaveWait, chanExpire_writeWait (hphase.symm ▸ hk)] at hrun
  exact ⟨hseg.cfg, hphase, hrun⟩

/-- The transitions after the entry of a read are its sequence (rule R104). -/
theorem reaches_readSequence {s : State} (hB : 1 ≤ s.cfg.pollBudget) :
    Reaches (3 * s.cfg.pollBudget) (enterWait .rW1 s) (readSequence s).2 := by
  simp only [readSequence, apply_ite Prod.snd]
  obtain ⟨hcfg1, hphase1, hrun1⟩ := reaches_readWait (s := s) rfl hB (by decide : IsReadWait .rW1 1) rfl
  refine (hrun1.ite (n := 2 * s.cfg.pollBudget) ?_).mono (by omega)
  rw [chanAdvance_rW1 hphase1, hcfg1]
  obtain ⟨hcfg2, hphase2, hrun2⟩ :=
    reaches_readWait (s := portOut .sc s.cfg.cmdRead _) hcfg1 hB (by decide : IsReadWait .rW2 2) rfl
  refine (hrun2.ite (n := s.cfg.pollBudget) ?_).mono (by omega)
  rw [chanAdvance_rW2 hphase2]
  obtain ⟨-, hphase3, hrun3⟩ :=
    reaches_readWait (s := portOut .data _ _) hcfg2 hB (by decide : IsReadWait .rW3 3) rfl
  rwa [chanAdvance_rW3 hphase3, ite_self] at hrun3

/-- The transitions after the entry of a write are its sequence (rule R106). -/
theorem reaches_writeSequence {s : State} (hB : 1 ≤ s.cfg.pollBudget) :
    Reaches (4 * s.cfg.pollBudget) (enterWait .wW1 s) (writeSequence s).2 := by
  simp only [writeSequence, apply_ite Prod.snd]
  obtain ⟨hcfg1, hphase1, hrun1⟩ := reaches_writeWait (s := s) rfl hB (by decide : IsWriteWait .wW1 1) rfl
  refine (hrun1.ite (n := 3 * s.cfg.pollBudget) ?_).mono (by omega)
  rw [chanAdvance_wW1 hphase1]
  obtain ⟨hcfg2, hphase2, hrun2⟩ :=
    reaches_writeWait (s := portOut .sc _ _) hcfg1 hB (by decide : IsWriteWait .wW2 2) rfl
  refine (hrun2.ite (n := 2 * s.cfg.pollBudget) ?_).mono (by omega)
  rw [chanAdvance_wW2 hphase2]
  obtain ⟨hcfg3, hphase3, hrun3⟩ :=
    reaches_writeWait (s := portOut .data _ _) hcfg2 hB (by decide : IsWriteWait .wW3 3) rfl
  refine (hrun3.ite (n := s.cfg.pollBudget) ?_).mono (by omega)
  rw [chanAdvance_wW3 hphase3]
  obtain ⟨-, hphase4, hrun4⟩ :=
    reaches_writeWait (s := portOut .data _ _) hcfg3 hB (by decide : IsWriteWait .wW4 4) rfl
  rwa [chanAdvance_wW4 hphase4] at hrun4

/-! ## The statement -/

theorem ecRead_ready (addr : Byte) {s : State} (h : Ready s) :
    let r := readSequence (beginRead addr s)
    ecRead addr s = .done (r.1, r.2.chan.timedOut) (takeResult r.2) := by
  simp [ecRead, channelFault_none.2 h]

theorem ecWrite_ready (cmd addr value : Byte) {s : State} (h : Ready s) :
    let r := writeSequence (beginWrite cmd addr value s)
    ecWrite cmd addr value s = .done r.1 (takeResult r.2) := by
  simp [ecWrite, channelFault_none.2 h]

/-- A read's sequence ends in `DONE` with its byte as the result. -/
theorem readSequence_done {s : State} (hB : 1 ≤ s.cfg.pollBudget) :
    (readSequence s).2.chan.phase = .done ∧ (readSequence s).2.chan.result = some (.byte (readSequence s).1) := by
  obtain ⟨es, ts, -, -, n, -, hchan⟩ := readSequence_spec s hB
  simp [hchan]

/-- A write's sequence ends in `DONE` with its answer as the result. -/
theorem writeSequence_done {s : State} (hB : 1 ≤ s.cfg.pollBudget) :
    (writeSequence s).2.chan.phase = .done ∧
      (((writeSequence s).1 = .ok () ∧ (writeSequence s).2.chan.result = some .unit) ∨
        ∃ k, (writeSequence s).1 = .error (.timeoutError k) ∧
          (writeSequence s).2.chan.result = some (.timeout k)) := by
  obtain ⟨es, -, -, n, -, ⟨hok, hchan⟩ | ⟨k, -, -, herr, hchan⟩⟩ := writeSequence_spec s hB
  · exact ⟨by rw [hchan], .inl ⟨hok, by rw [hchan]⟩⟩
  · exact ⟨by rw [hchan], .inr ⟨k, herr, by rw [hchan]⟩⟩

/-- Settles O23: from the call on, the transitions of each wait are its polls (`reaches_leaveWait`), so that the run ends
where the whole sequence does. -/
theorem stepLevelSequencerAgrees : Obligations.StepLevelSequencerAgrees := by
  intro s hc hr
  have hB := budget_of_ok hc
  refine ⟨fun addr => ⟨_, chanCall_ready hr _ _, ?_⟩, fun cmd addr value => ⟨_, chanCall_ready hr _ _, ?_⟩⟩
  · obtain ⟨n, hn, hrun⟩ := reaches_readSequence (s := beginRead addr s) hB
    obtain ⟨hdone, hresult⟩ := readSequence_done (s := beginRead addr s) hB
    refine ⟨n, hn, (readSequence (beginRead addr s)).1, takeResult (readSequence (beginRead addr s)).2, ?_⟩
    rw [enterWait] at hrun
    rw [hrun]
    exact ⟨hdone, hresult, chanTake_done hdone, ecRead_ready addr hr⟩
  · obtain ⟨n, hn, hrun⟩ := reaches_writeSequence (s := beginWrite cmd addr value s) hB
    obtain ⟨hdone, hresult⟩ := writeSequence_done (s := beginWrite cmd addr value s) hB
    refine ⟨n, hn, (writeSequence (beginWrite cmd addr value s)).1,
      takeResult (writeSequence (beginWrite cmd addr value s)).2, ?_⟩
    rw [enterWait] at hrun
    rw [hrun]
    exact ⟨hdone, chanTake_done hdone, ecWrite_ready cmd addr value hr, hresult⟩

end Sys2Proof.Machine
end

section
/-! ACQUIRE, the EC transactions and the channel's transitions, as rules R100 to R110 give them. -/

namespace Sys2Proof.Machine

/-! ## ACQUIRE -/

/-- A supplied grant is the one drawn (rule R100; log 2). -/
theorem drawGrant_supplied {e : Env} {b : Bool} {rest : List Bool} (h : e.grants = b :: rest) :
    drawGrant e = (b, { e with grants := rest }) := by
  simp [drawGrant, h]

theorem unitResult_granted (granted : Bool) :
    unitResult (if granted then .ok () else .error .permissionError) =
      if granted then .ok else .err .permissionError := by
  cases granted <;> rfl

/-- Settles O17, by `acquire_after`. -/
theorem acquireDecidesTheSession : Obligations.AcquireDecidesTheSession := by
  intro s
  rcases acquire_after s with ⟨h1, h⟩ | ⟨h0, granted, r, h, hgranted, hr⟩
  · refine ⟨fun h0 => by omega, fun _ hf => ?_⟩
    simp [exec, execAcquire, h, faultRes, raise, hf]
  · refine ⟨fun _ => ⟨granted, (drawGrant s.env).2.grants, (drawGrant s.env).2.count, ?_, fun b rest hb => ?_⟩,
      fun h1 => by omega⟩
    · rw [← drawGrant_env]
      simp only [exec, execAcquire, h, finish_eq, returned_done, hr, unitResult_granted]
    · rw [hgranted, drawGrant_supplied hb]
      exact ⟨rfl, rfl, rfl⟩

/-! ## Faults at the entry -/

@[simp] theorem andThen_faultRes {α β : Type} (f : FaultKind) (s : State) (k : α → State → Res β) :
    andThen (faultRes f s) k = faultRes f s := rfl

/-- An operation that raised its fault returned nothing (rules R15, R275). -/
theorem finish_faultRes {α : Type} (result : α → OpResult) (f : FaultKind) {s : State} (hf : s.fault = none) :
    finish result (faultRes f s : Res α) = .next { s with fault := some f, ret := none } := by
  simp [faultRes, raise, hf]

section
variable {s : State} {f : FaultKind} (h : channelFault s = some f)
include h

theorem ecRead_faults (addr : Byte) : ecRead addr s = faultRes f s := by simp [ecRead, h]

theorem ecWrite_faults (cmd addr value : Byte) : ecWrite cmd addr value s = faultRes f s := by simp [ecWrite, h]

theorem readByte_faults (addr : Byte) : readByte addr s = faultRes f s := by simp [readByte, ecRead_faults h]

theorem cpuTempRead_faults : cpuTempRead s = faultRes f s := by simp [cpuTempRead, readByte_faults h]

theorem gpuTempEcRead_faults : gpuTempEcRead s = faultRes f s := by simp [gpuTempEcRead, readByte_faults h]

theorem fanDutyRead_faults (ch : Channel) : fanDutyRead ch s = faultRes f s := by simp [fanDutyRead, readByte_faults h]

theorem fanRpmRead_faults (ch : Channel) : fanRpmRead ch s = faultRes f s := by simp [fanRpmRead, readByte_faults h]

theorem fanDutyWrite_faults (ch : Channel) (p : Int) : fanDutyWrite ch p s = faultRes f s := ecWrite_faults h _ _ _

theorem resolveCpu_faults : resolveCpu s = faultRes f s := by simp [resolveCpu, cpuTempRead_faults h]

theorem reportAlone_faults : reportAlone s = faultRes f s := by simp [reportAlone, resolveCpu_faults h]

theorem dumpCommand_faults : dumpCommand s = faultRes f s := by simp [dumpCommand, reportAlone_faults h]

theorem manualCommand_faults (p : Except Rejected Int) (write : Int → State → Res Bool) :
    manualCommand p write s = faultRes f s := by simp [manualCommand, h]

theorem startLoop_faults : startLoop s = faultRes f s := by simp [startLoop, h]

/-- The operations that need the channel raise its fault at their entry (rules R103, R110). -/
theorem exec_faults {i : Instr} (hi : needsChannel i = true) (hf : s.fault = none) :
    exec i s = .next { s with fault := some f, ret := none } := by
  cases i with
  | set p => rw [exec, execSet, setCommand, manualCommand_faults h, finish_faultRes _ _ hf]
  | set1 p => rw [exec, execSet1, set1Command, manualCommand_faults h, finish_faultRes _ _ hf]
  | set2 p => rw [exec, execSet2, set2Command, manualCommand_faults h, finish_faultRes _ _ hf]
  | dump => rw [exec, execDump, dumpCommand_faults h, finish_faultRes _ _ hf]
  | auto => rw [exec, execAuto, startLoop_faults h, finish_faultRes _ _ hf]
  | ecRead addr => rw [exec, execEcRead, ecRead_faults h, finish_faultRes _ _ hf]
  | ecWrite cmd addr value => rw [exec, execEcWrite, ecWrite_faults h, finish_faultRes _ _ hf]
  | cpuTempRead => rw [exec, execCpuTempRead, cpuTempRead_faults h, finish_faultRes _ _ hf]
  | gpuTempEcRead => rw [exec, execGpuTempEcRead, gpuTempEcRead_faults h, finish_faultRes _ _ hf]
  | fanDutyRead ch => rw [exec, execFanDutyRead, fanDutyRead_faults h, finish_faultRes _ _ hf]
  | fanRpmRead ch => rw [exec, execFanRpmRead, fanRpmRead_faults h, finish_faultRes _ _ hf]
  | fanDutyWrite ch p => rw [exec, execFanDutyWrite, fanDutyWrite_faults h, finish_faultRes _ _ hf]
  | resolveCpu => rw [exec, execResolveCpu, resolveCpu_faults h, finish_faultRes _ _ hf]
  | report => rw [exec, execReport, reportAlone_faults h, finish_faultRes _ _ hf]
  | acquire => cases hi
  | resolveGpu => cases hi
  | targetDuty => cases hi
  | rateLimit => cases hi
  | controlCycle => cases hi

end

theorem channelFault_noSession {s : State} (h : s.session ≠ .held) : channelFault s = some .noSession := if_pos h

theorem channelFault_busy {s : State} (hs : s.session = .held) (hp : s.chan.phase ≠ .idle) :
    channelFault s = some .channelBusy := by
  simp [channelFault, hs, hp]

/-- Settles O22, by `exec_faults`: the session is tested before the phase. -/
theorem noTransactionUnlessReady : Obligations.NoTransactionUnlessReady := by
  intro i s hi hf
  exact ⟨fun hs => exec_faults (channelFault_noSession hs) hi hf,
    fun hs hp => exec_faults (channelFault_busy hs hp) hi hf⟩

theorem needsSession_of_needsChannel {i : Instr} (hi : needsChannel i = true) (s : State) : NeedsSession i s :=
  fun hs hf => exec_faults (channelFault_noSession hs) hi hf

/-! ## Whole transactions -/

theorem exec_ecRead_done {addr v : Byte} {late : Bool} {s t : State} (h : ecRead addr s = .done (v, late) t) :
    exec (.ecRead addr) s = .next { t with ret := some (.ecByte v late) } := by
  rw [exec, execEcRead, h, finish_eq, returned_done]

theorem exec_ecWrite_done {cmd addr value : Byte} {r : Except ErrorKind Unit} {s t : State}
    (h : ecWrite cmd addr value s = .done r t) :
    exec (.ecWrite cmd addr value) s = .next { t with ret := some (unitResult r) } := by
  rw [exec, execEcWrite, h, finish_eq, returned_done]

/-- An operation of one transaction, its result taken, has transacted. -/
theorem transacts_of_seg {s t : State} {es : List Event} (h : Seg s t es) (r : OpResult) :
    Transacts s r es { takeResult t with ret := some r } := by
  refine ⟨⟨rfl, rfl⟩, ?_⟩
  obtain ⟨htrace, honly, -⟩ := h
  rw [← htrace]
  conv_lhs => rw [honly]
  rfl

/-- Settles O18, by `ecRead_completes`. -/
theorem ecReadFollowsTheHandshake : Obligations.EcReadFollowsTheHandshake := by
  refine fun addr s hc => ⟨fun hr => ?_, needsSession_of_needsChannel rfl s⟩
  obtain ⟨v, ts, t, es, hrun, hseg, hev, n, -, hchan⟩ := ecRead_completes addr hr (budget_of_ok hc)
  exact ⟨v, ts, es, _, exec_ecRead_done hrun, hev, transacts_of_seg hseg _, by simp [hchan]⟩

/-- Settles O19, by `ecWrite_completes`. -/
theorem ecWriteFollowsTheHandshake : Obligations.EcWriteFollowsTheHandshake := by
  refine fun cmd addr value s hc => ⟨fun hr => ?_, needsSession_of_needsChannel rfl s⟩
  obtain ⟨r, t, es, hrun, hseg, hev, n, -, hend⟩ := ecWrite_completes cmd addr value hr (budget_of_ok hc)
  refine ⟨r, es, _, exec_ecWrite_done hrun, hev, transacts_of_seg hseg _, ?_⟩
  rcases hend with ⟨hok, hchan⟩ | ⟨k, -, -, herr, hchan⟩
  · exact .inl ⟨hok, by simp [hchan]⟩
  · exact .inr ⟨k, herr, by simp [hchan]⟩

/-- Settles O21, by what the events of a read and of a write show (`ReadEvents.spec`, `WriteEvents.spec`). -/
theorem transactionEventBounds : Obligations.TransactionEventBounds := by
  refine fun s hc hr => ⟨fun addr => ?_, fun cmd addr value => ?_⟩
  · obtain ⟨v, ts, t, es, hrun, hseg, hev, -⟩ := ecRead_completes addr hr (budget_of_ok hc)
    obtain ⟨hspec, -, hsent, -⟩ := hev.spec
    exact ⟨_, es, exec_ecRead_done hrun, hseg.trace, hspec.status, hspec.sleeps, hspec.dataReads, hsent⟩
  · obtain ⟨r, t, es, hrun, hseg, hev, -⟩ := ecWrite_completes cmd addr value hr (budget_of_ok hc)
    obtain ⟨hspec, hsent⟩ := hev.spec
    exact ⟨_, es, r, exec_ecWrite_done hrun, hseg.trace, rfl, hspec.status, hspec.sleeps, hspec.dataReads, hsent⟩

/-! ## Transactions whose every wait is over at its first poll -/

/-- The state after a status read that ends a wait at its first poll, and the EC's answers left. -/
def polledOnce (b : Byte) (rest : List Byte) (s : State) : State :=
  { s with chan := { s.chan with attempt := 1 }, trace := s.trace ++ [.portIn .sc b],
           env := { s.env with ec := .lawless rest } }

theorem portIn_supplied {p : Port} {b : Byte} {rest : List Byte} {s : State} (h : s.env.ec = .lawless (b :: rest)) :
    portIn p s = (b, { s with trace := s.trace ++ [.portIn p b], env := { s.env with ec := .lawless rest } }) := by
  simp [portIn, drawPort, h, emit, withEnv]

theorem wait_firstPoll {cond : Byte → Bool} {b : Byte} {rest : List Byte} {s : State} (hB : 1 ≤ s.cfg.pollBudget)
    (hec : s.env.ec = .lawless (b :: rest)) (hb : cond b = true) : wait cond s = (true, polledOnce b rest s) := by
  obtain ⟨n, hn⟩ := Nat.exists_eq_succ_of_ne_zero (Nat.one_le_iff_ne_zero.1 hB)
  have hread := portIn_supplied (p := .sc) (s := setAttempt 1 (setAttempt 0 s)) hec
  rw [wait, hn, poll]
  simp only [setAttempt_chan, Nat.zero_add, hread, hb, if_true]
  rfl

theorem readWait_firstPoll (k : Nat) {cond : Byte → Bool} (p : ChanPhase) {b : Byte} {rest : List Byte} {s : State}
    (hB : 1 ≤ s.cfg.pollBudget) (hec : s.env.ec = .lawless (b :: rest)) (hb : cond b = true) :
    readWait k cond p s = (true, polledOnce b rest (setPhase p s)) := by
  simp only [readWait, wait_firstPoll (s := setPhase p s) hB hec hb, if_true]

/-- A read whose waits are all over at their first poll. -/
theorem readSequence_quick {b1 b2 b3 v : Byte} {rest : List Byte} {s : State} (hB : 1 ≤ s.cfg.pollBudget)
    (hec : s.env.ec = .lawless (b1 :: b2 :: b3 :: v :: rest)) (h1 : ibfEmpty s.cfg b1 = true)
    (h2 : ibfEmpty s.cfg b2 = true) (h3 : obfFull s.cfg b3 = true) :
    readSequence s = (v, { s with
      chan := { s.chan with phase := .done, attempt := 1, result := some (.byte v) }
      trace := s.trace ++ [.portIn .sc b1, .portOut .sc s.cfg.cmdRead, .portIn .sc b2, .portOut .data s.chan.addr,
        .portIn .sc b3, .portIn .data v]
      env := { s.env with ec := .lawless rest } }) := by
  let s1 := polledOnce b1 (b2 :: b3 :: v :: rest) (setPhase .rW1 s)
  let s2 := polledOnce b2 (b3 :: v :: rest) (setPhase .rW2 (portOut .sc s.cfg.cmdRead s1))
  let s3 := polledOnce b3 (v :: rest) (setPhase .rW3 (portOut .data s.chan.addr s2))
  have w1 : readWait 1 (ibfEmpty s.cfg) .rW1 s = (true, s1) := readWait_firstPoll 1 .rW1 hB hec h1
  have w2 : readWait 2 (ibfEmpty s.cfg) .rW2 (portOut .sc s.cfg.cmdRead s1) = (true, s2) :=
    readWait_firstPoll 2 .rW2 hB rfl h2
  have w3 : readWait 3 (obfFull s.cfg) .rW3 (portOut .data s2.chan.addr s2) = (true, s3) :=
    readWait_firstPoll 3 .rW3 hB rfl h3
  have sample : portIn .data s3 = _ := portIn_supplied (p := .data) (s := s3) rfl
  simp only [readSequence, w1, w2, w3, if_true, readSample, sample]
  simp [s1, s2, s3, polledOnce, portOut, emit, withEnv, setPhase]

/-- A write whose waits are all over at their first poll. -/
theorem writeSequence_quick {b1 b2 b3 b4 : Byte} {rest : List Byte} {s : State} (hB : 1 ≤ s.cfg.pollBudget)
    (hec : s.env.ec = .lawless (b1 :: b2 :: b3 :: b4 :: rest))
    (h : ∀ b ∈ [b1, b2, b3, b4], ibfEmpty s.cfg b = true) :
    writeSequence s = (.ok (), { s with
      chan := { s.chan with phase := .done, attempt := 1, result := some .unit }
      trace := s.trace ++ [.portIn .sc b1, .portOut .sc s.chan.cmd, .portIn .sc b2, .portOut .data s.chan.addr,
        .portIn .sc b3, .portOut .data s.chan.value, .portIn .sc b4]
      env := { s.env with ec := .lawless rest } }) := by
  let s1 := polledOnce b1 (b2 :: b3 :: b4 :: rest) (setPhase .wW1 s)
  let s2 := polledOnce b2 (b3 :: b4 :: rest) (setPhase .wW2 (portOut .sc s.chan.cmd s1))
  let s3 := polledOnce b3 (b4 :: rest) (setPhase .wW3 (portOut .data s.chan.addr s2))
  let s4 := polledOnce b4 rest (setPhase .wW4 (portOut .data s.chan.value s3))
  have w1 : wait (ibfEmpty s.cfg) (setPhase .wW1 s) = (true, s1) := wait_firstPoll hB hec (h b1 (by simp))
  have w2 : wait (ibfEmpty s.cfg) (setPhase .wW2 (portOut .sc s1.chan.cmd s1)) = (true, s2) :=
    wait_firstPoll hB rfl (h b2 (by simp))
  have w3 : wait (ibfEmpty s.cfg) (setPhase .wW3 (portOut .data s2.chan.addr s2)) = (true, s3) :=
    wait_firstPoll hB rfl (h b3 (by simp))
  have w4 : wait (ibfEmpty s.cfg) (setPhase .wW4 (portOut .data s3.chan.value s3)) = (true, s4) :=
    wait_firstPoll hB rfl (h b4 (by simp))
  simp only [writeSequence, w1, w2, w3, w4, if_true, writeDone]
  simp [s1, s2, s3, s4, polledOnce, portOut, emit, withEnv, setPhase]

/-- Settles O20: each wait takes one of the supplied bytes. -/
theorem quickTransactions : Obligations.QuickTransactions := by
  refine ⟨fun addr s b1 b2 b3 v rest hc hr hec h1 h2 h3 => ?_, fun cmd addr value s b1 b2 b3 b4 rest hc hr hec h => ?_⟩
  · have hrun := ecRead_ready addr hr
    rw [readSequence_quick (s := beginRead addr s) (budget_of_ok hc) hec h1 h2 h3] at hrun
    exact exec_ecRead_done hrun
  · have hrun := ecWrite_ready cmd addr value hr
    rw [writeSequence_quick (s := beginWrite cmd addr value s) (budget_of_ok hc) hec h] at hrun
    exact exec_ecWrite_done hrun

/-! ## The channel's transitions -/

/-- A wait phase is any phase but `IDLE` and `DONE`. -/
theorem phaseCondition_of_wait (c : Config) {p : ChanPhase} (hi : p ≠ .idle) (hd : p ≠ .done) :
    ∃ cond, phaseCondition c p = some cond := by
  cases p with
  | idle => exact absurd rfl hi
  | done => exact absurd rfl hd
  | rW1 | rW2 | rW3 | wW1 | wW2 | wW3 | wW4 => exact ⟨_, rfl⟩

theorem phaseCondition_none (c : Config) {p : ChanPhase} (h : p = .idle ∨ p = .done) : phaseCondition c p = none := by
  rcases h with rfl | rfl <;> rfl

/-- No transition comes of itself in `IDLE` and `DONE` (rule R108). -/
theorem chanStep_none {s : State} (h : s.chan.phase = .idle ∨ s.chan.phase = .done) : chanStep s = none := by
  simp [chanStep, phaseCondition_none s.cfg h]

/-- The move out of a wait phase whose condition holds is its row's (rule R108). -/
theorem chanAdvance_heldRow {s : State} {cond : Byte → Bool} (h : phaseCondition s.cfg s.chan.phase = some cond) :
    ∃ es, HeldRow s.cfg s.chan cond es (chanAdvance s).chan ∧ Seg s (chanAdvance s) es := by
  cases hp : s.chan.phase <;> rw [hp] at h <;> cases h
  case rW1 => rw [chanAdvance_rW1 hp]; exact ⟨_, .rW1 hp, (seg_portOut _ _ _).withChan _⟩
  case rW2 => rw [chanAdvance_rW2 hp]; exact ⟨_, .rW2 hp, (seg_portOut _ _ _).withChan _⟩
  case rW3 => rw [chanAdvance_rW3 hp]; exact ⟨_, .rW3 _ hp, (seg_portIn _ _).withChan _⟩
  case wW1 => rw [chanAdvance_wW1 hp]; exact ⟨_, .wW1 hp, (seg_portOut _ _ _).withChan _⟩
  case wW2 => rw [chanAdvance_wW2 hp]; exact ⟨_, .wW2 hp, (seg_portOut _ _ _).withChan _⟩
  case wW3 => rw [chanAdvance_wW3 hp]; exact ⟨_, .wW3 hp, (seg_portOut _ _ _).withChan _⟩
  case wW4 => rw [chanAdvance_wW4 hp]; exact ⟨_, .wW4 hp, Seg.chan _ _⟩

/-- A wait phase is one of a read's or of a write's. -/
theorem wait_number {c : Config} {p : ChanPhase} {cond : Byte → Bool} (h : phaseCondition c p = some cond) :
    ∃ k, IsReadWait p k ∨ IsWriteWait p k := by
  cases p with
  | idle | done => cases h
  | rW1 | wW1 => exact ⟨1, by decide⟩
  | rW2 | wW2 => exact ⟨2, by decide⟩
  | rW3 | wW3 => exact ⟨3, by decide⟩
  | wW4 => exact ⟨4, by decide⟩

/-- The move out of a wait phase whose last attempt failed is its row's (rule R108). -/
theorem chanExpire_expiredRow {s : State} {cond : Byte → Bool} (h : phaseCondition s.cfg s.chan.phase = some cond) :
    ∃ es, ExpiredRow s.cfg s.chan es (chanExpire s).chan ∧ Seg s (chanExpire s) es := by
  have hmark (k : Nat) : Seg s (markTimedOut k s) [] := Seg.chan s _
  obtain ⟨k, hk | hk⟩ := wait_number h
  · rw [chanExpire_readWait hk, chanExpireRead]
    cases hmode : s.cfg.readTimeoutMode with
    | abortSample =>
      exact ⟨_, .sample k _ hk hmode, (hmark k).trans ((seg_portIn _ _).withChan _)⟩
    | continueSequence =>
      obtain ⟨es, hrow, hseg⟩ := chanAdvance_heldRow (s := markTimedOut k s) h
      exact ⟨es, .goOn k cond es _ hk hmode hrow, (hmark k).trans hseg⟩
  · rw [chanExpire_writeWait hk]
    exact ⟨[], .fail k hk, Seg.chan s _⟩

theorem seg_statusRead (s : State) : Seg s (statusRead s).2 [.portIn .sc (statusRead s).1] :=
  ⟨rfl, onlyChannel_trans (setAttempt_only _ s) (portIn_only _ _), portIn_cells _ _⟩

/-- The transition of a wait phase is its row's (rule R108). -/
theorem chanStep_readRow {s : State} {cond : Byte → Bool} (h : phaseCondition s.cfg s.chan.phase = some cond) :
    ∃ es t, chanStep s = some t ∧ ReadRow s.cfg s.chan (statusRead s).1 es t.chan ∧ Seg (statusRead s).2 t es := by
  have hstep := chanStep_of_condition h
  obtain ⟨held, hheld, hadvance⟩ := chanAdvance_heldRow (s := (statusRead s).2) h
  cases hc : cond (statusRead s).1 with
  | true =>
    rw [if_pos hc] at hstep
    exact ⟨held, _, hstep, ⟨cond, ⟨_, _, hheld⟩, fun _ => hheld, by simp [hc], by simp [hc]⟩, hadvance⟩
  | false =>
    simp only [hc, Bool.false_eq_true, if_false] at hstep
    by_cases hleft : s.chan.attempt + 1 < s.cfg.pollBudget
    · rw [if_pos hleft] at hstep
      exact ⟨_, _, hstep, ⟨cond, ⟨_, _, hheld⟩, by simp [hc], fun _ _ => ⟨rfl, rfl⟩,
        fun _ hlast => absurd hlast hleft.ne⟩, ⟨rfl, sleep_only _ _, id⟩⟩
    · rw [if_neg hleft] at hstep
      obtain ⟨es, hrow, hexpire⟩ := chanExpire_expiredRow (s := (statusRead s).2) h
      exact ⟨es, _, hstep, ⟨cond, ⟨_, _, hheld⟩, by simp [hc], fun _ hlt => absurd hlt hleft, fun _ _ => hrow⟩,
        hexpire⟩

/-- Settles O58: the calls and the taking by their guards, a wait phase's transition by `chanStep_readRow`. -/
theorem channelTransitionsAreTheTables : Obligations.ChannelTransitionsAreTheTables := by
  refine fun s => ⟨fun addr cmd value hr => ⟨chanCall_ready hr _ _, chanCall_ready hr _ _⟩,
    fun addr cmd value hr hf => ⟨chanCall_not_ready hr hf _ _, chanCall_not_ready hr hf _ _⟩, chanStep_none,
    fun hi hd _ => ?_, chanTake_done, chanTake_not_done⟩
  obtain ⟨cond, h⟩ := phaseCondition_of_wait s.cfg hi hd
  obtain ⟨es, t, hstep, hrow, hseg⟩ := chanStep_readRow h
  have hall := (seg_statusRead s).trans hseg
  exact ⟨_, es, t, hstep, hrow, hall.trace, hall.only⟩

end Sys2Proof.Machine
end

section
/-! The register map: the value each operation returns, the events of its transactions and what it writes (rules R140 to
R147), and the duty round trip, in arithmetic and through the EC (rules R39, R148, R285). -/

namespace Sys2Proof.Machine

/-! ## Operations on the channel, as instructions -/

/-- An operation of EC transactions alone, its result recorded, has transacted. -/
theorem ChannelRun.transacts {α : Type} {s t : State} {r : Res α} {a : α} {es : List Event} (h : ChannelRun s r a t es)
    (result : α → OpResult) :
    ∃ u, finish result r = .next u ∧ Transacts s (result a) es u := by
  obtain ⟨heq, ⟨htrace, honly, -⟩, hleft, -⟩ := h
  refine ⟨{ t with ret := some (result a) }, by rw [heq, finish_eq, returned_done], hleft, ?_⟩
  rw [← htrace]
  conv_lhs => rw [honly]

/-- Settles O29: each is one EC read (`cpuTempRead_run`, `gpuTempEcRead_run`). -/
theorem temperatureReadsReturnTheByte : Obligations.TemperatureReadsReturnTheByte := by
  refine fun s hc => ⟨fun hr => ?_, fun hr => ?_, needsSession_of_needsChannel rfl s, needsSession_of_needsChannel rfl s⟩
  · obtain ⟨v, timeouts, t, es, hrun, hev⟩ := cpuTempRead_run hr (budget_of_ok hc)
    obtain ⟨u, hexec, hu⟩ := hrun.transacts .number
    exact ⟨v, timeouts, es, u, hexec, hev, hu⟩
  · obtain ⟨v, timeouts, t, es, hrun, hev⟩ := gpuTempEcRead_run hr (budget_of_ok hc)
    obtain ⟨u, hexec, hu⟩ := hrun.transacts .number
    exact ⟨v, timeouts, es, u, hexec, hev, hu⟩

/-- Settles O31: the two reads of `fanRpmRead_run`, their bytes joined by `counter_toNat`. -/
theorem fanRpmReadIsExact : Obligations.FanRpmReadIsExact := by
  refine fun ch s hc => ⟨fun hr => ?_, needsSession_of_needsChannel rfl s⟩
  obtain ⟨hi, lo, late1, late2, t, e1, e2, hrun, hev1, hev2⟩ := fanRpmRead_run ch hr (budget_of_ok hc)
  obtain ⟨u, hexec, hu⟩ := hrun.transacts fun r => .rpm r.1 r.2
  exact ⟨hi, lo, late1, late2, e1, e2, _, _, u, hexec, hev1, hev2, hu, counter_toNat hi lo, rpmFromRaw_eq s.cfg _⟩

/-- Settles O32: the one write of `fanDutyWrite_run`. -/
theorem fanDutyWriteSendsTheRoundedByte : Obligations.FanDutyWriteSendsTheRoundedByte := by
  refine fun ch p s hc => ⟨fun hr => ?_, needsSession_of_needsChannel rfl s⟩
  obtain ⟨r, t, es, hrun, hev⟩ := fanDutyWrite_run ch p.toNat hr (budget_of_ok hc)
  obtain ⟨u, hexec, hu⟩ := hrun.transacts unitResult
  exact ⟨r, es, u, hexec, hev, hu⟩

/-! ## Conversions -/

/-- Away from the ties every tie rule rounds alike. -/
theorem IsRound.of_no_tie {tie : RoundTie} {q : Rat} {n : Int} (h : IsRound tie q n) (hup : (n : Rat) - q ≠ 1 / 2)
    (hdown : (n : Rat) - q ≠ -(1 / 2)) (tie' : RoundTie) : IsRound tie' q n :=
  ⟨h.1, h.2.1, fun htie => (htie.elim hup hdown).elim⟩

/-- No raw byte stands half-way between two percents: `n - 100 raw / 255 = ± 1/2` would make the odd number 255 even. -/
theorem percent_no_tie (raw : Byte) (n : Int) :
    (n : Rat) - 100 * raw.toNat / 255 ≠ 1 / 2 ∧ (n : Rat) - 100 * raw.toNat / 255 ≠ -(1 / 2) := by
  constructor <;> intro h
  · have hodd : (510 * n - 200 * raw.toNat : Rat) = 255 := by linarith
    norm_cast at hodd
    omega
  · have hodd : (510 * n - 200 * raw.toNat : Rat) = -255 := by linarith
    norm_cast at hodd
    omega

/-- Settles O30: one EC read (`fanDutyRead_run`), and under `DUTY_RAW_MAX = 255` no tie to break (`percent_no_tie`). -/
theorem fanDutyReadIsTheRoundedPercent : Obligations.FanDutyReadIsTheRoundedPercent := by
  refine fun ch s hc => ⟨fun hr => ?_, needsSession_of_needsChannel rfl s⟩
  obtain ⟨raw, timeouts, t, es, hrun, hev⟩ := fanDutyRead_run ch hr (budget_of_ok hc)
  obtain ⟨u, hexec, hu⟩ := hrun.transacts .number
  have hduty := dutyFromRaw_isDutyOf s.cfg raw
  refine ⟨raw, timeouts, es, _, u, hexec, hev, hu, hduty, fun hM tie => ?_, hduty.1, hduty.2.1⟩
  obtain ⟨hup, hdown⟩ := percent_no_tie raw (dutyFromRaw s.cfg raw)
  exact (dutyFromRaw_isRound hM raw).of_no_tie hup hdown tie

/-- The written byte is within 1/2 of `255 p / 100`, hence its percentage within `1/2 + 50/255 < 1` of `p` (rule R148);
the configurations of the write and of the read may differ in their tie rule. -/
theorem dutyFromRaw_rawFromDuty {c c' : Config} (hc : c.dutyRawMax = 255) (hc' : c'.dutyRawMax = 255) {p : Int}
    (h0 : 0 ≤ p) (h1 : p ≤ 100) : dutyFromRaw c' (rawFromDuty c p) = p := by
  obtain ⟨rawLo, rawHi, -⟩ := rawFromDuty_isRound hc h0 h1
  obtain ⟨dutyLo, dutyHi, -⟩ := dutyFromRaw_isRound hc' (rawFromDuty c p)
  push_cast at rawLo rawHi
  have hlo : (p : Rat) < dutyFromRaw c' (rawFromDuty c p) + 1 := by linarith
  have hhi : (dutyFromRaw c' (rawFromDuty c p) : Rat) < p + 1 := by linarith
  norm_cast at hlo hhi
  omega

theorem rpmFromRaw_of_ne_zero (k : Nat) {raw16 : BitVec 16} (h : raw16 ≠ 0) :
    rpmFromRaw k raw16 = (k : Rat) / raw16.toNat := by
  rw [rpmFromRaw, if_neg h, Rat.mkRat_eq_div, Int.cast_natCast]

/-- Settles O34: a positive dividend over a rising positive divisor. -/
theorem rpmStrictlyDecreases : Obligations.RpmStrictlyDecreases := by
  intro k a b hk ha hab
  have hlt : a.toNat < b.toNat := hab
  have hb : b ≠ 0 := by
    rintro rfl
    exact absurd hlt (Nat.not_lt_zero _)
  have hpos : 0 < a.toNat := Nat.pos_of_ne_zero fun h => ha (BitVec.eq_of_toNat_eq h)
  have hkQ : (0 : Rat) < k := by exact_mod_cast hk
  have haQ : (0 : Rat) < a.toNat := by exact_mod_cast hpos
  have habQ : (a.toNat : Rat) < b.toNat := by exact_mod_cast hlt
  rw [rpmFromRaw_of_ne_zero k ha, rpmFromRaw_of_ne_zero k hb]
  exact ⟨div_lt_div_of_pos_left hkQ haQ habQ, div_pos hkQ (haQ.trans habQ)⟩

/-! ## The round trip through the EC -/

theorem EcRun.trans {barred : Byte → Byte → Prop} {s t u : State} (h1 : EcRun barred s t) (h2 : EcRun barred t u) :
    EcRun barred s u := by
  induction h2 with
  | refl => exact h1
  | read addr r t u _ h ih => exact .read addr r t u ih h
  | write cmd addr value r t u _ hb h ih => exact .write cmd addr value r t u ih hb h
  | operation i t u _ hi h ih => exact .operation i t u ih hi h
  | elsewhere t u _ hcfg hec hcount ih => exact .elsewhere t u ih hcfg hec hcount

/-- A run keeps the configuration (rule R37). -/
theorem EcRun.cfg {barred : Byte → Byte → Prop} {s u : State} (hc : configOk s.cfg = true) (h : EcRun barred s u) :
    u.cfg = s.cfg := by
  induction h with
  | refl => rfl
  | read addr r t u _ h ih =>
    have hB : 1 ≤ t.cfg.pollBudget := budget_of_ok (ih ▸ hc)
    exact (onlyObservation_cfg ((ecRead_opSpec addr t hB).only h).1).trans ih
  | write cmd addr value r t u _ _ h ih =>
    have hB : 1 ≤ t.cfg.pollBudget := budget_of_ok (ih ▸ hc)
    exact (onlyObservation_cfg ((ecWrite_opSpec cmd addr value t hB).only h).1).trans ih
  | operation i t u _ _ h ih =>
    obtain ⟨es, hk⟩ := exec_next_keeps (ih ▸ hc) h
    exact hk.cfg.trans ih
  | elsewhere t u _ hcfg _ _ ih => exact hcfg.trans ih

/-- A `FAN_DUTY_WRITE` that returned `Ok` is a completed EC write, its result recorded (rules R15, R146). -/
theorem exec_fanDutyWrite_ok {ch : Channel} {p : Byte} {s t : State} (h : exec (.fanDutyWrite ch p) s = .next t)
    (hret : t.ret = some .ok) :
    ∃ w, fanDutyWrite ch p.toNat s = .done (.ok ()) w ∧ t = { w with ret := some .ok } := by
  rw [exec, execFanDutyWrite, finish_eq] at h
  cases h
  cases hrun : fanDutyWrite ch p.toNat s with
  | halted w =>
    rw [hrun, returned_halted] at hret
    cases hret
  | done r w =>
    rw [hrun, returned_done] at hret
    rw [returned_done]
    cases r with
    | ok _ => exact ⟨w, rfl, rfl⟩
    | error e => cases hret

/-- A `FAN_DUTY_READ` in a ready state returns the percentage of the byte its EC read returns (rules R142, R143). -/
theorem exec_fanDutyRead_ready (ch : Channel) {s : State} (hr : Ready s) (hB : 1 ≤ s.cfg.pollBudget) :
    ∃ raw late t, ecRead (forChannel s.cfg.regDuty ch) s = .done (raw, late) t ∧
      exec (.fanDutyRead ch) s = .next { t with ret := some (.number (dutyFromRaw s.cfg raw)) } := by
  obtain ⟨raw, timeouts, t, es, hrun, -⟩ := ecRead_run (forChannel s.cfg.regDuty ch) hr hB
  refine ⟨raw, _, t, hrun.eq, ?_⟩
  simp only [exec, execFanDutyRead, fanDutyRead, readByte, hrun.eq, andThen_done, finish_eq, returned_done]

/-- Settles O33: the arithmetic is `dutyFromRaw_rawFromDuty`; `EC_DUTY_ECHO` gives the byte written back to the read, whose
state is reached from the write's end by recording its result and then the run given. -/
theorem dutyRoundTripIsExact : Obligations.DutyRoundTripIsExact := by
  refine ⟨fun c p hM h0 h1 => dutyFromRaw_rawFromDuty hM hM h0 h1, ?_⟩
  intro s t u ch p hc hM hp hecho hwrite hret hrun hr
  obtain ⟨w, hw, rfl⟩ := exec_fanDutyWrite_ok hwrite hret
  have hcw : w.cfg = s.cfg :=
    onlyObservation_cfg ((fanDutyWrite_opSpec ch p.toNat s (budget_of_ok hc)).only hw).1
  have hcu : u.cfg = s.cfg := (hrun.cfg (by rw [hcw]; exact hc)).trans hcw
  have hlater : UntilNextDutyWrite ch w u :=
    (EcRun.elsewhere w { w with ret := some .ok } .refl rfl rfl le_rfl).trans hrun
  obtain ⟨raw, late, v, hread, hexec⟩ := exec_fanDutyRead_ready ch hr (budget_of_ok (hcu ▸ hc))
  have hraw : raw = rawFromDuty s.cfg (clamp p.toNat 0 100) := hecho s .refl ch _ w hw u hlater raw late v hread
  have hback : dutyFromRaw u.cfg raw = p.toNat := by
    rw [hraw, clamp_of_mem (by omega) (by omega)]
    exact dutyFromRaw_rawFromDuty hM (by rw [hcu]; exact hM) (by omega) (by omega)
  exact ⟨_, hexec, by rw [hback]⟩

end Sys2Proof.Machine
end

section
/-! The sensors' texts (rules R174 to R176, R249): what a trimmed text and a first field are, and the numerals `ParseInt` and
the textual percent read. -/

namespace Sys2Proof.Machine

/-! ## Where a trim and a cut stop -/

/-- Where a text is cut, if `p` holds up to there and no longer. -/
theorem takeWhile_dropWhile_of_split {α : Type} {p : α → Bool} {pre rest : List α} (hpre : ∀ x ∈ pre, p x = true)
    (hrest : ∀ x, rest.head? = some x → p x = false) :
    (pre ++ rest).takeWhile p = pre ∧ (pre ++ rest).dropWhile p = rest := by
  rw [List.takeWhile_append_of_pos hpre, List.dropWhile_append_of_pos hpre]
  cases rest with
  | nil => simp
  | cons x xs => simp [hrest x rfl]

theorem head?_dropWhile_false {α : Type} {p : α → Bool} {l : List α} {x : α} (h : (l.dropWhile p).head? = some x) :
    p x = false := by
  have hx := List.head?_dropWhile_not p l
  rw [h] at hx
  exact hx

/-- Rule R174: the trailing trim, from its end. -/
theorem trimRight_eq_iff {t m : Text} : trimRight t = m ↔ IsTrimmedRight t m := by
  constructor
  · rintro rfl
    refine ⟨(t.reverse.takeWhile isAsciiSpace).reverse, ?_, fun c hc => ?_, fun c hc => ?_⟩
    · rw [trimRight, ← List.reverse_append, List.takeWhile_append_dropWhile, List.reverse_reverse]
    · exact List.mem_takeWhile_imp (List.mem_reverse.1 hc)
    · rw [trimRight, List.getLast?_reverse] at hc
      exact head?_dropWhile_false hc
  · rintro ⟨tail, rfl, htail, hlast⟩
    rw [trimRight, List.reverse_append, (takeWhile_dropWhile_of_split ?_ ?_).2, List.reverse_reverse]
    · exact fun c hc => htail c (List.mem_reverse.1 hc)
    · rwa [List.head?_reverse]

/-- Rule R176: the field before the first line end and the first comma. -/
theorem vendorField_eq_iff {out field : Text} : vendorField out = field ↔ IsFirstField out field := by
  rw [vendorField, List.takeWhile_takeWhile]
  constructor
  · rintro rfl
    refine ⟨fun h => ?_, fun h => ?_, _, List.takeWhile_append_dropWhile.symm, fun c hc => ?_⟩
    · simpa using List.mem_takeWhile_imp h
    · simpa using List.mem_takeWhile_imp h
    · have hstop := head?_dropWhile_false hc
      simp only [ne_eq, decide_eq_true_eq, decide_eq_false_iff_not] at hstop
      tauto
  · rintro ⟨hline, hcomma, rest, rfl, hrest⟩
    refine (takeWhile_dropWhile_of_split (fun c hc => ?_) fun c hc => ?_).1
    · have hc1 : c ≠ ',' := fun h => hcomma (h ▸ hc)
      have hc2 : c ≠ '\n' := fun h => hline (h ▸ hc)
      simp [hc1, hc2]
    · rcases hrest c hc with rfl | rfl <;> simp

/-! ## Usable values -/

theorem allowListed_iff {c : Config} {name : Text} :
    allowListed c name = true ↔ ∃ m ∈ c.allowList, IsTrimmedRight name m := by
  simp only [← trimRight_eq_iff, exists_eq_right', allowListed, List.contains_iff_mem]

/-- `v` is the millidegrees `m` over 1000, rounded down (rule R175). -/
theorem milliToC_eq_iff {m v : Int} : milliToC m = v ↔ 1000 * v ≤ m ∧ m < 1000 * (v + 1) := by
  rw [milliToC]
  omega

theorem sysfsValue_eq_some {txt : Option Text} {v : Int} :
    sysfsValue txt = some v ↔
      ∃ t m, txt = some t ∧ parseInt t = some m ∧ 0 < m ∧ 1000 * v ≤ m ∧ m < 1000 * (v + 1) := by
  cases txt with
  | none => simp [sysfsValue]
  | some t =>
    cases hm : parseInt t with
    | none => simp [sysfsValue, hm]
    | some m => simp [sysfsValue, hm, milliToC_eq_iff]

theorem vendorValue_eq_some {c : Config} {out : Text} {v : Int} :
    vendorValue c out = some v ↔ parseInt (vendorField out) = some v ∧ c.vendorLo < v ∧ v < c.vendorHi := by
  cases hv : parseInt (vendorField out) with
  | none => simp [vendorValue, hv]
  | some w =>
    simp only [vendorValue, hv, Option.ite_none_right_eq_some, Option.some.injEq]
    constructor
    · rintro ⟨hw, rfl⟩
      exact ⟨rfl, hw⟩
    · rintro ⟨rfl, hw⟩
      exact ⟨hw, rfl⟩

/-- Settles O56: a name, an input and a tool's output, each by the lemma of its function. -/
theorem sensorTextsFollowTheRules : Obligations.SensorTextsFollowTheRules := by
  refine ⟨fun c name => allowListed_iff, fun txt v => sysfsValue_eq_some, fun c out v => ?_⟩
  simp only [vendorValue_eq_some, ← vendorField_eq_iff, exists_eq_left']

/-! ## Digits -/

theorem isDecDigit_eq_isDigit (c : Char) : isDecDigit c = c.isDigit := rfl

theorem isAsciiSpace_of_isDigit {c : Char} (h : c.isDigit = true) : isAsciiSpace c = false := by
  simp only [← isDecDigit_eq_isDigit, isDecDigit, Bool.and_eq_true, decide_eq_true_eq] at h
  have hsp : c ≠ ' ' := by
    rintro rfl
    exact absurd h.1 (by decide)
  simp only [isAsciiSpace, hsp, decide_false, Bool.false_or, Bool.and_eq_false_iff, decide_eq_false_iff_not]
  omega

theorem ne_minus_of_isDigit {c : Char} (h : c.isDigit = true) : c ≠ '-' := by
  rintro rfl
  exact absurd h (by decide)

/-- The value of digits, summed from the left or from the right. -/
theorem digitsValue_eq_ofDigitChars (ds : Text) : digitsValue ds = Nat.ofDigitChars 10 ds 0 := by
  simp [digitsValue, Nat.ofDigits_eq_foldr, Nat.ofDigitChars, List.foldr_reverse, List.foldl_map, Nat.add_comm]

theorem digitsValue_toDigits (n : Nat) : digitsValue (Nat.toDigits 10 n) = n := by
  rw [digitsValue_eq_ofDigitChars, Nat.ofDigitChars_toDigits (by decide) (by decide)]

theorem isDigit_of_mem_toDigits {n : Nat} {d : Char} (h : d ∈ Nat.toDigits 10 n) : d.isDigit = true :=
  Nat.isDigit_of_mem_toDigits (by decide) (by decide) h

theorem parseDigits_eq_some {ds : Text} {k : Nat} :
    parseDigits ds = some k ↔ ds ≠ [] ∧ (∀ d ∈ ds, d.isDigit = true) ∧ k = digitsValue ds := by
  have hfold : ds.foldl (fun n c => 10 * n + (c.toNat - 48)) 0 = digitsValue ds := (digitsValue_eq_ofDigitChars ds).symm
  unfold parseDigits
  rw [hfold]
  by_cases hnil : ds = []
  · simp [hnil]
  · simp [hnil, isDecDigit_eq_isDigit, eq_comm (a := k)]

/-! ## Numerals -/

/-- Rules R175, R249: an optional minus sign, then digits. A digit is no minus sign, so the two forms exclude each other. -/
theorem parseDecimal_eq_some {t : Text} {n : Int} : parseDecimal t = some n ↔ IsDecimal t n := by
  unfold parseDecimal
  split
  next ds =>
    simp only [Option.map_eq_some_iff, parseDigits_eq_some]
    constructor
    · rintro ⟨k, ⟨hnil, hdig, rfl⟩, rfl⟩
      exact ⟨ds, hnil, hdig, .inr ⟨rfl, rfl⟩⟩
    · rintro ⟨ds', hnil, hdig, ⟨rfl, -⟩ | ⟨heq, hn⟩⟩
      · exact absurd rfl (ne_minus_of_isDigit (hdig '-' (by simp)))
      · cases heq
        exact ⟨_, ⟨hnil, hdig, rfl⟩, hn.symm⟩
  next hminus =>
    simp only [Option.map_eq_some_iff, parseDigits_eq_some]
    constructor
    · rintro ⟨k, ⟨hnil, hdig, rfl⟩, rfl⟩
      exact ⟨t, hnil, hdig, .inl ⟨rfl, rfl⟩⟩
    · rintro ⟨ds, hnil, hdig, ⟨rfl, hn⟩ | ⟨heq, -⟩⟩
      · exact ⟨_, ⟨hnil, hdig, rfl⟩, hn.symm⟩
      · exact absurd heq (hminus ds)

theorem isDecimal_toDigits (n : Nat) : IsDecimal (Nat.toDigits 10 n) n :=
  ⟨_, Nat.toDigits_ne_nil, fun _ => isDigit_of_mem_toDigits, .inl ⟨rfl, by rw [digitsValue_toDigits]⟩⟩

theorem isDecimal_minus_toDigits (n : Nat) : IsDecimal ('-' :: Nat.toDigits 10 n) (-(n : Int)) :=
  ⟨_, Nat.toDigits_ne_nil, fun _ => isDigit_of_mem_toDigits, .inr ⟨rfl, by rw [digitsValue_toDigits]⟩⟩

theorem IsDecimal.ne_nil {t : Text} {n : Int} (h : IsDecimal t n) : t ≠ [] := by
  obtain ⟨ds, hnil, -, ⟨rfl, -⟩ | ⟨rfl, -⟩⟩ := h
  · exact hnil
  · exact List.cons_ne_nil _ _

theorem IsDecimal.not_space {t : Text} {n : Int} (h : IsDecimal t n) {c : Char} (hc : c ∈ t) :
    isAsciiSpace c = false := by
  obtain ⟨ds, -, hdig, ⟨rfl, -⟩ | ⟨rfl, -⟩⟩ := h
  · exact isAsciiSpace_of_isDigit (hdig c hc)
  · rcases List.mem_cons.1 hc with rfl | hd
    · decide
    · exact isAsciiSpace_of_isDigit (hdig c hd)

/-- Digits followed by a character that is none are no numeral. -/
theorem not_isDecimal_of_foreign {ds tail : Text} {c : Char} (hnil : ds ≠ []) (hdig : ∀ d ∈ ds, d.isDigit = true)
    (hc : isDecDigit c = false) (n : Int) : ¬IsDecimal (ds ++ c :: tail) n := by
  rintro ⟨es, -, hes, ⟨heq, -⟩ | ⟨heq, -⟩⟩
  · have hcd : c.isDigit = true := hes c (by simp [← heq])
    rw [← isDecDigit_eq_isDigit, hc] at hcd
    exact Bool.false_ne_true hcd
  · obtain ⟨d, ds', rfl⟩ := List.exists_cons_of_ne_nil hnil
    rw [List.cons_append, List.cons.injEq] at heq
    exact ne_minus_of_isDigit (hdig d List.mem_cons_self) heq.1

/-! ## `ParseInt` -/

theorem trimRight_append_blank (t : Text) {after : Text} (h : IsBlank after) : trimRight (t ++ after) = trimRight t := by
  rw [trimRight, List.reverse_append, List.dropWhile_append_of_pos fun c hc => h c (List.mem_reverse.1 hc), trimRight]

/-- The trailing trim stops at the last character that is no whitespace, at the latest. -/
theorem trimRight_append_cons (pre tail : Text) {c : Char} (hc : isAsciiSpace c = false) :
    trimRight (pre ++ c :: tail) = pre ++ c :: trimRight tail := by
  obtain ⟨blank, htail, hblank, hlast⟩ := trimRight_eq_iff.1 (rfl : trimRight tail = trimRight tail)
  refine trimRight_eq_iff.2 ⟨blank, ?_, hblank, fun x hx => ?_⟩
  · conv_lhs => rw [htail]
    simp
  · rw [List.getLast?_append_cons] at hx
    cases hm : trimRight tail with
    | nil =>
      rw [hm, List.getLast?_singleton, Option.some.injEq] at hx
      exact hx ▸ hc
    | cons y ys =>
      rw [hm, List.getLast?_cons_cons, ← hm] at hx
      exact hlast x hx

/-- Around a text that begins with no whitespace, the trim of `ParseInt` takes the whitespace away. -/
theorem trimText_around {before core after : Text} {x : Char} (hbefore : IsBlank before) (hafter : IsBlank after)
    (hx : isAsciiSpace x = false) : trimText (before ++ x :: core ++ after) = trimRight (x :: core) := by
  rw [trimText, List.append_assoc, List.dropWhile_append_of_pos hbefore, List.cons_append,
    List.dropWhile_cons_of_neg (by simp [hx]), ← List.cons_append, trimRight_append_blank _ hafter]

theorem exists_trimText (t : Text) :
    ∃ before after, t = before ++ trimText t ++ after ∧ IsBlank before ∧ IsBlank after := by
  obtain ⟨after, ht, hafter, -⟩ := trimRight_eq_iff.1 (rfl : trimRight (t.dropWhile isAsciiSpace) = _)
  refine ⟨t.takeWhile isAsciiSpace, after, ?_, fun c => List.mem_takeWhile_imp, hafter⟩
  rw [trimText, List.append_assoc, ← ht, List.takeWhile_append_dropWhile]

/-- A numeral is read with whitespace around it (rule R175). -/
theorem parseInt_of_isDecimal {before mid after : Text} {n : Int} (hbefore : IsBlank before) (hafter : IsBlank after)
    (hmid : IsDecimal mid n) : parseInt (before ++ mid ++ after) = some n := by
  have htrim : trimRight mid = mid :=
    trimRight_eq_iff.2 ⟨[], by simp, nofun, fun c hc => hmid.not_space (List.mem_of_getLast? hc)⟩
  obtain ⟨x, core, rfl⟩ := List.exists_cons_of_ne_nil hmid.ne_nil
  rw [parseInt, trimText_around hbefore hafter (hmid.not_space List.mem_cons_self), htrim]
  exact parseDecimal_eq_some.2 hmid

theorem parseInt_eq_some {t : Text} {n : Int} :
    parseInt t = some n ↔
      ∃ before mid after, t = before ++ mid ++ after ∧ IsBlank before ∧ IsBlank after ∧ IsDecimal mid n := by
  constructor
  · intro h
    obtain ⟨before, after, ht, hbefore, hafter⟩ := exists_trimText t
    exact ⟨before, trimText t, after, ht, hbefore, hafter, parseDecimal_eq_some.1 h⟩
  · rintro ⟨before, mid, after, rfl, hbefore, hafter, hmid⟩
    exact parseInt_of_isDecimal hbefore hafter hmid

/-- Digits followed by a foreign character are not read, whatever stands around them. -/
theorem parseInt_foreign {before ds tail after : Text} {c : Char} (hbefore : IsBlank before) (hafter : IsBlank after)
    (hnil : ds ≠ []) (hdig : ∀ d ∈ ds, d.isDigit = true) (hc : isDecDigit c = false) (hsp : isAsciiSpace c = false) :
    parseInt (before ++ (ds ++ c :: tail) ++ after) = none := by
  have htrim : trimText (before ++ (ds ++ c :: tail) ++ after) = ds ++ c :: trimRight tail := by
    obtain ⟨d, ds', rfl⟩ := List.exists_cons_of_ne_nil hnil
    rw [List.cons_append, trimText_around hbefore hafter (isAsciiSpace_of_isDigit (hdig d List.mem_cons_self)),
      ← List.cons_append, trimRight_append_cons _ _ hsp]
  rw [parseInt, htrim, Option.eq_none_iff_forall_ne_some]
  exact fun n hn => not_isDecimal_of_foreign hnil hdig hc n (parseDecimal_eq_some.1 hn)

/-- Settles O40: the two parsers read exactly the numerals, so those `Nat` prints and none with a foreign character. -/
theorem parseIntReadsDecimalNumerals : Obligations.ParseIntReadsDecimalNumerals := by
  refine ⟨fun t n => parseDecimal_eq_some, fun t n => parseInt_eq_some, fun n before after hblank => ?_⟩
  have hbefore : IsBlank before := fun c hc => hblank c (List.mem_append_left _ hc)
  have hafter : IsBlank after := fun c hc => hblank c (List.mem_append_right _ hc)
  refine ⟨parseInt_of_isDecimal hbefore hafter (isDecimal_toDigits n), ?_, fun c tail hc hsp => ?_⟩
  · rw [List.append_assoc before]
    exact parseInt_of_isDecimal hbefore hafter (isDecimal_minus_toDigits n)
  · have hforeign := parseInt_foreign (tail := tail) hbefore hafter Nat.toDigits_ne_nil
      (fun _ => isDigit_of_mem_toDigits (n := n)) hc hsp
    simpa using hforeign

end Sys2Proof.Machine
end

section
/-! The temperature multiplexer: the reading each resolver returns, with its events, and the ranges of the readings (rules
R171 to R181). -/

namespace Sys2Proof.Machine

/-! ## The resolvers as instructions -/

/-- An operation of EC transactions and sensor reads, its result recorded, has only observed. -/
theorem SensorRun.observes {α : Type} {s t : State} {r : Res α} {a : α} {es : List Event} (h : SensorRun s r a t es)
    (hs : s.chan.phase = .idle) (result : α → OpResult) :
    finish result r = .next { t with ret := some (result a) } ∧
      Observes s (result a) es { t with ret := some (result a) } := by
  obtain ⟨heq, htrace, honly, hidle, henv⟩ := h
  refine ⟨by rw [heq, finish_eq, returned_done], hidle hs, ?_⟩
  rw [← htrace, ← henv]
  conv_lhs => rw [honly]

/-- Settles O36: one EC read (`resolveCpu_run`). -/
theorem resolveCpuReadsTheEc : Obligations.ResolveCpuReadsTheEc := by
  refine fun s hc => ⟨fun hr => ?_, needsSession_of_needsChannel rfl s⟩
  obtain ⟨r, t, es, hrun, hev⟩ := resolveCpu_run hr (budget_of_ok hc)
  obtain ⟨u, hexec, hu⟩ := hrun.transacts .reading
  exact ⟨r, es, u, hexec, hev, hu⟩

/-- What a stop in the tool changed where the channel is as before: the trace and the environment (rule R285). -/
theorem StopsInTool.frame {s t : State} {before : List Event} (h : StopsInTool s before t) (hchan : t.chan = s.chan) :
    ∃ entries scan, ScanEvents s.cfg entries scan ∧ sysfsValues scan = [] ∧
      t.trace = s.trace ++ (before ++ (.sysfsList entries :: scan) ++
        [.fileExists s.cfg.toolPath true, .runTool s.cfg.toolPath .neverReturns]) ∧
      t = { s with trace := t.trace, env := t.env, ret := none, stuckInTool := true } ∧
      (t.fault = none → step t = .fault .toolNeverReturns) := by
  obtain ⟨entries, scan, hscan, hnil, -, heq, hstuck⟩ := h
  have htrace : s.trace ++ _ = t.trace := (congrArg State.trace heq).symm
  have henv : { t.env with grants := s.env.grants, stops := s.env.stops } = t.env := (congrArg State.env heq).symm
  refine ⟨entries, scan, hscan, hnil, htrace.symm, ?_, hstuck⟩
  conv_lhs => rw [heq]
  rw [htrace, henv, hchan]

/-- Settles O37: with a tool that returns by `resolveGpu_run`, with any tool by the two ends of `resolveGpu_cases`. -/
theorem resolveGpuTakesTheFirstUsableSource : Obligations.ResolveGpuTakesTheFirstUsableSource := by
  refine fun s hc hr => ⟨fun htool => ?_, fun t hexec => ?_⟩
  · obtain ⟨r, u, es, hrun, hev, hchan⟩ := resolveGpu_run hr (budget_of_ok hc) htool
    obtain ⟨hexec, hobs⟩ := hrun.observes hr.2 .reading
    exact ⟨r, es, _, hexec, hev, hobs, hchan⟩
  · rcases resolveGpu_cases hr (budget_of_ok hc) with ⟨r, u, es, hrun, hev, -⟩ | ⟨u, hhalt, hstop, hchan, -⟩
    · obtain ⟨hnext, hobs⟩ := hrun.observes hr.2 .reading
      cases hexec.symm.trans hnext
      exact .inl ⟨r, es, hev, hobs⟩
    · have hnext : exec .resolveGpu s = .next { u with ret := none } := by
        rw [exec, execResolveGpu, hhalt, finish_eq, returned_halted]
      cases hexec.symm.trans hnext
      exact .inr (hstop.frame hchan)

/-! ## Where a reading comes from, ready or not -/

/-- An operation that left a result as its return completed with it. -/
theorem done_of_finish {α : Type} {result : α → OpResult} {r : Res α} {t : State} {x : OpResult}
    (h : finish result r = .next t) (hret : t.ret = some x) : ∃ a u, r = .done a u ∧ x = result a := by
  cases h
  cases r with
  | done a u => exact ⟨a, u, rfl, (Option.some.inj hret).symm⟩
  | halted u => cases hret

/-- The reading of a temperature register, domain `d`: its byte (rules R140, R141, R171, R177). -/
theorem byteReading_done {d : Domain} {addr : Byte} {s t : State} {r : Reading}
    (h : andThen (andThen (readByte addr s) fun b t => .done (b.toNat : Int) t)
      (fun v t => .done (⟨d, v, .ecFallback⟩ : Reading) t) = .done r t) :
    ∃ b : Byte, r = ⟨d, b.toNat, .ecFallback⟩ := by
  simp only [andThen_eq_done, Res.done.injEq] at h
  obtain ⟨_, _, ⟨b, _, -, rfl, -⟩, rfl, -⟩ := h
  exact ⟨b, rfl⟩

theorem resolveCpu_done {s t : State} {r : Reading} (h : resolveCpu s = .done r t) :
    ∃ b : Byte, r = ⟨.cpu, b.toNat, .ecFallback⟩ := byteReading_done h

theorem ecStage_done {s t : State} {r : Reading} (h : ecStage s = .done r t) :
    ∃ b : Byte, r = ⟨.gpu, b.toNat, .ecFallback⟩ := byteReading_done h

theorem stageResult_eq_ok {k : Nat} {o : Option Int} {v : Int} : stageResult k o = .ok v ↔ o = some v := by
  cases o <;> simp [stageResult]

/-- Stage 2 has a value only from the tool's output (rule R176). -/
theorem ToolEvents.value {c : Config} {w : Option Int} {run : List Event} (h : ToolEvents c w run) :
    w = none ∨ ∃ out, vendorValue c out = w := by
  cases h with
  | absent => exact .inl rfl
  | notRun => exact .inl rfl
  | ran out => exact .inr ⟨out, rfl⟩

theorem vendorStage_ok {s t : State} {v : Int} (h : vendorStage s = .done (.ok v) t) :
    ∃ out, vendorValue s.cfg out = some v := by
  rcases vendorStage_cases s with ⟨w, u, run, hrun, -, htool⟩ | ⟨u, run, hhalt, -⟩
  · rw [hrun.eq, Res.done.injEq, stageResult_eq_ok] at h
    exact (h.1 ▸ htool.value).resolve_left (Option.some_ne_none v)
  · rw [hhalt] at h
    cases h

theorem sysfsStage_ok {s : State} {v : Int} (h : (sysfsStage s).1 = .ok v) : ∃ txt, sysfsValue txt = some v := by
  obtain ⟨es, -, -, hstage⟩ := sysfsStage_spec s
  rw [hstage, stageResult_eq_ok] at h
  rcases hottest_none (sysfsValues es) with ⟨hnone, -⟩ | ⟨w, hw, hmem, -⟩
  · rw [hnone] at h
    cases h
  · cases hw.symm.trans h
    obtain ⟨e, -, he⟩ := List.mem_filterMap.1 hmem
    split at he
    · exact ⟨_, he⟩
    · cases he

/-- Rule R172: a GPU reading is a usable sysfs value, a usable value of the tool or a byte of the EC, tagged so. -/
theorem resolveGpu_done {s t : State} {r : Reading} (h : resolveGpu s = .done r t) :
    (∃ v txt, r = ⟨.gpu, v, .driverSysfs⟩ ∧ sysfsValue txt = some v) ∨
      (∃ v out, r = ⟨.gpu, v, .vendorTool⟩ ∧ vendorValue s.cfg out = some v) ∨
        ∃ b : Byte, r = ⟨.gpu, b.toNat, .ecFallback⟩ := by
  have hcfg : (sysfsStage s).2.cfg = s.cfg := by
    obtain ⟨es, -, hframe, -⟩ := sysfsStage_spec s
    exact hframe.quiet.cfg
  rw [resolveGpu] at h
  cases h1 : (sysfsStage s).1 with
  | ok v =>
    rw [h1, afterSysfs, Res.done.injEq] at h
    obtain ⟨txt, htxt⟩ := sysfsStage_ok h1
    exact .inl ⟨v, txt, h.1.symm, htxt⟩
  | error e =>
    rw [h1, afterSysfs, andThen_eq_done] at h
    obtain ⟨r2, u, hvendor, hafter⟩ := h
    cases r2 with
    | ok v =>
      rw [afterVendor, Res.done.injEq] at hafter
      obtain ⟨out, hout⟩ := vendorStage_ok hvendor
      exact .inr (.inl ⟨v, out, hafter.1.symm, hcfg ▸ hout⟩)
    | error e => exact .inr (.inr (ecStage_done hafter))

/-! ## Ranges -/

theorem byte_range (b : Byte) : 0 ≤ (b.toNat : Int) ∧ (b.toNat : Int) ≤ 255 := by
  have hlt := b.isLt
  omega

/-- A usable sysfs value is not negative: its millidegrees are above 0 (rule R173). -/
theorem sysfsValue_nonneg {txt : Option Text} {v : Int} (h : sysfsValue txt = some v) : 0 ≤ v := by
  obtain ⟨t, m, -, -, hpos, -, hlt⟩ := sysfsValue_eq_some.1 h
  omega

theorem hot_range {cpu : Reading} (h0 : 0 ≤ cpu.value) (h255 : cpu.value ≤ 255) (gpu : Reading) :
    0 ≤ hot cpu gpu ∧ (255 < hot cpu gpu → 255 < gpu.value) := by
  rw [hot]
  omega

/-- Settles O39: a reading is a byte, a usable sysfs value or a value within the vendor bounds (`resolveGpu_done`). -/
theorem readingsStayInRange : Obligations.ReadingsStayInRange := by
  refine ⟨fun s t r hexec hret => ?_, fun s t r hlo hhi hexec hret => ?_, fun cpu gpu h0 h255 => hot_range h0 h255 gpu⟩
  · obtain ⟨a, u, hdone, heq⟩ := done_of_finish hexec hret
    cases heq
    obtain ⟨b, rfl⟩ := resolveCpu_done hdone
    exact byte_range b
  · obtain ⟨a, u, hdone, heq⟩ := done_of_finish hexec hret
    cases heq
    rcases resolveGpu_done hdone with ⟨v, txt, rfl, hv⟩ | ⟨v, out, rfl, hv⟩ | ⟨b, rfl⟩
    · exact sysfsValue_nonneg hv
    · obtain ⟨-, hvlo, hvhi⟩ := vendorValue_eq_some.1 hv
      show 1 ≤ v ∧ v ≤ 129
      omega
    · exact byte_range b

end Sys2Proof.Machine
end

section
/-! The duty controller (rules R200 to R212): the target and the rate limit, the cycle, the report and the loop, and what
a step may do to the commanded duty. -/

namespace Sys2Proof.Machine

/-! ## The target -/

theorem overrideAt_iff {c : Config} {hot : Int} : overrideAt c hot = true ↔ c.maxTemp ≤ hot := decide_eq_true_iff

theorem targetValue_override {c : Config} {hot : Int} (h : c.maxTemp ≤ hot) (last : Int) : targetValue c hot last = 100 :=
  if_pos h

/-- Rule R201, region by region below the override: off, at the minimum of an on fan, or on the ramp. -/
theorem targetValue_regions {c : Config} (hc : configOk c = true) {hot : Int} (hmax : hot < c.maxTemp) (last : Int) :
    (targetValue c hot last = 0 ∧
        (last = 0 ∧ hot ≤ c.minTemp + c.deadBand ∨ last ≠ 0 ∧ hot < c.minTemp - c.deadBand)) ∨
      (targetValue c hot last = c.minDuty ∧ last ≠ 0 ∧ c.minTemp - c.deadBand ≤ hot ∧ hot ≤ c.minTemp) ∨
      (IsRound c.roundTie (interp c hot) (targetValue c hot last) ∧ c.minTemp < hot ∧
        (last = 0 → c.minTemp + c.deadBand < hot)) := by
  obtain ⟨-, -, -, -, hband, -⟩ := (configOk_iff c).1 hc
  have ht := targetValue_isTarget hc hot last
  rw [IsTarget, if_neg (not_le.2 hmax)] at ht
  split at ht
  case isTrue hoff => exact .inl ⟨ht, .inl hoff⟩
  case isFalse hon =>
    split at ht
    case isTrue hoff => exact .inl ⟨ht, .inr hoff⟩
    case isFalse hkeep =>
      split at ht
      case isTrue hmin => exact .inr (.inl ⟨ht, by omega, by omega, hmin⟩)
      case isFalse hramp => exact .inr (.inr ⟨ht, by omega, by omega⟩)

theorem interp_mono {c : Config} (hc : configOk c = true) {hot hot' : Int} (h : hot ≤ hot') :
    interp c hot ≤ interp c hot' := by
  obtain ⟨-, -, -, ht, -, -, h100, -⟩ := (configOk_iff c).1 hc
  have hden : (0 : Rat) ≤ c.maxTemp - c.minTemp := by rw [sub_nonneg]; exact_mod_cast ht.le
  have hslope : (0 : Rat) ≤ 100 - c.minDuty := by rw [sub_nonneg]; exact_mod_cast h100
  unfold interp
  gcongr

/-- A ramp value is at least `MIN_DUTY` (rule R202). -/
theorem minDuty_le_of_ramp {c : Config} (hc : configOk c = true) {hot n : Int} (hmin : c.minTemp < hot)
    (hmax : hot < c.maxTemp) (hn : IsRound c.roundTie (interp c hot) n) : c.minDuty ≤ n := by
  obtain ⟨-, -, -, ht, -, -, h100, -⟩ := (configOk_iff c).1 hc
  obtain ⟨hlo, hhi⟩ := interp_bounds ht h100 hmin.le hmax.le
  exact (hn.bounds hlo (hi := 100) (by exact_mod_cast hhi)).1

/-- Property P3 of rule R212. -/
theorem minDuty_le_targetValue {c : Config} (hc : configOk c = true) {hot last : Int} (hl : last ≠ 0)
    (hge : c.minTemp - c.deadBand ≤ hot) : c.minDuty ≤ targetValue c hot last := by
  obtain ⟨-, -, -, -, -, -, h100, -⟩ := (configOk_iff c).1 hc
  rcases le_or_gt c.maxTemp hot with hmax | hmax
  · rwa [targetValue_override hmax]
  · rcases targetValue_regions hc hmax last with ⟨-, hoff⟩ | ⟨heq, -⟩ | ⟨hn, hmin, -⟩
    · omega
    · exact heq.ge
    · exact minDuty_le_of_ramp hc hmin hmax hn

/-- Property P2 of rule R212: an off fan stays off up to `MIN_TEMP + D`. -/
theorem targetValue_stays_off {c : Config} (hc : configOk c = true) {hot : Int} (h : hot ≤ c.minTemp + c.deadBand)
    (hmax : hot < c.maxTemp) : targetValue c hot 0 = 0 := by
  rcases targetValue_regions hc hmax 0 with ⟨heq, -⟩ | ⟨-, hne, -⟩ | ⟨-, -, hon⟩
  · exact heq
  · exact absurd rfl hne
  · exact absurd (hon rfl) (not_lt.2 h)

/-- Any fan is off below `MIN_TEMP - D` (rule R201). -/
theorem targetValue_turns_off {c : Config} (hc : configOk c = true) {hot : Int}
    (hlt : hot < c.minTemp - c.deadBand) (hmax : hot < c.maxTemp) (last : Int) : targetValue c hot last = 0 := by
  obtain ⟨-, -, -, -, hband, -⟩ := (configOk_iff c).1 hc
  rcases targetValue_regions hc hmax last with ⟨heq, -⟩ | ⟨-, -, hge, -⟩ | ⟨-, hmin, -⟩
  · exact heq
  · omega
  · omega

/-- An on fan runs at `MIN_DUTY` from `MIN_TEMP - D` to `MIN_TEMP` (rule R201). -/
theorem targetValue_minimum {c : Config} (hc : configOk c = true) {hot last : Int} (hl : last ≠ 0)
    (hge : c.minTemp - c.deadBand ≤ hot) (hle : hot ≤ c.minTemp) : targetValue c hot last = c.minDuty := by
  obtain ⟨-, -, -, ht, -⟩ := (configOk_iff c).1 hc
  rcases targetValue_regions hc (hle.trans_lt ht) last with ⟨-, hoff⟩ | ⟨heq, -⟩ | ⟨-, hmin, -⟩
  · omega
  · exact heq
  · omega

/-- Between `MIN_TEMP` and `MAX_TEMP` a fan that is on or comes on runs on the ramp (rules R201, R202). -/
theorem targetValue_ramp {c : Config} (hc : configOk c = true) {hot last : Int} (hmin : c.minTemp < hot)
    (hmax : hot < c.maxTemp) (hon : last = 0 → c.minTemp + c.deadBand < hot) :
    IsRound c.roundTie (interp c hot) (targetValue c hot last) := by
  obtain ⟨-, -, -, -, hband, -⟩ := (configOk_iff c).1 hc
  rcases targetValue_regions hc hmax last with ⟨-, hoff⟩ | ⟨-, -, -, hle⟩ | ⟨hn, -⟩
  · omega
  · omega
  · exact hn

/-- Property P4 of rule R212: the regions come in this order as the temperature rises, and the ramp rises. -/
theorem targetValue_mono {c : Config} (hc : configOk c = true) {hot hot' : Int} (h : hot ≤ hot') (last : Int) :
    targetValue c hot last ≤ targetValue c hot' last := by
  obtain ⟨-, -, -, -, hband, -⟩ := (configOk_iff c).1 hc
  rcases le_or_gt c.maxTemp hot' with hmax' | hmax'
  · rw [targetValue_override hmax']
    exact (targetValue_range hc hot last).2
  · rcases targetValue_regions hc (h.trans_lt hmax') last with ⟨heq, -⟩ | ⟨heq, hl, hge, -⟩ | ⟨hn, hmin, hon⟩
    · rw [heq]
      exact (targetValue_range hc hot' last).1
    · rw [heq]
      exact minDuty_le_targetValue hc hl (hge.trans h)
    · rcases targetValue_regions hc hmax' last with ⟨-, hoff'⟩ | ⟨-, -, -, hle'⟩ | ⟨hn', -⟩
      · omega
      · omega
      · exact hn.mono hn' (interp_mono hc h)

/-- Settles O41: the target is rule R201's (`targetValue_isTarget`), and the instruction answers it. -/
theorem targetDutyFollowsTheRule : Obligations.TargetDutyFollowsTheRule := by
  refine ⟨fun c hot last hc => ⟨targetValue_isTarget hc hot last, overrideAt_iff, targetValue_range hc hot last⟩,
    fun hot last s hc => ⟨fun hl => ⟨_, targetValue_isTarget hc hot.toNat last.toNat, ?_⟩, fun hl hf => ?_⟩⟩
  · rw [exec_eq_next, execState_targetDuty, if_pos hl]
    rfl
  · rw [exec_eq_next, execState_targetDuty, if_neg (not_le.2 hl), raise, hf]

/-! ## The rate limit -/

theorem rateLimit_override (c : Config) (last target : Int) : rateLimit c true last target = 100 := rfl

theorem rateLimit_up {c : Config} {last target : Int} (h : last < target) :
    rateLimit c false last target = min target (last + c.step) := if_pos h

theorem rateLimit_down {c : Config} {last target : Int} (h : target ≤ last) :
    rateLimit c false last target = max target (last - c.step) := if_neg (not_lt.2 h)

/-- Without the override a move is at most `STEP` (rule R203, property P5 of rule R212). -/
theorem rateLimit_move {c : Config} (hs : 1 ≤ c.step) (last target : Int) :
    |rateLimit c false last target - last| ≤ c.step := by
  rw [abs_le]
  rcases lt_or_ge last target with h | h
  · rw [rateLimit_up h]
    omega
  · rw [rateLimit_down h]
    omega

/-- Without the override the result lies between `last` and the target (rule R203). -/
theorem rateLimit_between {c : Config} (hs : 1 ≤ c.step) (last target : Int) :
    min last target ≤ rateLimit c false last target ∧ rateLimit c false last target ≤ max last target := by
  rcases lt_or_ge last target with h | h
  · rw [rateLimit_up h]
    omega
  · rw [rateLimit_down h]
    omega

theorem targetDuty_override {c : Config} {hot : Int} (h : c.maxTemp ≤ hot) (last : Int) :
    targetDuty c hot last = (100, true) :=
  Prod.ext (targetValue_override h last) (overrideAt_iff.2 h)

theorem targetDuty_of_lt {c : Config} {hot last v : Int} (hmax : hot < c.maxTemp) (hv : targetValue c hot last = v) :
    targetDuty c hot last = (v, false) :=
  Prod.ext hv (decide_eq_false (not_le.2 hmax))

/-- Settles O42: the laws one by one. -/
theorem controllerLaws : Obligations.ControllerLaws := by
  intro c hc
  obtain ⟨-, -, -, ht, hband, -⟩ := (configOk_iff c).1 hc
  refine ⟨fun hot last h => targetDuty_override h last,
    fun hot h hmax => targetDuty_of_lt hmax (targetValue_stays_off hc h hmax),
    fun hot last hl hge => minDuty_le_targetValue hc hl hge,
    fun hot hot' last h => targetValue_mono hc h last,
    fun hot last hmin hmax hon => targetValue_ramp hc hmin hmax hon,
    fun hot last _ hlt => ?_,
    fun hot last hl hge hle => targetValue_minimum hc hl hge hle,
    rateLimit_move (step_of_ok hc), rateLimit_override c⟩
  have hmax : hot < c.maxTemp := by omega
  exact targetDuty_of_lt hmax (targetValue_turns_off hc hlt hmax last)

/-- Settles O43: the instruction answers the rate limiter's value, branch by branch. -/
theorem rateLimitFollowsTheRule : Obligations.RateLimitFollowsTheRule := by
  refine fun o last target s hc => ⟨fun hl ht => ⟨rateLimit s.cfg o last.toNat target.toNat, ?_, ?_, ?_, ?_, ?_⟩, ?_⟩
  · rw [exec_eq_next, execState_rateLimit, if_pos ⟨hl, ht⟩]
  · rintro rfl
    exact rateLimit_override s.cfg _ _
  · rintro rfl h
    exact rateLimit_up (by exact_mod_cast h)
  · rintro rfl h
    exact rateLimit_down (by exact_mod_cast h)
  · rintro rfl
    exact rateLimit_between (step_of_ok hc) _ _
  · intro h hf
    rw [exec_eq_next, execState_rateLimit, if_neg (by omega), raise, hf]

/-! ## The cycle and the report -/

theorem controlCycle_faults {s : State} {f : FaultKind} {last : Int} (hl : s.ctl = some last)
    (h : channelFault s = some f) : controlCycle s = faultRes f s := by
  simp [controlCycle, hl, resolveCpu_faults h]

theorem exec_controlCycle_done {s t : State} (h : controlCycle s = .done () t) :
    exec .controlCycle s = .next { t with ret := some .ok } := by
  rw [exec, execControlCycle, h, finish_eq, returned_done]

/-- Settles O44, by `controlCycle_run`; the ControlState is tested before the session. -/
theorem controlCycleRunsItsFiveSteps : Obligations.ControlCycleRunsItsFiveSteps := by
  refine ⟨fun s last hc hr htool hl => ?_, fun s hl hf => ?_, fun s last hl hs hf => ?_⟩
  · obtain ⟨t, hrun, -, hcycle⟩ := controlCycle_run hc hr htool hl
    exact ⟨_, exec_controlCycle_done hrun, hcycle⟩
  · rw [exec, execControlCycle, controlCycle_none hl, finish_faultRes _ _ hf]
  · rw [exec, execControlCycle, controlCycle_faults hl (channelFault_noSession hs), finish_faultRes _ _ hf]

/-- Settles O47: `DUMP` is the standalone report (`reportAlone_run`). -/
theorem reportAndDumpReadEverythingOnce : Obligations.ReportAndDumpReadEverythingOnce := by
  refine fun s hc => ⟨fun hr htool => ?_, needsSession_of_needsChannel rfl s, needsSession_of_needsChannel rfl s⟩
  obtain ⟨t, es, hrun, hev⟩ := reportAlone_run hr (budget_of_ok hc) htool
  have hdump : SensorRun s (dumpCommand s) (.ok ()) t es := hrun.map _
  obtain ⟨hexec, hobs⟩ := hrun.observes hr.2 fun _ => .ok
  obtain ⟨hexec', hobs'⟩ := hdump.observes hr.2 unitResult
  exact ⟨⟨_, hexec, es, hev, hobs⟩, _, hexec', es, hev, hobs'⟩

/-! ## The start of the loop -/

/-- Settles O48, by `startLoop_after`. -/
theorem autoStartsTheLoop : Obligations.AutoStartsTheLoop := by
  intro s hr
  rcases startLoop_after s with ⟨f, hf, -⟩ | ⟨-, hl, h⟩ | ⟨-, hl, h⟩
  · exact absurd hr (channelFault_some hf).2
  · refine ⟨fun hne => absurd hl hne, fun _ => ?_⟩
    rw [exec_eq_next, execState_auto, h, returned_done]
  · refine ⟨fun _ => ?_, fun he => absurd he hl⟩
    rw [exec_eq_next, execState_auto, h, returned_done]

/-! ## The phases of the loop -/

/-- An enabled step of the loop in progress is one transition of its phase, with the interrupt source's move after it. -/
theorem step_loop {s : State} (he : Enabled s) (hl : loopRunning s.loop = true) :
    step s = withInterrupt (loopStep s) := by
  rw [step_enabled he, blockStep, if_pos hl]

theorem loopStep_top {s : State} (h : s.loop = .top) :
    loopStep s = .next (if s.stop then exitLoop s else { s with loop := .cycle }) := by
  rw [loopStep, h]

theorem loopStep_preSleep {s : State} (h : s.loop = .preSleep) :
    loopStep s = .next (if s.stop then exitLoop s else { s with loop := .sleeping }) := by
  rw [loopStep, h]

theorem loopStep_postSleep {s : State} (h : s.loop = .postSleep) :
    loopStep s = .next (if s.stop then exitLoop s else { s with loop := .top }) := by
  rw [loopStep, h]

theorem loopStep_sleeping {s : State} (h : s.loop = .sleeping) :
    loopStep s = .next { (sleep s.cfg.tickMs s) with loop := .postSleep } := by
  rw [loopStep, h]

theorem loopStep_cycle_done {s t : State} (h : s.loop = .cycle) (hc : controlCycle s = .done () t) :
    loopStep s = .next { t with loop := .preSleep } := by
  rw [loopStep, h, hc]

theorem loopStep_cycle_halted {s t : State} (h : s.loop = .cycle) (hc : controlCycle s = .halted t) :
    loopStep s = .next t := by
  rw [loopStep, h, hc]

/-- Settles O49: the phases one by one, a cycle by `controlCycle_run`. -/
theorem loopPhasesFollowTheTable : Obligations.LoopPhasesFollowTheTable := by
  intro s he
  obtain ⟨-, -, hc⟩ := id he
  refine ⟨fun h => ?_, fun h hr htool hctl => ?_, fun h => ?_, fun h => ?_, fun h => ?_⟩
  · rw [step_loop he (by rw [h]; rfl), loopStep_top h]
    rfl
  · obtain ⟨last, hl⟩ := Option.ne_none_iff_exists'.1 hctl
    obtain ⟨t, hrun, hret, -⟩ := controlCycle_run hc hr htool hl
    refine ⟨_, exec_controlCycle_done hrun, ?_⟩
    rw [step_loop he (by rw [h]; rfl), loopStep_cycle_done h hrun, ← hret]
  · rw [step_loop he (by rw [h]; rfl), loopStep_preSleep h]
    rfl
  · rw [step_loop he (by rw [h]; rfl), loopStep_sleeping h]
    rfl
  · rw [step_loop he (by rw [h]; rfl), loopStep_postSleep h]
    rfl

/-! ## What a step of the loop may do -/

/-- The loop exits at the raised stop flag, or stays in progress with the ControlState updated by a cycle at most (rules
R205, R208, R210). -/
def LoopMove (s t : State) : Prop :=
  (s.stop = true ∧ t = exitLoop s) ∨ (loopRunning t.loop = true ∧ CtlUpdate s t)

theorem checkPoint_loopMove {s : State} {p : LoopPhase} (hp : loopRunning p = true) :
    LoopMove s (if s.stop then exitLoop s else { s with loop := p }) := by
  split
  case isTrue hs => exact .inl ⟨hs, rfl⟩
  case isFalse => exact .inr ⟨hp, .inl rfl⟩

theorem loopStep_loopMove {s t : State} (hB : 1 ≤ s.cfg.pollBudget) (hl : loopRunning s.loop = true)
    (h : loopStep s = .next t) : LoopMove s t := by
  cases hp : s.loop with
  | off => rw [hp] at hl; cases hl
  | exited => rw [hp] at hl; cases hl
  | top => cases (loopStep_top hp).symm.trans h; exact checkPoint_loopMove rfl
  | preSleep => cases (loopStep_preSleep hp).symm.trans h; exact checkPoint_loopMove rfl
  | postSleep => cases (loopStep_postSleep hp).symm.trans h; exact checkPoint_loopMove rfl
  | sleeping => cases (loopStep_sleeping hp).symm.trans h; exact .inr ⟨rfl, .inl rfl⟩
  | cycle =>
    obtain ⟨hprogress, hctl⟩ := controlCycle_progress s hB
    cases hr : controlCycle s with
    | done _ u =>
      rw [hr] at hctl
      cases (loopStep_cycle_done hp hr).symm.trans h
      exact .inr ⟨rfl, hctl⟩
    | halted u =>
      rw [hr] at hprogress hctl
      cases (loopStep_cycle_halted hp hr).symm.trans h
      exact .inr ⟨(congrArg loopRunning hprogress.loop).trans hl, hctl⟩

/-- The duty a cycle commands is within `STEP` of `last`, or the override's 100 (rule R203). -/
theorem dutyAt_move {c : Config} (hc : configOk c = true) (hot last : Int) :
    |dutyAt c hot last - last| ≤ c.step ∨ dutyAt c hot last = 100 := by
  unfold dutyAt
  cases overrideAt c hot with
  | true => exact .inr (rateLimit_override c last _)
  | false => exact .inl (rateLimit_move (step_of_ok hc) last _)

theorem CtlUpdate.move {s t : State} {a b : Int} (h : CtlUpdate s t) (hc : configOk s.cfg = true) (ha : s.ctl = some a)
    (hb : t.ctl = some b) : |b - a| ≤ s.cfg.step ∨ b = 100 := by
  rcases h with hsame | ⟨last, hot, hlast, hduty⟩
  · cases hb.symm.trans (hsame.trans ha)
    left
    rw [sub_self, abs_zero]
    exact zero_le_one.trans (step_of_ok hc)
  · cases hlast.symm.trans ha
    cases hduty.symm.trans hb
    exact dutyAt_move hc hot _

/-- Settles O45: with a ControlState the loop is in progress, and its step updates it by a cycle at most. -/
theorem lastMovesByAtMostStep : Obligations.LastMovesByAtMostStep := by
  intro s t a b hc hi h ha hb
  have hl : loopRunning s.loop = true := by rw [← hi.controller, ha]; rfl
  obtain ⟨-, -, ⟨hbad, -⟩ | ⟨-, u, hu, rfl⟩⟩ := step_next h
  · rw [hc] at hbad
    cases hbad
  · rw [blockStep, if_pos hl] at hu
    rcases loopStep_loopMove (budget_of_ok hc) hl hu with ⟨-, rfl⟩ | ⟨-, hctl⟩
    · cases hb
    · exact hctl.move hc ha hb

/-! ## The end of the loop -/

/-- A check point of the stop flag (rule R208). -/
def IsCheckPoint (p : LoopPhase) : Prop := p = .top ∨ p = .preSleep ∨ p = .postSleep

/-- In progress, the loop is at a check point or in the cycle or the sleep before one. -/
theorem loopRunning_iff {p : LoopPhase} : loopRunning p = true ↔ IsCheckPoint p ∨ p = .cycle ∨ p = .sleeping := by
  cases p <;> simp [loopRunning, IsCheckPoint]

/-- A run takes the step that answers next. -/
theorem core_run_succ {s t : State} (h : step s = .next t) (n : Nat) :
    Sys2Proof.core.run (n + 1) s = Sys2Proof.core.run n t := by
  have hstep : Sys2Proof.core.step s = .next t := h
  simp only [Host.Core.run, hstep]

theorem core_run_zero (s : State) : Sys2Proof.core.run 0 s = .next s := rfl

theorem StepInv.ready {s : State} (hi : StepInv s) (hl : loopRunning s.loop = true) : Ready s :=
  ⟨hi.loopSession hl, hi.channelIdle.1⟩

theorem StepInv.last {s : State} (hi : StepInv s) (hl : loopRunning s.loop = true) : ∃ last, s.ctl = some last :=
  Option.isSome_iff_exists.1 (hi.controller.trans hl)

theorem Enabled.interrupt {s : State} (h : Enabled s) : Enabled (interrupt s) := by
  obtain ⟨hf, hst, hc⟩ := h
  exact ⟨(interrupt_fault s).trans hf, hst, hc⟩

/-- At a check point the raised flag ends the loop (rule R208). -/
theorem step_checkPoint {s : State} (he : Enabled s) (hp : IsCheckPoint s.loop) (hs : s.stop = true) :
    step s = .next (interrupt (exitLoop s)) := by
  have hexit : loopStep s = .next (exitLoop s) := by
    rcases hp with hp | hp | hp
    · rw [loopStep_top hp, if_pos hs]
    · rw [loopStep_preSleep hp, if_pos hs]
    · rw [loopStep_postSleep hp, if_pos hs]
  rw [step_loop he (loopRunning_iff.2 (.inl hp)), hexit]
  rfl

/-- A completed cycle leaves the block enabled and the flag as it was. -/
theorem controlCycle_done_enabled {s t : State} {last : Int} (he : Enabled s) (hl : s.ctl = some last)
    (h : controlCycle s = .done () t) : Enabled t ∧ t.stop = s.stop := by
  obtain ⟨hf, hst, hc⟩ := he
  have hop := controlCycle_calmOp hl (budget_of_ok hc)
  obtain ⟨hf', hst'⟩ := hop.done () t h
  obtain ⟨es, hk⟩ := hop.keeps
  rw [h, Res.after_done] at hk
  exact ⟨⟨hf'.trans hf, hst'.trans hst, by rw [hk.cfg]; exact hc⟩, hk.stop⟩

/-- The cycle or the sleep under way completes at a check point (rules R207, R209). -/
theorem step_to_checkPoint {s : State} (he : Enabled s) (hi : StepInv s) (htool : ToolReturns s)
    (hp : s.loop = .cycle ∨ s.loop = .sleeping) :
    ∃ u, step s = .next (interrupt u) ∧ Enabled u ∧ IsCheckPoint u.loop ∧ u.stop = s.stop := by
  obtain ⟨-, -, hc⟩ := id he
  have hrun : loopRunning s.loop = true := loopRunning_iff.2 (.inr hp)
  rcases hp with hp | hp
  · obtain ⟨last, hl⟩ := hi.last hrun
    obtain ⟨t, ht, -⟩ := controlCycle_run hc (hi.ready hrun) htool hl
    obtain ⟨he', hstop⟩ := controlCycle_done_enabled he hl ht
    refine ⟨{ t with loop := .preSleep }, ?_, he', .inr (.inl rfl), hstop⟩
    rw [step_loop he hrun, loopStep_cycle_done hp ht]
    rfl
  · refine ⟨{ (sleep s.cfg.tickMs s) with loop := .postSleep }, ?_, he, .inr (.inr rfl), rfl⟩
    rw [step_loop he hrun, loopStep_sleeping hp]
    rfl

/-- Settles O50: a step exits at the raised flag alone (`loopStep_loopMove`); with it raised the loop exits at the check
point it is at (`step_checkPoint`), or at the one a step away (`step_to_checkPoint`). -/
theorem onlyTheStopFlagEndsTheLoop : Obligations.OnlyTheStopFlagEndsTheLoop := by
  refine ⟨fun s t hl hs h => ?_, fun s he hi htool hl hs => ?_⟩
  · obtain ⟨-, -, ⟨-, rfl⟩ | ⟨hc, u, hu, rfl⟩⟩ := step_next h
    · exact hl
    · rw [blockStep, if_pos hl] at hu
      rcases loopStep_loopMove (budget_of_ok hc) hl hu with ⟨hstop, -⟩ | ⟨hrun, -⟩
      · rw [hs] at hstop
        cases hstop
      · exact hrun
  · rcases loopRunning_iff.1 hl with hp | hp
    · refine ⟨1, by omega, interrupt (exitLoop s), ?_, rfl, rfl, ?_, fun _ _ => rfl⟩
      · rw [core_run_succ (step_checkPoint he hp hs), core_run_zero]
      · rw [interrupt_fault, exitLoop_fault, he.1]
    · obtain ⟨u, hu, he', hp', hstop⟩ := step_to_checkPoint he hi htool hp
      have hraised : (interrupt u).stop = true := by rw [interrupt_stop, hstop, hs, Bool.true_or]
      refine ⟨2, le_rfl, interrupt (exitLoop (interrupt u)), ?_, rfl, rfl, ?_, fun h1 h2 => (hp.elim h1 h2).elim⟩
      · rw [core_run_succ hu, core_run_succ (step_checkPoint he'.interrupt hp' hraised), core_run_zero]
      · rw [interrupt_fault, exitLoop_fault, he'.interrupt.1]

/-! ## A cycle at or above `MAX_TEMP` under the reference EC -/

/-- An operation that stores nothing and completed leaves the reference EC's registers. -/
theorem Leaves.done_ref {α : Type} {s t : State} {R : Res α} {a : α} {r : RefEc} (h : Leaves false s R.after)
    (hd : R = .done a t) (hr : s.env.ec = .reference r) :
    ∃ r', t.env.ec = .reference r' ∧ r'.regs = r.regs ∧ r'.busy = r.busy := by
  obtain ⟨r', hr', hmove⟩ := h r hr
  rw [hd] at hr'
  exact ⟨r', hr', hmove.same rfl, hmove.busy⟩

theorem roundQuot_mul (tie : RoundTie) (n : Int) {d : Int} (hd : 0 < d) : roundQuot tie (n * d) d = n := by
  simp [roundQuot, Int.mul_ediv_cancel n hd.ne', hd]

/-- Full duty is `DUTY_RAW_MAX`, where that is a byte (rule R147). -/
theorem rawFromDuty_full {c : Config} (hM : c.dutyRawMax ≤ 255) : (rawFromDuty c 100).toNat = c.dutyRawMax := by
  have hround := roundQuot_mul c.roundTie c.dutyRawMax (d := 100) (by omega)
  have hraw := rawFromDuty_toNat (c := c) (p := 100) (by omega) (by rw [hround]; exact_mod_cast hM)
  rw [hround] at hraw
  exact_mod_cast hraw

/-- The parts of a completed cycle (rule R204). -/
theorem controlCycle_done {s t : State} {last : Int} (hc : configOk s.cfg = true) (hl : s.ctl = some last)
    (h : controlCycle s = .done () t) :
    ∃ cpu gpu u v w x, resolveCpu s = .done cpu u ∧ u.cfg = s.cfg ∧ resolveGpu u = .done gpu v ∧ v.cfg = s.cfg ∧
      applyDuty last (dutyAt s.cfg (hot cpu gpu) last) (setOverride (overrideAt s.cfg (hot cpu gpu)) v) = .done () w ∧
      w.cfg = s.cfg ∧ reportWith cpu gpu w = .done () x ∧ t = clearOverride x := by
  simp only [controlCycle, hl, andThen_eq_done, Res.done.injEq, true_and] at h
  obtain ⟨cpu, u, hcpu, gpu, v, hgpu, _, w, happly, _, x, hreport, rfl⟩ := h
  obtain ⟨-, -, -, hcu⟩ := opSpec_kept_done (resolveCpu_opSpec s (budget_of_ok hc)) hcpu
  obtain ⟨-, -, -, hcvu⟩ := opSpec_kept_done (resolveGpu_opSpec u (budget_of_ok (by rw [hcu, hc]))) hgpu
  have hcv := hcvu.trans hcu
  have hduty : rateLimit s.cfg (some (overrideAt s.cfg (hot cpu gpu)) == some true) last
      (targetValue s.cfg (hot cpu gpu) last) = dutyAt s.cfg (hot cpu gpu) last := by
    rw [dutyAt]
    cases overrideAt s.cfg (hot cpu gpu) <;> rfl
  simp only [targetDuty, setOverride_cfg, setOverride_override, hcv, hduty] at happly
  have hcw := (applyDuty_calmOp last (dutyAt s.cfg (hot cpu gpu) last)
    (setOverride (overrideAt s.cfg (hot cpu gpu)) v) (budget_of_ok (by rw [setOverride_cfg, hcv, hc]))).cfg
  rw [happly] at hcw
  exact ⟨cpu, gpu, u, v, w, x, hcpu, hcu, hgpu, hcv, happly, hcw.trans hcv, hreport, rfl⟩

/-- The reference EC holds the raw value of `duty` in both duty registers. -/
def DutyStored (c : Config) (duty : Int) (t : State) : Prop :=
  ∃ r, t.env.ec = .reference r ∧
    ∀ ch, cellRead r.regs (forChannel c.regDuty ch).toNat = rawFromDuty c (clamp duty 0 100)

section
variable {s t : State} {r : RefEc} (hc : configOk s.cfg = true) (hr : s.env.ec = .reference r) (hb : r.busy = false)
include hc hr hb

/-- The CPU reading of an EC that is not busy is its register (rules R140, R171). -/
theorem resolveCpu_done_ref {cpu : Reading} (h : resolveCpu s = .done cpu t) :
    cpu.value = (cellRead r.regs s.cfg.regCpuTemp.toNat).toNat := by
  simp only [resolveCpu, cpuTempRead, readByte, andThen_eq_done, Res.done.injEq] at h
  obtain ⟨_, _, ⟨_, _, ⟨x, _, hread, rfl, -⟩, rfl, -⟩, rfl, -⟩ := h
  obtain ⟨-, rfl, -⟩ := ecRead_done_ref hc hr hb hread
  rfl

variable (hw : Memory.wf r.regs = true) (hcmd : s.cfg.cmdSetDuty ≠ s.cfg.cmdRead)
include hw hcmd

/-- Both writes to an EC that is not busy succeed. Where the channels share a sub-address or a register, the second write
stores the same byte again. -/
theorem writeBoth_done_ref {duty : Int} {y : Except ErrorKind Unit × Except ErrorKind Unit}
    (h : writeBoth duty s = .done y t) :
    y = (.ok (), .ok ()) ∧ DutyStored s.cfg duty t := by
  simp only [writeBoth, andThen_eq_done, Res.done.injEq] at h
  obtain ⟨x1, u, h1, x2, _, h2, rfl, rfl⟩ := h
  obtain ⟨hcu, rfl, r1, hr1, hregs1, hb1⟩ := ecWrite_done_ref hc hr hb h1
  rw [fanDutyWrite, hcu] at h2
  obtain ⟨-, rfl, r2, hr2, hregs2, -⟩ := ecWrite_done_ref (by rw [hcu]; exact hc) hr1 hb1 h2
  refine ⟨rfl, r2, hr2, fun ch => ?_⟩
  rw [hregs2, hcu, hregs1, cellRead_stored _ _ _ _ (storedRegs_wf _ _ _ _ hw), cellRead_stored _ _ _ _ hw]
  cases ch <;> simp [forChannel, hcmd]

/-- A changed duty reaches both registers and the ControlState (rule R205). -/
theorem applyDuty_done_ref {last duty : Int} {a : Unit} (hne : duty ≠ last) (h : applyDuty last duty s = .done a t) :
    t.ctl = some duty ∧ DutyStored s.cfg duty t := by
  rw [applyDuty, if_neg hne, andThen_eq_done] at h
  obtain ⟨y, u, hwrite, ht⟩ := h
  obtain ⟨rfl, hstored⟩ := writeBoth_done_ref hc hr hb hw hcmd hwrite
  cases ht
  exact ⟨rfl, hstored⟩

/-- A completed cycle with the CPU register at `MAX_TEMP` or more stores full duty (rules R201, R203, R205). -/
theorem controlCycle_hot_ref {last : Int} (hl : s.ctl = some last) (hne : last ≠ 100)
    (hhot : s.cfg.maxTemp ≤ (cellRead r.regs s.cfg.regCpuTemp.toNat).toNat) (h : controlCycle s = .done () t) :
    t.ctl = some 100 ∧ DutyStored s.cfg 100 t := by
  obtain ⟨cpu, gpu, u, v, w, x, hcpu, hcu, hgpu, hcv, happly, hcw, hreport, rfl⟩ := controlCycle_done hc hl h
  have hover : s.cfg.maxTemp ≤ hot cpu gpu := by
    rw [← resolveCpu_done_ref hc hr hb hcpu] at hhot
    exact hhot.trans (le_max_left _ _)
  have hduty : dutyAt s.cfg (hot cpu gpu) last = 100 := by
    rw [dutyAt, overrideAt_iff.2 hover, rateLimit_override]
  rw [hduty] at happly
  obtain ⟨r1, hr1, hregs1, hb1⟩ := (resolveCpu_leaves s hc).done_ref hcpu hr
  obtain ⟨r2, hr2, hregs2, hb2⟩ := (resolveGpu_leaves u (by rw [hcu, hc])).done_ref hgpu hr1
  rw [← hcv] at hc hcmd
  obtain ⟨hctl, r3, hr3, hstored⟩ := applyDuty_done_ref (s := setOverride _ v) hc hr2 (by rw [hb2, hb1, hb])
    (by rw [hregs2, hregs1, hw]) hcmd hne.symm happly
  rw [hcv, ← hcw] at hc
  obtain ⟨r4, hr4, hregs4, -⟩ := (reportWith_leaves cpu gpu w hc).done_ref hreport hr3
  obtain ⟨hkept, -⟩ := opSpec_kept_done (reportWith_opSpec cpu gpu w (budget_of_ok hc)) hreport
  refine ⟨hkept.trans hctl, r4, hr4, fun ch => ?_⟩
  rw [hregs4, ← hcv]
  exact hstored ch

end

/-- Settles O46: the cycle completes (`controlCycle_run`), and a completed cycle at `MAX_TEMP` stores full duty
(`controlCycle_hot_ref`), which is `DUTY_RAW_MAX` (`rawFromDuty_full`). -/
theorem hotCpuForcesFullDuty : Obligations.HotCpuForcesFullDuty := by
  intro s r last he hi hp htool hl hne hr hb hcmd hM hhot
  obtain ⟨-, -, hc⟩ := id he
  have hrun : loopRunning s.loop = true := by rw [hp]; rfl
  have hw : Memory.wf r.regs = true := by simpa [hr, ecCellsOk] using hi.registers
  obtain ⟨t, ht, -⟩ := controlCycle_run hc (hi.ready hrun) htool hl
  obtain ⟨hctl, r', hr', hstored⟩ := controlCycle_hot_ref hc hr hb hw hcmd hl hne hhot ht
  refine ⟨interrupt { t with loop := .preSleep }, r', ?_, rfl, hctl, ?_, fun ch => ?_⟩
  · rw [step_loop he hrun, loopStep_cycle_done hp ht]
    rfl
  · rw [interrupt_ec]
    exact hr'
  · rw [hstored ch, clamp_of_mem (by omega) (by omega), rawFromDuty_full hM]

end Sys2Proof.Machine
end

section
/-! The stop flag is carried along, never read, off the loop's check points (rules R208, R250, R280). -/

namespace Sys2Proof.Machine

/-- The state with another stop flag. -/
def withStop (b : Bool) (s : State) : State := { s with stop := b }

section
variable (b : Bool)

/-! ## Carrying the flag through an operation's end -/

@[simp] theorem onState_done {α : Type} (f : State → State) (a : α) (t : State) :
    onState f (.done a t) = .done a (f t) := rfl

@[simp] theorem onState_halted {α : Type} (f : State → State) (t : State) :
    onState f (.halted t : Res α) = .halted (f t) := rfl

/-- An operation in two parts carries the flag along if its second part does. -/
theorem andThen_onState {α β : Type} (r : Res α) {k : α → State → Res β}
    (hk : ∀ a t, k a (withStop b t) = onState (withStop b) (k a t)) :
    andThen (onState (withStop b) r) k = onState (withStop b) (andThen r k) := by
  cases r with
  | done a t => exact hk a t
  | halted t => rfl

/-- The common case: the rest only computes a value. -/
@[simp] theorem andThen_onState_map {α β : Type} (r : Res α) (f : α → β) :
    andThen (onState (withStop b) r) (fun a t => .done (f a) t) =
      onState (withStop b) (andThen r fun a t => .done (f a) t) :=
  andThen_onState b r fun _ _ => rfl

theorem finish_onState {α : Type} {result : α → OpResult} {r r' : Res α} (h : r' = onState (withStop b) r) :
    finish result r' = onNext (withStop b) (finish result r) := by
  subst h
  cases r <;> rfl

theorem endCommand_onState {r r' : Res (Except ErrorKind Unit)} (h : r' = onState (withStop b) r) :
    endCommand r' = onNext (withStop b) (endCommand r) := by
  subst h
  cases r <;> rfl

variable (s : State)

/-! ## The state's own operations -/

@[simp] theorem withStop_cfg : (withStop b s).cfg = s.cfg := rfl
@[simp] theorem withStop_chan : (withStop b s).chan = s.chan := rfl
@[simp] theorem withStop_ctl : (withStop b s).ctl = s.ctl := rfl
@[simp] theorem withStop_override : (withStop b s).override = s.override := rfl
@[simp] theorem withStop_loop : (withStop b s).loop = s.loop := rfl
@[simp] theorem withStop_cmd : (withStop b s).cmd = s.cmd := rfl
@[simp] theorem withStop_invocation : (withStop b s).invocation = s.invocation := rfl
@[simp] theorem channelFault_withStop : channelFault (withStop b s) = channelFault s := rfl

@[simp] theorem raise_withStop (f : FaultKind) : raise f (withStop b s) = withStop b (raise f s) := by
  cases h : s.fault <;> simp [raise, withStop, h]

@[simp] theorem faultRes_withStop {α : Type} (f : FaultKind) :
    (faultRes f (withStop b s) : Res α) = onState (withStop b) (faultRes f s) := by
  simp [faultRes]

@[simp] theorem setAttempt_withStop (n : Nat) : setAttempt n (withStop b s) = withStop b (setAttempt n s) := rfl
@[simp] theorem setPhase_withStop (p : ChanPhase) : setPhase p (withStop b s) = withStop b (setPhase p s) := rfl
@[simp] theorem markTimedOut_withStop (k : Nat) : markTimedOut k (withStop b s) = withStop b (markTimedOut k s) := rfl
@[simp] theorem sleep_withStop (ms : Nat) : sleep ms (withStop b s) = withStop b (sleep ms s) := rfl
@[simp] theorem takeResult_withStop : takeResult (withStop b s) = withStop b (takeResult s) := rfl
@[simp] theorem beginRead_withStop (a : Byte) : beginRead a (withStop b s) = withStop b (beginRead a s) := rfl
@[simp] theorem beginWrite_withStop (c a v : Byte) :
    beginWrite c a v (withStop b s) = withStop b (beginWrite c a v s) := rfl
@[simp] theorem failCommand_withStop : failCommand (withStop b s) = withStop b (failCommand s) := rfl
@[simp] theorem setOverride_withStop (o : Bool) : setOverride o (withStop b s) = withStop b (setOverride o s) := rfl
@[simp] theorem clearOverride_withStop : clearOverride (withStop b s) = withStop b (clearOverride s) := rfl

/-! ## Ports and waits -/

@[simp] theorem portIn_withStop (p : Port) :
    portIn p (withStop b s) = ((portIn p s).1, withStop b (portIn p s).2) := rfl

@[simp] theorem portOut_withStop (p : Port) (v : Byte) :
    portOut p v (withStop b s) = withStop b (portOut p v s) := rfl

@[simp] theorem poll_withStop (cond : Byte → Bool) (n : Nat) :
    poll cond n (withStop b s) = ((poll cond n s).1, withStop b (poll cond n s).2) := by
  induction n generalizing s with
  | zero => rfl
  | succ n ih =>
    simp only [poll, withStop_chan, setAttempt_withStop, portIn_withStop, withStop_cfg, sleep_withStop, ih]
    split
    · rfl
    · split <;> rfl

@[simp] theorem wait_withStop (cond : Byte → Bool) :
    wait cond (withStop b s) = ((wait cond s).1, withStop b (wait cond s).2) := by
  simp [wait]

/-! ## Transactions -/

@[simp] theorem readWait_withStop (k : Nat) (cond : Byte → Bool) (p : ChanPhase) :
    readWait k cond p (withStop b s) = ((readWait k cond p s).1, withStop b (readWait k cond p s).2) := by
  simp only [readWait, setPhase_withStop, wait_withStop, withStop_cfg, markTimedOut_withStop]
  split
  · rfl
  · split <;> rfl

@[simp] theorem readSample_withStop :
    readSample (withStop b s) = ((readSample s).1, withStop b (readSample s).2) := rfl

@[simp] theorem readSequence_withStop :
    readSequence (withStop b s) = ((readSequence s).1, withStop b (readSequence s).2) := by
  simp only [readSequence, withStop_cfg, withStop_chan, readWait_withStop, portOut_withStop, readSample_withStop]
  split
  · split <;> rfl
  · rfl

@[simp] theorem ecRead_withStop (addr : Byte) :
    ecRead addr (withStop b s) = onState (withStop b) (ecRead addr s) := by
  simp only [ecRead, channelFault_withStop]
  split <;> simp

@[simp] theorem writeFail_withStop (k : Nat) :
    writeFail k (withStop b s) = ((writeFail k s).1, withStop b (writeFail k s).2) := rfl

@[simp] theorem writeDone_withStop : writeDone (withStop b s) = ((writeDone s).1, withStop b (writeDone s).2) := rfl

@[simp] theorem writeSequence_withStop :
    writeSequence (withStop b s) = ((writeSequence s).1, withStop b (writeSequence s).2) := by
  simp only [writeSequence, withStop_cfg, withStop_chan, setPhase_withStop, wait_withStop, portOut_withStop,
    writeFail_withStop, writeDone_withStop]
  split
  · split
    · split
      · split <;> rfl
      · rfl
    · rfl
  · rfl

@[simp] theorem ecWrite_withStop (cmd addr value : Byte) :
    ecWrite cmd addr value (withStop b s) = onState (withStop b) (ecWrite cmd addr value s) := by
  simp only [ecWrite, channelFault_withStop]
  split <;> simp

@[simp] theorem acquire_withStop : acquire (withStop b s) = onState (withStop b) (acquire s) := by
  by_cases h : 1 ≤ s.acquireCount
  · have h' : 1 ≤ (withStop b s).acquireCount := h
    simp only [acquire, if_pos h, if_pos h', faultRes_withStop]
  · have h' : ¬1 ≤ (withStop b s).acquireCount := h
    simp only [acquire, if_neg h, if_neg h']
    rfl

/-! ## Register map -/

@[simp] theorem readByte_withStop (addr : Byte) :
    readByte addr (withStop b s) = onState (withStop b) (readByte addr s) := by
  simp [readByte]

@[simp] theorem cpuTempRead_withStop : cpuTempRead (withStop b s) = onState (withStop b) (cpuTempRead s) := by
  simp [cpuTempRead]

@[simp] theorem gpuTempEcRead_withStop : gpuTempEcRead (withStop b s) = onState (withStop b) (gpuTempEcRead s) := by
  simp [gpuTempEcRead]

@[simp] theorem fanDutyRead_withStop (ch : Channel) :
    fanDutyRead ch (withStop b s) = onState (withStop b) (fanDutyRead ch s) := by
  simp only [fanDutyRead, withStop_cfg, readByte_withStop]
  exact andThen_onState b _ fun _ _ => rfl

@[simp] theorem fanRpmRead_withStop (ch : Channel) :
    fanRpmRead ch (withStop b s) = onState (withStop b) (fanRpmRead ch s) := by
  simp only [fanRpmRead, withStop_cfg, readByte_withStop]
  refine andThen_onState b _ fun hi t => ?_
  simp only [readByte_withStop]
  exact andThen_onState b _ fun _ _ => rfl

@[simp] theorem fanDutyWrite_withStop (ch : Channel) (p : Int) :
    fanDutyWrite ch p (withStop b s) = onState (withStop b) (fanDutyWrite ch p s) := by
  simp [fanDutyWrite]

/-! ## Temperature multiplexer -/

@[simp] theorem resolveCpu_withStop : resolveCpu (withStop b s) = onState (withStop b) (resolveCpu s) := by
  simp [resolveCpu]

@[simp] theorem sysfsTemp_withStop (entry k : Nat) :
    sysfsTemp entry k (withStop b s) = ((sysfsTemp entry k s).1, withStop b (sysfsTemp entry k s).2) := rfl

@[simp] theorem sysfsName_withStop (entry : Nat) :
    sysfsName entry (withStop b s) = ((sysfsName entry s).1, withStop b (sysfsName entry s).2) := rfl

@[simp] theorem scanInputs_withStop (entry k n : Nat) (best : Option Int) :
    scanInputs entry k n best (withStop b s) =
      ((scanInputs entry k n best s).1, withStop b (scanInputs entry k n best s).2) := by
  induction n generalizing k best s with
  | zero => rfl
  | succ n ih => simp only [scanInputs, sysfsTemp_withStop, ih]

@[simp] theorem scanEntries_withStop (entries : List Nat) (best : Option Int) :
    scanEntries entries best (withStop b s) =
      ((scanEntries entries best s).1, withStop b (scanEntries entries best s).2) := by
  induction entries generalizing best s with
  | nil => rfl
  | cons e rest ih =>
    simp only [scanEntries, sysfsName_withStop, withStop_cfg, scanInputs_withStop, ih]
    split
    · rfl
    · split <;> rfl

@[simp] theorem sysfsStage_withStop :
    sysfsStage (withStop b s) = ((sysfsStage s).1, withStop b (sysfsStage s).2) := by
  have hlist : sysfsList (withStop b s) = ((sysfsList s).1, withStop b (sysfsList s).2) := rfl
  simp only [sysfsStage, hlist, scanEntries_withStop]

@[simp] theorem toolExists_withStop :
    toolExists (withStop b s) = ((toolExists s).1, withStop b (toolExists s).2) := rfl

@[simp] theorem runTool_withStop : runTool (withStop b s) = onState (withStop b) (runTool s) := by
  have henv : (withStop b s).env = s.env := rfl
  simp only [runTool, henv]
  split <;> rfl

@[simp] theorem vendorStage_withStop : vendorStage (withStop b s) = onState (withStop b) (vendorStage s) := by
  simp only [vendorStage, toolExists_withStop, runTool_withStop, withStop_cfg, andThen_onState_map]
  split <;> rfl

@[simp] theorem ecStage_withStop : ecStage (withStop b s) = onState (withStop b) (ecStage s) := by
  simp [ecStage]

@[simp] theorem resolveGpu_withStop : resolveGpu (withStop b s) = onState (withStop b) (resolveGpu s) := by
  simp only [resolveGpu, sysfsStage_withStop]
  cases (sysfsStage s).1 with
  | ok v => rfl
  | error e =>
    simp only [afterSysfs, vendorStage_withStop]
    refine andThen_onState b _ fun r2 t => ?_
    cases r2 with
    | ok v => rfl
    | error e => exact ecStage_withStop b t

/-! ## Controller -/

@[simp] theorem fanReport_withStop (ch : Channel) :
    fanReport ch (withStop b s) = onState (withStop b) (fanReport ch s) := by
  simp only [fanReport, fanDutyRead_withStop]
  refine andThen_onState b _ fun d t => ?_
  simp

@[simp] theorem reportWith_withStop (cpu gpu : Reading) :
    reportWith cpu gpu (withStop b s) = onState (withStop b) (reportWith cpu gpu s) := by
  simp only [reportWith, fanReport_withStop]
  refine andThen_onState b _ fun f1 t => ?_
  simp only [fanReport_withStop]
  exact andThen_onState b _ fun _ _ => rfl

@[simp] theorem reportAlone_withStop : reportAlone (withStop b s) = onState (withStop b) (reportAlone s) := by
  simp only [reportAlone, resolveCpu_withStop]
  refine andThen_onState b _ fun cpu t => ?_
  simp only [resolveGpu_withStop]
  exact andThen_onState b _ fun gpu u => reportWith_withStop b u cpu gpu

@[simp] theorem writeBoth_withStop (duty : Int) :
    writeBoth duty (withStop b s) = onState (withStop b) (writeBoth duty s) := by
  simp only [writeBoth, fanDutyWrite_withStop]
  refine andThen_onState b _ fun r1 t => ?_
  simp

@[simp] theorem applyDuty_withStop (last duty : Int) :
    applyDuty last duty (withStop b s) = onState (withStop b) (applyDuty last duty s) := by
  simp only [applyDuty, writeBoth_withStop]
  split
  · rfl
  · refine andThen_onState b _ fun r t => ?_
    split <;> rfl

@[simp] theorem controlCycle_withStop : controlCycle (withStop b s) = onState (withStop b) (controlCycle s) := by
  simp only [controlCycle, withStop_ctl, resolveCpu_withStop]
  split
  · exact faultRes_withStop b s _
  · refine andThen_onState b _ fun cpu t => ?_
    simp only [resolveGpu_withStop]
    refine andThen_onState b _ fun gpu u => ?_
    simp only [withStop_cfg, setOverride_withStop, withStop_override, applyDuty_withStop]
    refine andThen_onState b _ fun _ w => ?_
    simp only [reportWith_withStop]
    exact andThen_onState b _ fun _ _ => rfl

@[simp] theorem startLoop_withStop : startLoop (withStop b s) = onState (withStop b) (startLoop s) := by
  cases hf : channelFault s with
  | some f => simp only [startLoop, channelFault_withStop, hf, faultRes_withStop]
  | none =>
    by_cases hl : s.loop = .exited
    · have hl' : (withStop b s).loop = .exited := hl
      simp only [startLoop, channelFault_withStop, hf, if_pos hl, if_pos hl', onState_done]
    · have hl' : (withStop b s).loop ≠ .exited := hl
      simp only [startLoop, channelFault_withStop, hf, if_neg hl, if_neg hl']
      rfl

/-! ## Host commands -/

theorem reportAfter_withStop (ok : Bool) :
    reportAfter ok (withStop b s) = onState (withStop b) (reportAfter ok s) := by
  cases ok <;> simp [reportAfter]

theorem manualCommand_withStop (p : Except Rejected Int) {write : Int → State → Res Bool}
    (hw : ∀ d, write d (withStop b s) = onState (withStop b) (write d s)) :
    manualCommand p write (withStop b s) = onState (withStop b) (manualCommand p write s) := by
  simp only [manualCommand, channelFault_withStop]
  split
  · exact faultRes_withStop b s _
  · cases p with
    | error v => rfl
    | ok n =>
      simp only [hw]
      exact andThen_onState b _ fun ok t => reportAfter_withStop b t ok

@[simp] theorem setCommand_withStop (p : Except Rejected Int) :
    setCommand p (withStop b s) = onState (withStop b) (setCommand p s) :=
  manualCommand_withStop b s p fun d => by simp [writeForSet]

theorem manualCommand_writeForOne_withStop (ch : Channel) (p : Except Rejected Int) :
    manualCommand p (writeForOne ch) (withStop b s) = onState (withStop b) (manualCommand p (writeForOne ch) s) :=
  manualCommand_withStop b s p fun d => by simp [writeForOne]

@[simp] theorem set1Command_withStop (p : Except Rejected Int) :
    set1Command p (withStop b s) = onState (withStop b) (set1Command p s) :=
  manualCommand_writeForOne_withStop b s .one p

@[simp] theorem set2Command_withStop (p : Except Rejected Int) :
    set2Command p (withStop b s) = onState (withStop b) (set2Command p s) :=
  manualCommand_writeForOne_withStop b s .two p

@[simp] theorem dumpCommand_withStop : dumpCommand (withStop b s) = onState (withStop b) (dumpCommand s) := by
  simp [dumpCommand]

/-! ## Instructions -/

/-- Every operation does the same whatever the flag, and carries it along (rule R250). -/
theorem exec_withStop (i : Instr) : exec i (withStop b s) = onNext (withStop b) (exec i s) := by
  cases i with
  | targetDuty hot last =>
    simp only [exec, execTargetDuty, raise_withStop]
    split <;> rfl
  | rateLimit o last target =>
    simp only [exec, execRateLimit, raise_withStop]
    split <;> rfl
  | set p => exact finish_onState b (setCommand_withStop b s _)
  | set1 p => exact finish_onState b (set1Command_withStop b s _)
  | set2 p => exact finish_onState b (set2Command_withStop b s _)
  | dump => exact finish_onState b (dumpCommand_withStop b s)
  | auto => exact finish_onState b (startLoop_withStop b s)
  | acquire => exact finish_onState b (acquire_withStop b s)
  | ecRead a => exact finish_onState b (ecRead_withStop b s a)
  | ecWrite c a v => exact finish_onState b (ecWrite_withStop b s c a v)
  | cpuTempRead => exact finish_onState b (cpuTempRead_withStop b s)
  | gpuTempEcRead => exact finish_onState b (gpuTempEcRead_withStop b s)
  | fanDutyRead ch => exact finish_onState b (fanDutyRead_withStop b s ch)
  | fanRpmRead ch => exact finish_onState b (fanRpmRead_withStop b s ch)
  | fanDutyWrite ch p => exact finish_onState b (fanDutyWrite_withStop b s ch _)
  | resolveCpu => exact finish_onState b (resolveCpu_withStop b s)
  | resolveGpu => exact finish_onState b (resolveGpu_withStop b s)
  | controlCycle => exact finish_onState b (controlCycle_withStop b s)
  | report => exact finish_onState b (reportAlone_withStop b s)

/-! ## The block's own moves -/

/-- The loop reads the flag at its check points alone (rule R208). -/
theorem loopStep_withStop (h : ¬IsCheckPoint s.loop) :
    loopStep (withStop b s) = onNext (withStop b) (loopStep s) := by
  cases hp : s.loop with
  | top => exact absurd (.inl hp) h
  | preSleep => exact absurd (.inr (.inl hp)) h
  | postSleep => exact absurd (.inr (.inr hp)) h
  | off => simp only [loopStep, withStop_loop, hp]; rfl
  | sleeping => simp only [loopStep, withStop_loop, hp]; rfl
  | exited => simp only [loopStep, withStop_loop, hp]; rfl
  | cycle =>
    simp only [loopStep, withStop_loop, hp, controlCycle_withStop]
    cases controlCycle s <;> rfl

theorem processAcquire_withStop : processAcquire (withStop b s) = onNext (withStop b) (processAcquire s) := by
  simp only [processAcquire, acquire_withStop]
  cases acquire s with
  | halted t => rfl
  | done r t => cases r <;> rfl

theorem processAuto_withStop : processAuto (withStop b s) = onNext (withStop b) (processAuto s) := by
  simp only [processAuto, withStop_loop, startLoop_withStop]
  split
  · rfl
  · cases startLoop s <;> rfl

theorem processRun_withStop (h : HostCommand) :
    processRun h (withStop b s) = onNext (withStop b) (processRun h s) := by
  cases h with
  | set p => exact endCommand_onState b (setCommand_withStop b s p)
  | set1 p => exact endCommand_onState b (set1Command_withStop b s p)
  | set2 p => exact endCommand_onState b (set2Command_withStop b s p)
  | dump => exact endCommand_onState b (dumpCommand_withStop b s)
  | auto => exact processAuto_withStop b s

theorem processStep_withStop (c : Command) : processStep c (withStop b s) = onNext (withStop b) (processStep c s) := by
  cases hp : s.cmd.phase <;> simp only [processStep, withStop_cmd, hp]
  case start => rfl
  case acquiring => exact processAcquire_withStop b s
  case dispatch => cases commandOf c <;> rfl
  case running =>
    cases commandOf c with
    | none => rfl
    | some h => exact processRun_withStop b s h
  case ended => rfl

theorem wordStep_withStop (w : Word) (rest : List Word) :
    wordStep w rest (withStop b s) = onNext (withStop b) (wordStep w rest s) := by
  simp only [wordStep, raise_withStop]
  cases decode w with
  | error e => rfl
  | ok i => exact exec_withStop b { s with invocation := .program rest } i

theorem blockStep_withStop (h : ¬IsCheckPoint s.loop) :
    blockStep (withStop b s) = onNext (withStop b) (blockStep s) := by
  by_cases hl : loopRunning s.loop = true
  · have hl' : loopRunning (withStop b s).loop = true := hl
    rw [blockStep, if_pos hl', blockStep, if_pos hl, loopStep_withStop b s h]
  · have hl' : ¬loopRunning (withStop b s).loop = true := hl
    rw [blockStep, if_neg hl', blockStep, if_neg hl, withStop_invocation]
    cases s.invocation with
    | nothing => rfl
    | process c => exact processStep_withStop b s c
    | program ws =>
      cases ws with
      | nil => rfl
      | cons w rest => exact wordStep_withStop b s w rest

end

/-- Settles O15, by `exec_withStop` and `blockStep_withStop`: the flag is read by no part of an operation, and by the loop
at its check points alone. -/
theorem stopIsReadOnlyAtCheckPoints : Obligations.StopIsReadOnlyAtCheckPoints :=
  ⟨fun i s b => exec_withStop b s i, fun s b htop hpre hpost =>
    blockStep_withStop b s fun h => h.elim htop fun h => h.elim hpre hpost⟩

end Sys2Proof.Machine
end

section
/-! The manual commands, and the phases, the commands and the exit status of `PROCESS` (rules R240 to R250). -/

namespace Sys2Proof.Machine

/-! ## The writes of a manual command -/

theorem bothOk_iff {r1 r2 : Except ErrorKind Unit} : bothOk (r1, r2) = true ↔ r1 = .ok () ∧ r2 = .ok () := by
  cases r1 <;> cases r2 <;> simp [bothOk]

theorem isOk_iff {r : Except ErrorKind Unit} : r.isOk = true ↔ r = .ok () := by
  cases r <;> simp [Except.isOk, Except.toBool]

/-- The writes of `SET` in a ready state (rule R242). -/
theorem writeForSet_run (p : Int) {s : State} (hr : Ready s) (hB : 1 ≤ s.cfg.pollBudget) :
    ∃ ok u writes, ChannelRun s (writeForSet p s) ok u writes ∧ BothWritten s p (s.cmd.failed || !ok) writes := by
  obtain ⟨r1, r2, u, w1, w2, hrun, h1, h2⟩ := writeBoth_run p hr hB
  refine ⟨bothOk (r1, r2), u, w1 ++ w2, hrun.map bothOk, r1, r2, w1, w2, h1, h2, rfl, ?_⟩
  rw [← bothOk_iff]
  simp

/-- The write of `SET1` or `SET2` in a ready state (rules R243, R244). -/
theorem writeForOne_run (ch : Channel) (p : Int) {s : State} (hr : Ready s) (hB : 1 ≤ s.cfg.pollBudget) :
    ∃ ok u writes, ChannelRun s (writeForOne ch p s) ok u writes ∧ OneWritten s ch p (s.cmd.failed || !ok) writes := by
  obtain ⟨r, u, writes, hrun, hev⟩ := fanDutyWrite_run ch p hr hB
  refine ⟨r.isOk, u, writes, hrun.map Except.isOk, r, hev, ?_⟩
  rw [Ne, ← isOk_iff]
  simp

/-! ## A manual command -/

/-- A run carries the command's failure mark along. -/
theorem SensorRun.withFailed {α : Type} {s t : State} {r : Res α} {a : α} {es : List Event} (h : SensorRun s r a t es)
    (failed : Bool) : SensorRun (withFailed failed s) (.done () (withFailed failed t)) () (withFailed failed t) es := by
  obtain ⟨-, htrace, honly, hidle, henv⟩ := h
  refine ⟨rfl, htrace, ?_, hidle, henv⟩
  rw [OnlyObservation] at honly ⊢
  rw [honly]
  rfl

/-- What the writes leave before the report: the failure mark raised if one of them failed. -/
theorem failCommand_of_run {s u : State} {r : Res Bool} {ok : Bool} {writes : List Event}
    (h : ChannelRun s r ok u writes) :
    (if ok then u else failCommand u) = withFailed (s.cmd.failed || !ok) u := by
  have hcmd : u.cmd = s.cmd := ((onlyObservation_iff _ _).1 h.sensor.only).2.2.2.2.2.2.2.2.1
  cases ok with
  | true => simp [withFailed, ← hcmd]
  | false => simp [withFailed, failCommand]

/-- A manual command whose writes ran completes with the report after them (rules R242 to R244). -/
theorem manualCommand_run {s u : State} {n : Int} {write : Int → State → Res Bool} {ok : Bool} {writes : List Event}
    (h : ChannelRun s (write n s) ok u writes) (hr : Ready s) (hB : 1 ≤ s.cfg.pollBudget) (htool : ToolReturns s) :
    ∃ t es, SensorRun (withFailed (s.cmd.failed || !ok) s) (manualCommand (.ok n) write s) (.ok ()) t (writes ++ es) ∧
      StatusEvents s.cfg s.ctl es := by
  have hmark := h.sensor.withFailed (s.cmd.failed || !ok)
  have htool' : ToolReturns (withFailed (s.cmd.failed || !ok) u) := by
    simpa [ToolReturns, withFailed, h.seg.tools] using htool
  obtain ⟨t, es, hreport, hev⟩ := reportAlone_run (hmark.ready hr) (by rw [hmark.cfg]; exact hB) htool'
  have hall := hmark.andThen (k := fun _ v => reportAlone v) hreport
  have hctl : u.ctl = s.ctl := ((onlyObservation_iff _ _).1 h.sensor.only).2.2.2.1
  refine ⟨t, es, ?_, by rw [← hctl, ← h.cfg]; exact hev⟩
  rw [manualCommand, channelFault_none.2 hr]
  simp only [h.eq, andThen_done, reportAfter, failCommand_of_run h]
  exact hall.map fun _ => (.ok () : Except ErrorKind Unit)

/-- A manual command whose writes ran, as an instruction. -/
theorem finish_manualCommand {s u : State} {n : Int} {write : Int → State → Res Bool} {ok : Bool} {writes : List Event}
    (h : ChannelRun s (write n s) ok u writes) (hr : Ready s) (hB : 1 ≤ s.cfg.pollBudget) (htool : ToolReturns s) :
    ∃ t, finish unitResult (manualCommand (.ok n) write s) = .next t ∧
      ReportsAfter (withFailed (s.cmd.failed || !ok) s) writes t := by
  obtain ⟨t, es, hrun, hev⟩ := manualCommand_run h hr hB htool
  obtain ⟨hexec, hobs⟩ := hrun.observes hr.2 unitResult
  exact ⟨_, hexec, es, hev, hobs⟩

/-- A rejected percent ends a manual command before any EC traffic (rule R241). -/
theorem manualCommand_rejected (v : Rejected) (write : Int → State → Res Bool) {s : State} (hr : Ready s) :
    manualCommand (.error v) write s = .done (.error (.invalidInput v)) (failCommand s) := by
  rw [manualCommand, channelFault_none.2 hr]

theorem validPercent_of_le {p : Byte} (h : p.toNat ≤ 100) : validPercent p.toNat = .ok (p.toNat : Int) :=
  if_pos (by omega)

theorem validPercent_of_invalid {n : Int} (h : n < 0 ∨ 100 < n) : validPercent n = .error (.percent n) :=
  if_neg (by omega)

/-- Settles O51: the writes (`writeForSet_run`, `writeForOne_run`), then the report (`finish_manualCommand`). -/
theorem manualCommandsWriteThenReport : Obligations.ManualCommandsWriteThenReport := by
  intro s p hc hr htool hp
  have hB := budget_of_ok hc
  have one (ch : Channel) : ∃ writes failed t,
      finish unitResult (manualCommand (validPercent p.toNat) (writeForOne ch) s) = .next t ∧
        OneWritten s ch p.toNat failed writes ∧ ReportsAfter (withFailed failed s) writes t := by
    obtain ⟨ok, u, writes, hrun, hev⟩ := writeForOne_run ch p.toNat hr hB
    obtain ⟨t, hexec, ht⟩ := finish_manualCommand hrun hr hB htool
    rw [validPercent_of_le hp]
    exact ⟨writes, _, t, hexec, hev, ht⟩
  refine ⟨?_, one .one, one .two⟩
  obtain ⟨ok, u, writes, hrun, hev⟩ := writeForSet_run p.toNat hr hB
  obtain ⟨t, hexec, ht⟩ := finish_manualCommand hrun hr hB htool
  rw [← validPercent_of_le hp] at hexec
  exact ⟨writes, _, t, hexec, hev, ht⟩

/-! ## A step of `PROCESS` -/

/-- What runs next is the process's phase, with the interrupt source's move after it. -/
theorem step_process {s : State} {c : Command} (h : InProcess s c) : step s = withInterrupt (processStep c s) := by
  obtain ⟨he, hl, hi⟩ := h
  rw [step_enabled he, blockStep, if_neg (by rw [hl]; exact Bool.false_ne_true), hi]

theorem processStep_running {s : State} {c : Command} {h : HostCommand} (hp : s.cmd.phase = .running)
    (hc : commandOf c = some h) : processStep c s = processRun h s := by
  simp only [processStep, hp, hc]

/-- The end of a command that completed (rule R247). -/
theorem endCommand_done (r : Except ErrorKind Unit) (t : State) :
    endCommand (.done r t) = .next { t with cmd := ⟨.ended, t.cmd.failed⟩,
                                            exit := some (if t.cmd.failed then t.cfg.exitFail.val else 0),
                                            ret := some (unitResult r) } := rfl

/-! ## The five command words (rule R80) -/

theorem commandOfText_set (arg : Option Text) : commandOfText "set".toList arg = some (.set (argPercent arg)) := rfl
theorem commandOfText_set1 (arg : Option Text) : commandOfText "set1".toList arg = some (.set1 (argPercent arg)) := rfl
theorem commandOfText_set2 (arg : Option Text) : commandOfText "set2".toList arg = some (.set2 (argPercent arg)) := rfl
theorem commandOfText_dump (arg : Option Text) : commandOfText "dump".toList arg = some .dump := rfl
theorem commandOfText_auto (arg : Option Text) : commandOfText "auto".toList arg = some .auto := rfl

/-- Any other word is unknown (rule R240). -/
theorem commandOfText_unknown {word : Text} (arg : Option Text) (h1 : word ≠ "set".toList) (h2 : word ≠ "set1".toList)
    (h3 : word ≠ "set2".toList) (h4 : word ≠ "dump".toList) (h5 : word ≠ "auto".toList) :
    commandOfText word arg = none :=
  (if_neg h1).trans ((if_neg h2).trans ((if_neg h3).trans ((if_neg h4).trans (if_neg h5))))

/-- The model knows the commands of rules R75 and R80, and no other (rule R240). -/
theorem isHostCommand_iff {c : Command} : IsHostCommand c ↔ ∃ h, commandOf c = some h := by
  cases c with
  | text word arg =>
    simp only [IsHostCommand, commandOf, List.mem_cons, List.not_mem_nil, or_false, String.ofList_eq]
    constructor
    · rintro (rfl | rfl | rfl | rfl | rfl)
      · exact ⟨_, commandOfText_set arg⟩
      · exact ⟨_, commandOfText_set1 arg⟩
      · exact ⟨_, commandOfText_set2 arg⟩
      · exact ⟨_, commandOfText_dump arg⟩
      · exact ⟨_, commandOfText_auto arg⟩
    · rintro ⟨h, hc⟩
      by_contra hne
      simp only [not_or] at hne
      obtain ⟨h1, h2, h3, h4, h5⟩ := hne
      rw [commandOfText_unknown arg h1 h2 h3 h4 h5] at hc
      cases hc
  | encoded i => cases i <;> simp [IsHostCommand, commandOf, commandOfInstr, encode]

/-! ## Rejected percents -/

theorem argPercent_of_invalid {arg : Option Text} (h : ∀ n, arg.bind parseDecimal = some n → n < 0 ∨ 100 < n) :
    ∃ v, argPercent arg = .error v := by
  cases hp : arg.bind parseDecimal with
  | none => exact ⟨.argument arg, by rw [argPercent, hp]⟩
  | some n => exact ⟨.percent n, by simp only [argPercent, hp, validPercent_of_invalid (h n hp)]⟩

/-- A command with a rejected argument, run by `PROCESS`, fails and ends the process (rules R240, R241, R247). -/
theorem step_rejected {s : State} {c : Command} {h : HostCommand} {v : Rejected} {write : Int → State → Res Bool}
    (hin : InProcess s c) (hp : s.cmd.phase = .running) (hr : Ready s) (hc : commandOf c = some h)
    (hrun : processRun h s = endCommand (manualCommand (.error v) write s)) :
    step s = withInterrupt (.next { s with cmd := ⟨.ended, true⟩, exit := some s.cfg.exitFail.val,
                                           ret := some (.err (.invalidInput v)) }) := by
  rw [step_process hin, processStep_running hp hc, hrun, manualCommand_rejected v write hr, endCommand_done]
  rfl

/-- Settles O52: a rejected percent ends each command before its writes (`manualCommand_rejected`), encoded or as text. -/
theorem invalidPercentIsRejected : Obligations.InvalidPercentIsRejected := by
  constructor
  · intro s p hr hp i hi
    have hv : validPercent p.toNat = .error (.percent p.toNat) := validPercent_of_invalid (.inr (by exact_mod_cast hp))
    have rejected (write : Int → State → Res Bool) :
        finish unitResult (manualCommand (validPercent p.toNat) write s) =
          .next { s with cmd := ⟨s.cmd.phase, true⟩, ret := some (.err (.invalidInput (.percent p.toNat))) } := by
      rw [hv, manualCommand_rejected _ write hr]
      rfl
    simp only [List.mem_cons, List.not_mem_nil, or_false] at hi
    obtain rfl | rfl | rfl := hi
    · exact rejected writeForSet
    · exact rejected (writeForOne .one)
    · exact rejected (writeForOne .two)
  · intro s word arg hin hp hr hword harg
    obtain ⟨v, hv⟩ := argPercent_of_invalid harg
    refine ⟨v, ?_⟩
    simp only [List.mem_cons, List.not_mem_nil, or_false, String.ofList_eq] at hword
    obtain rfl | rfl | rfl := hword
    · exact step_rejected hin hp hr (commandOfText_set arg) (write := writeForSet) (by rw [hv]; rfl)
    · exact step_rejected hin hp hr (commandOfText_set1 arg) (write := writeForOne .one) (by rw [hv]; rfl)
    · exact step_rejected hin hp hr (commandOfText_set2 arg) (write := writeForOne .two) (by rw [hv]; rfl)

/-! ## The phases -/

/-- `ACQUIRING` runs `ACQUIRE` and goes on with the session granted, or ends the process (rules R100, R240). -/
theorem processAcquire_next {s : State} (h : s.acquireCount = 0) :
    ∃ (granted : Bool) (u : State), exec .acquire s = .next u ∧ (u.session = .held ↔ granted = true) ∧
      processAcquire s = .next
        (if granted then { u with cmd := ⟨.dispatch, s.cmd.failed⟩ }
         else { u with cmd := ⟨.ended, s.cmd.failed⟩, exit := some s.cfg.exitFail.val }) := by
  rcases acquire_after s with ⟨h1, -⟩ | ⟨-, granted, r, hacq, -, rfl⟩
  · omega
  · refine ⟨granted, _, by rw [exec, execAcquire, hacq, finish_eq, returned_done], ?_, ?_⟩
    · cases granted <;> simp
    · rw [processAcquire, hacq]
      cases granted <;> rfl

/-- Settles O53: the phases one by one; the known commands are the model's (`isHostCommand_iff`). -/
theorem processFollowsItsPhases : Obligations.ProcessFollowsItsPhases := by
  intro s c hin
  rw [step_process hin]
  refine ⟨fun hp => ?_, fun hp h0 => ?_, fun hp hcmd => ?_, fun hp hcmd => ?_, fun hp => ?_⟩
  · simp only [processStep, hp]
    rfl
  · obtain ⟨granted, u, hexec, hheld, hnext⟩ := processAcquire_next h0
    exact ⟨granted, u, hexec, hheld, by simp only [processStep, hp, hnext]⟩
  · obtain ⟨h, hc⟩ := isHostCommand_iff.1 hcmd
    simp only [processStep, hp, hc]
    rfl
  · have hc : commandOf c = none := Option.eq_none_iff_forall_ne_some.2 fun h hc => hcmd (isHostCommand_iff.2 ⟨h, hc⟩)
    simp only [processStep, hp, hc]
    rfl
  · simp only [processStep, hp]
    rfl

/-! ## The end of a command -/

/-- A manual command in a ready state completes, whatever its percent. -/
theorem manualCommand_completes {s : State} {write : Int → State → Res Bool} (p : Except Rejected Int) (hr : Ready s)
    (hB : 1 ≤ s.cfg.pollBudget) (htool : ToolReturns s) (hw : ∀ n, ∃ ok u writes, ChannelRun s (write n s) ok u writes) :
    ∃ r t, manualCommand p write s = .done r t ∧ t.cfg = s.cfg := by
  cases p with
  | error v => exact ⟨_, _, manualCommand_rejected v write hr, rfl⟩
  | ok n =>
    obtain ⟨ok, u, writes, h⟩ := hw n
    obtain ⟨t, es, hrun, -⟩ := manualCommand_run h hr hB htool
    exact ⟨_, t, hrun.eq, hrun.cfg⟩

/-- The manual commands and `DUMP`, each by the rule of its operation. -/
inductive CommandRule (s : State) : Instr → Res (Except ErrorKind Unit) → Prop where
  | set (p : Byte) : CommandRule s (.set p) (setCommand (validPercent p.toNat) s)
  | set1 (p : Byte) : CommandRule s (.set1 p) (set1Command (validPercent p.toNat) s)
  | set2 (p : Byte) : CommandRule s (.set2 p) (set2Command (validPercent p.toNat) s)
  | dump : CommandRule s .dump (dumpCommand s)

theorem CommandRule.exec {s : State} {i : Instr} {r : Res (Except ErrorKind Unit)} (h : CommandRule s i r) :
    exec i s = finish unitResult r := by
  cases h <;> rfl

theorem CommandRule.processRun {s : State} {i : Instr} {r : Res (Except ErrorKind Unit)} (h : CommandRule s i r) :
    ∃ c, commandOfInstr i = some c ∧ processRun c s = endCommand r := by
  cases h <;> exact ⟨_, rfl, rfl⟩

theorem CommandRule.completes {s : State} {i : Instr} {r : Res (Except ErrorKind Unit)} (h : CommandRule s i r)
    (hr : Ready s) (hB : 1 ≤ s.cfg.pollBudget) (htool : ToolReturns s) : ∃ a t, r = .done a t ∧ t.cfg = s.cfg := by
  have one (ch : Channel) (n : Int) : ∃ ok u writes, ChannelRun s (writeForOne ch n s) ok u writes := by
    obtain ⟨ok, u, writes, hrun, -⟩ := writeForOne_run ch n hr hB
    exact ⟨ok, u, writes, hrun⟩
  cases h with
  | set p =>
    refine manualCommand_completes _ hr hB htool fun n => ?_
    obtain ⟨ok, u, writes, hrun, -⟩ := writeForSet_run n hr hB
    exact ⟨ok, u, writes, hrun⟩
  | set1 p => exact manualCommand_completes _ hr hB htool (one .one)
  | set2 p => exact manualCommand_completes _ hr hB htool (one .two)
  | dump =>
    obtain ⟨t, es, hrun, -⟩ := reportAlone_run hr hB htool
    have hdump : SensorRun s (dumpCommand s) (.ok ()) t es := hrun.map _
    exact ⟨_, t, hdump.eq, hdump.cfg⟩

/-- `PROCESS` runs a manual command or `DUMP` as its operation and ends with the status of its failure mark (rules R240,
R247). -/
theorem step_endsCommand {s : State} {c : Command} {i : Instr} {r : Res (Except ErrorKind Unit)} (hin : InProcess s c)
    (hp : s.cmd.phase = .running) (hr : Ready s) (htool : ToolReturns s) (hrule : CommandRule s i r)
    (hc : commandOf c = commandOfInstr i) :
    ∃ u, exec i s = .next u ∧
      step s = withInterrupt (.next { u with cmd := ⟨.ended, u.cmd.failed⟩,
                                             exit := some (if u.cmd.failed then s.cfg.exitFail.val else 0) }) := by
  obtain ⟨⟨-, -, hok⟩, -⟩ := id hin
  obtain ⟨h, hi, hrun⟩ := hrule.processRun
  obtain ⟨a, t, rfl, hcfg⟩ := hrule.completes hr (budget_of_ok hok) htool
  refine ⟨_, hrule.exec, ?_⟩
  rw [step_process hin, processStep_running hp (hc.trans hi), hrun, endCommand_done, ← hcfg]
  rfl

/-- `AUTO` run by `PROCESS` in a ready state: the start of the loop, or the end of the process after its exit (rules R207,
R246). -/
theorem processAuto_ready {s : State} (hr : Ready s) :
    (s.loop = .off → processAuto s = .next { s with ctl := some (s.cfg.initLast.val : Int), loop := .top }) ∧
      (s.loop = .exited → processAuto s = .next (endProcess (exitStatus s) s)) := by
  refine ⟨fun hl => ?_, fun hl => if_pos hl⟩
  have hne : s.loop ≠ .exited := by simp [hl]
  rcases startLoop_after s with ⟨f, hf, -⟩ | ⟨-, he, -⟩ | ⟨-, -, h⟩
  · exact absurd hr (channelFault_some hf).2
  · exact absurd he hne
  · rw [processAuto, if_neg hne, h]

/-- A text percent that is a byte's value is validated as that byte (rules R241, R249). -/
theorem argPercent_of_byte {arg : Option Text} {p : Byte} (h : arg.bind parseDecimal = some (p.toNat : Int)) :
    argPercent arg = validPercent p.toNat := by
  rw [argPercent, h]

/-- Settles O54: a command means its operation (`CommandRule`), `auto` the loop (`processAuto_ready`). -/
theorem processEndsWithItsExitStatus : Obligations.ProcessEndsWithItsExitStatus := by
  intro s c hin hp hr htool ends
  have ends_of {i : Instr} {r : Res (Except ErrorKind Unit)} (hrule : CommandRule s i r)
      (hc : commandOf c = commandOfInstr i) : ends i := step_endsCommand hin hp hr htool hrule hc
  refine ⟨?_, ?_, fun arg p harg => ⟨?_, ?_, ?_⟩, fun hauto => ?_⟩
  · rintro i rfl (rfl | ⟨p, rfl | rfl | rfl⟩)
    · exact ends_of .dump rfl
    · exact ends_of (.set p) rfl
    · exact ends_of (.set1 p) rfl
    · exact ends_of (.set2 p) rfl
  · rintro arg rfl
    exact ends_of .dump (commandOfText_dump arg)
  · rintro rfl
    exact ends_of (.set p) (by rw [commandOf, commandOfText_set, argPercent_of_byte harg]; rfl)
  · rintro rfl
    exact ends_of (.set1 p) (by rw [commandOf, commandOfText_set1, argPercent_of_byte harg]; rfl)
  · rintro rfl
    exact ends_of (.set2 p) (by rw [commandOf, commandOfText_set2, argPercent_of_byte harg]; rfl)
  · have hc : commandOf c = some .auto := by
      rcases hauto with rfl | ⟨arg, rfl⟩
      · rfl
      · exact commandOfText_auto arg
    obtain ⟨hstart, hexit⟩ := processAuto_ready hr
    rw [step_process hin, processStep_running hp hc, processRun]
    exact ⟨fun hl => by rw [hstart hl], fun hl => by rw [hexit hl]; rfl⟩

end Sys2Proof.Machine
end

section
/-! The host commands reach no model fault (rules R103, R240, R275): what a move of the loop or of `PROCESS` does to the fault
mark, the session and the process's phase. -/

namespace Sys2Proof.Machine

/-- A move that raises no fault and leaves the session, the process's phase and what the host user started. -/
structure Faultless (s t : State) : Prop where
  fault : t.fault = s.fault
  session : t.session = s.session
  phase : t.cmd.phase = s.cmd.phase
  invocation : t.invocation = s.invocation

/-- Once the loop has left `OFF` the invariant speaks of these fields alone. -/
theorem Faultless.processInv {s t : State} (h : Faultless s t) (hi : ProcessInv s) (hl : s.loop ≠ .off) : ProcessInv t := by
  obtain ⟨hf, ⟨-, -, hoff⟩ | hrest⟩ := hi
  · exact absurd hoff hl
  · rw [← h.phase, ← h.session] at hrest
    exact ⟨h.fault.trans hf, .inr hrest⟩

/-- In a ready state an operation raises no fault, whether it completes or has stopped in the tool. -/
theorem CalmOp.faultless {α : Type} {n : Nat} {s : State} {r : Res α} (h : CalmOp n s r) (hr : Ready s)
    (hp : r.after.cmd.phase = s.cmd.phase) : Faultless s r.after := by
  obtain ⟨es, hc⟩ := h.calm
  obtain ⟨hs, -, -, -, -, hinv, -⟩ := hc.fields
  exact ⟨h.ready hr, hs, hp, hinv⟩

/-! ## The loop -/

theorem checkPoint_faultless (s : State) (p : LoopPhase) :
    Faultless s (if s.stop then exitLoop s else { s with loop := p }) := by
  split <;> exact ⟨rfl, rfl, rfl, rfl⟩

theorem loopStep_faultless {s t : State} {last : Int} (hB : 1 ≤ s.cfg.pollBudget) (hr : Ready s)
    (hctl : s.ctl = some last) (h : loopStep s = .next t) : Faultless s t := by
  cases hp : s.loop with
  | off => rw [loopStep, hp] at h; cases h; exact ⟨rfl, rfl, rfl, rfl⟩
  | exited => rw [loopStep, hp] at h; cases h; exact ⟨rfl, rfl, rfl, rfl⟩
  | top => cases (loopStep_top hp).symm.trans h; exact checkPoint_faultless s _
  | preSleep => cases (loopStep_preSleep hp).symm.trans h; exact checkPoint_faultless s _
  | postSleep => cases (loopStep_postSleep hp).symm.trans h; exact checkPoint_faultless s _
  | sleeping => cases (loopStep_sleeping hp).symm.trans h; exact ⟨rfl, rfl, rfl, rfl⟩
  | cycle =>
    have hcycle := (controlCycle_calmOp hctl hB).faultless hr (by rw [controlCycle_cmd s hB])
    cases hrun : controlCycle s with
    | done _ u =>
      rw [hrun] at hcycle
      cases (loopStep_cycle_done hp hrun).symm.trans h
      exact ⟨hcycle.fault, hcycle.session, hcycle.phase, hcycle.invocation⟩
    | halted u =>
      rw [hrun] at hcycle
      cases (loopStep_cycle_halted hp hrun).symm.trans h
      exact hcycle

/-! ## The phases of `PROCESS` -/

/-- `ACQUIRING` is the process's first `ACQUIRE`: the session is granted, or the process ends (rules R100, R240). -/
theorem processAcquire_processInv {s t : State} (h0 : s.acquireCount = 0) (hf : s.fault = none)
    (h : processAcquire s = .next t) : ProcessInv t ∧ t.invocation = s.invocation := by
  rcases acquire_after s with ⟨h1, -⟩ | ⟨-, granted, r, hacq, -, rfl⟩
  · omega
  · rw [processAcquire, hacq] at h
    cases granted with
    | true => cases h; exact ⟨⟨hf, .inr (.inl ⟨.inl rfl, rfl⟩)⟩, rfl⟩
    | false => cases h; exact ⟨⟨hf, .inr (.inr rfl)⟩, rfl⟩

theorem unknownCommand_processInv (c : Command) {s : State} (hf : s.fault = none) : ProcessInv (unknownCommand c s) :=
  ⟨hf, .inr (.inr rfl)⟩

section
variable {s t : State} (hr : Ready s) (hf : s.fault = none) (hp : s.cmd.phase = .running)
include hr hf hp

/-- A command that completes ends the process; one that has stopped in the tool leaves it `RUNNING` in its session. -/
theorem endCommand_processInv {n : Nat} {r : Res (Except ErrorKind Unit)} (hop : CalmOp n s r) (hput : StaysPut s r)
    (h : endCommand r = .next t) : ProcessInv t ∧ t.invocation = s.invocation := by
  have hmove := hop.faultless hr hput.1.phase
  cases r with
  | done a u => cases h; exact ⟨⟨hmove.fault.trans hf, .inr (.inr rfl)⟩, hmove.invocation⟩
  | halted u =>
    cases h
    exact ⟨⟨hmove.fault.trans hf, .inr (.inl ⟨.inr (hmove.phase.trans hp), hmove.session.trans hr.1⟩)⟩, hmove.invocation⟩

/-- `AUTO` starts the loop in the held session, or ends the process after the loop's exit (rules R207, R246). -/
theorem processAuto_processInv (h : processAuto s = .next t) : ProcessInv t ∧ t.invocation = s.invocation := by
  rcases startLoop_after s with ⟨f, hfault, -⟩ | ⟨-, hl, -⟩ | ⟨-, hl, hstart⟩
  · exact absurd hr (channelFault_some hfault).2
  · rw [processAuto, if_pos hl] at h
    cases h
    exact ⟨⟨hf, .inr (.inr rfl)⟩, rfl⟩
  · rw [processAuto, if_neg hl, hstart] at h
    cases h
    exact ⟨⟨hf, .inr (.inl ⟨.inr hp, hr.1⟩)⟩, rfl⟩

theorem processRun_processInv {c : HostCommand} (hB : 1 ≤ s.cfg.pollBudget) (h : processRun c s = .next t) :
    ProcessInv t ∧ t.invocation = s.invocation := by
  cases c with
  | set p => exact endCommand_processInv hr hf hp (setCommand_calmOp p s hB) (setCommand_staysPut p s hB) h
  | set1 p => exact endCommand_processInv hr hf hp (set1Command_calmOp p s hB) (set1Command_staysPut p s hB) h
  | set2 p => exact endCommand_processInv hr hf hp (set2Command_calmOp p s hB) (set2Command_staysPut p s hB) h
  | dump => exact endCommand_processInv hr hf hp (dumpCommand_opSpec s hB).calmOp (dumpCommand_opSpec s hB).staysPut h
  | auto => exact processAuto_processInv hr hf hp h

end

/-- The session a process has before `DISPATCH`, and from there to its end (rule R240). -/
theorem ProcessInv.session {s : State} (hi : ProcessInv s) :
    (s.cmd.phase = .start ∨ s.cmd.phase = .acquiring → s.session = .none ∧ s.loop = .off) ∧
      (s.cmd.phase = .dispatch ∨ s.cmd.phase = .running → s.session = .held) := by
  obtain ⟨-, ⟨hp, hs, hl⟩ | ⟨hp, hs⟩ | hp⟩ := hi
  · exact ⟨fun _ => ⟨hs, hl⟩, by rcases hp with hp | hp <;> simp [hp]⟩
  · exact ⟨by rcases hp with hp | hp <;> simp [hp], fun _ => hs⟩
  · simp [hp]

theorem processStep_processInv {c : Command} {s t : State} (hB : 1 ≤ s.cfg.pollBudget) (hstep : StepInv s)
    (hi : ProcessInv s) (h : processStep c s = .next t) : ProcessInv t ∧ t.invocation = s.invocation := by
  have hf : s.fault = none := hi.1
  obtain ⟨hbefore, hheld⟩ := hi.session
  rw [processStep] at h
  cases hp : s.cmd.phase <;> simp only [hp] at h
  case start =>
    cases h
    exact ⟨⟨hf, .inl ⟨.inr rfl, hbefore (.inl hp)⟩⟩, rfl⟩
  case acquiring =>
    obtain ⟨hnone, -⟩ := hbefore (.inr hp)
    rcases hstep.session with ⟨-, h0⟩ | ⟨hdecided, -⟩
    · exact processAcquire_processInv h0 hf h
    · exact absurd hnone hdecided
  case dispatch =>
    cases hc : commandOf c <;> rw [hc] at h <;> cases h
    case none => exact ⟨unknownCommand_processInv c hf, rfl⟩
    case some => exact ⟨⟨hf, .inr (.inl ⟨.inr rfl, hheld (.inl hp)⟩)⟩, rfl⟩
  case running =>
    cases hc : commandOf c <;> rw [hc] at h
    case none => cases h; exact ⟨unknownCommand_processInv c hf, rfl⟩
    case some => exact processRun_processInv ⟨hheld (.inr hp), hstep.channelIdle.1⟩ hf hp hB h
  case ended => cases h

/-- Settles O55: a step is a move of the loop in its held session (`loopStep_faultless`) or a phase of `PROCESS`
(`processStep_processInv`), and the interrupt source's move after it touches nothing the invariant speaks of. -/
theorem hostCommandsNeverFault : Obligations.HostCommandsNeverFault := by
  refine ⟨fun c e cmd => ⟨rfl, .inl ⟨.inl rfl, rfl, rfl⟩⟩, fun s t c hinv hc hstep hi h => ?_⟩
  have hB := budget_of_ok hc
  obtain ⟨-, -, ⟨hbad, -⟩ | ⟨-, u, hu, rfl⟩⟩ := step_next h
  · rw [hc] at hbad
    cases hbad
  · have hmove : ProcessInv u ∧ u.invocation = s.invocation := by
      rw [blockStep] at hu
      split at hu
      case isTrue hl =>
        obtain ⟨last, hctl⟩ := hstep.last hl
        have hrun := loopStep_faultless hB (hstep.ready hl) hctl hu
        exact ⟨hrun.processInv hi (fun hoff => by rw [hoff] at hl; cases hl), hrun.invocation⟩
      case isFalse =>
        rw [hinv] at hu
        exact processStep_processInv hB hstep hi hu
    obtain ⟨⟨hf, hphase⟩, hinv'⟩ := hmove
    exact ⟨⟨(interrupt_fault u).trans hf, hphase⟩, hinv'.trans hinv⟩

end Sys2Proof.Machine
end

section
/-! The reference EC of rule R291 keeps the promises of rule R285 along every run, and its registers through every operation
that stores nothing. -/

namespace Sys2Proof.Machine

/-- Settles O27, by `exec_leaves`. -/
theorem readsLeaveTheRegisterFile : Obligations.ReadsLeaveTheRegisterFile := by
  intro i s t r hc hi hr h
  rw [exec_eq_next] at h
  subst h
  obtain ⟨r', hr', hmove⟩ := exec_leaves s hc hi r hr
  exact ⟨r', hr', hmove.same rfl, hmove.busy⟩

/-- A completed set-duty write of a channel stores its byte in the channel's duty register. -/
theorem cellRead_stored_duty {c : Config} (hcmd : c.cmdSetDuty ≠ c.cmdRead) (ch : Channel) (raw : Byte)
    {m : List Host.Cell} (hm : Memory.wf m = true) :
    cellRead (storedRegs c c.cmdSetDuty (forChannel c.subAddr ch) raw m) (forChannel c.regDuty ch).toNat = raw := by
  rw [cellRead_stored _ _ _ _ hm]
  cases ch <;> simp [forChannel, hcmd]

/-- A write that is no set-duty write of a channel leaves the channel's duty register: the other channel's names it only
where the two share their sub-address, and then it is one. -/
theorem cellRead_stored_other {c : Config} {ch : Channel} {cmd addr : Byte} (value : Byte) {m : List Host.Cell}
    (hshare : c.regDuty.one = c.regDuty.two → c.subAddr.one = c.subAddr.two)
    (hother : ¬(cmd = c.cmdSetDuty ∧ addr = forChannel c.subAddr ch)) (hm : Memory.wf m = true) :
    cellRead (storedRegs c cmd addr value m) (forChannel c.regDuty ch).toNat =
      cellRead m (forChannel c.regDuty ch).toNat := by
  rw [cellRead_stored _ _ _ _ hm, if_neg]
  rintro ⟨hcmd, -, hnamed⟩
  refine hother ⟨hcmd, ?_⟩
  cases ch with
  | one =>
    rcases hnamed with ⟨hsub, -⟩ | ⟨hsub, hreg⟩
    · exact hsub.symm
    · exact hsub.symm.trans (hshare (BitVec.eq_of_toNat_eq hreg).symm).symm
  | two =>
    rcases hnamed with ⟨hsub, hreg⟩ | ⟨hsub, -⟩
    · exact hsub.symm.trans (hshare (BitVec.eq_of_toNat_eq hreg))
    · exact hsub.symm

section
variable {s : State} {r : RefEc} (hc : configOk s.cfg = true) (hr : s.env.ec = .reference r) (hb : r.busy = false)
  (hw : Memory.wf r.regs = true)
include hc hr hb hw

/-- At every later state the reference EC stands as it did: not busy, its registers canonical. -/
theorem ecLater_reference {t : State} (h : EcLater s t) :
    t.cfg = s.cfg ∧ ∃ r', t.env.ec = .reference r' ∧ r'.busy = false ∧ Memory.wf r'.regs = true := by
  obtain ⟨hcfg, r', hr', hb', hw', -⟩ :=
    EcRun.reference (fun _ => True) hc hr hb hw trivial (fun _ _ _ _ _ _ _ => trivial) h
  exact ⟨hcfg, r', hr', hb', hw'⟩

theorem reference_responsive : EcResponsive s := by
  intro t ht
  obtain ⟨hcfg, r', hr', hb', -⟩ := ecLater_reference hc hr hb hw ht
  rw [← hcfg] at hc
  refine ⟨fun addr v late u h => ?_, fun cmd addr value x u h => ?_⟩
  · obtain ⟨-, hx, -⟩ := ecRead_done_ref hc hr' hb' h
    exact congrArg Prod.snd hx
  · obtain ⟨-, hx, -⟩ := ecWrite_done_ref hc hr' hb' h
    exact hx

theorem reference_readTrue : EcReadTrue refHolds s := by
  intro t ht addr v u h
  obtain ⟨hcfg, r', hr', hb', -⟩ := ecLater_reference hc hr hb hw ht
  rw [← hcfg] at hc
  obtain ⟨-, hx, -⟩ := ecRead_done_ref hc hr' hb' h
  rw [refHolds, hr']
  exact congrArg Prod.fst hx

theorem reference_dutyEcho (hcmd : s.cfg.cmdSetDuty ≠ s.cfg.cmdRead)
    (hshare : s.cfg.regDuty.one = s.cfg.regDuty.two → s.cfg.subAddr.one = s.cfg.subAddr.two) : EcDutyEcho s := by
  intro t ht ch raw u hwrite v hrun b late w hread
  obtain ⟨hct, r1, hr1, hb1, hw1⟩ := ecLater_reference hc hr hb hw ht
  rw [← hct] at hc hcmd hshare
  obtain ⟨hcu, -, r2, hr2, hregs2, hb2⟩ := ecWrite_done_ref hc hr1 hb1 hwrite
  have hw2 : Memory.wf r2.regs = true := hregs2 ▸ storedRegs_wf _ _ _ _ hw1
  have hstored : cellRead r2.regs (forChannel u.cfg.regDuty ch).toNat = raw := by
    rw [hregs2, hcu]
    exact cellRead_stored_duty hcmd ch raw hw1
  rw [← hcu] at hc hshare
  obtain ⟨hcv, r3, hr3, hb3, -, hkept⟩ :=
    EcRun.reference (fun m => cellRead m (forChannel u.cfg.regDuty ch).toNat = raw) hc hr2 hb2 hw2 hstored
      (fun _ _ value _ hother hm hP => (cellRead_stored_other value hshare hother hm).trans hP) hrun
  obtain ⟨-, hx, -⟩ := ecRead_done_ref (by rw [hcv, hc]) hr3 hb3 hread
  rw [hcv] at hx
  exact (congrArg Prod.fst hx).trans hkept

end

/-- Settles O26: an EC that is not busy stays so along a run (`EcRun.reference`), where its transactions complete in time,
and only a set-duty write of a channel changes the channel's duty register (`cellRead_stored_other`). -/
theorem referenceEcIsWellBehaved : Obligations.ReferenceEcIsWellBehaved := fun _ _ hc hr hb hw =>
  ⟨reference_responsive hc hr hb hw, reference_readTrue hc hr hb hw, reference_dutyEcho hc hr hb hw⟩

end Sys2Proof.Machine
end

section
/-! `RESOLVE_GPU` without a session, and the operations that run the vendor tool when it never returns (rules R172, R176, R282,
R285). -/

namespace Sys2Proof.Machine

/-! ## `RESOLVE_GPU` up to its EC stage -/

theorem ScanEvents.noPort {c : Config} {entries : List Nat} {es : List Event} (h : ScanEvents c entries es) :
    ∀ e ∈ es, isPortEvent e = false := by
  induction h with
  | nil => simp
  | cons entry name temps entries es _ _ ih =>
    intro e he
    rcases List.mem_append.1 he with he | he
    · rcases List.mem_cons.1 he with rfl | he
      · rfl
      · obtain ⟨k, hk, rfl⟩ := List.mem_mapIdx.1 he
        rfl
    · exact ih e he

theorem ToolEvents.noPort {c : Config} {v : Option Int} {run : List Event} (h : ToolEvents c v run) :
    ∀ e ∈ run, isPortEvent e = false := by
  cases h <;> simp [isPortEvent]

/-- The sysfs and tool stages read no port (rules R173, R176). -/
theorem stages_noPort {c : Config} {entries : List Nat} {scan run : List Event} {v : Option Int}
    (hscan : ScanEvents c entries scan) (hrun : ToolEvents c v run) :
    ∀ e ∈ .sysfsList entries :: scan ++ run, isPortEvent e = false := by
  intro e he
  rcases List.mem_append.1 he with he | he
  · rcases List.mem_cons.1 he with rfl | he
    · rfl
    · exact hscan.noPort e he
  · exact hrun.noPort e he

/-- A reading that is not the EC's comes without a port event (rule R172). -/
theorem GpuEvents.noPort {c : Config} {r : Reading} {es : List Event} (h : GpuEvents c r es)
    (hr : r.source ≠ .ecFallback) : ∀ e ∈ es, isPortEvent e = false := by
  cases h with
  | sysfs entries scan v hscan _ =>
    intro e he
    rcases List.mem_cons.1 he with rfl | he
    · rfl
    · exact hscan.noPort e he
  | tool entries scan run v hscan _ hrun => exact stages_noPort hscan hrun
  | ec => exact absurd rfl hr

/-- `RESOLVE_GPU` with a tool that returns, ready or not: sysfs or the tool answers, or the EC stage is to come. -/
theorem resolveGpu_stages {s : State} (htool : ToolReturns s) :
    (∃ r t es, SensorRun s (resolveGpu s) r t es ∧ GpuEvents s.cfg r es ∧ r.source ≠ .ecFallback ∧ t.chan = s.chan) ∨
      ∃ entries scan run t, ScanEvents s.cfg entries scan ∧ sysfsValues scan = [] ∧ ToolEvents s.cfg none run ∧
        SensorRun s (.done () t) () t (.sysfsList entries :: scan ++ run) ∧ t.chan = s.chan ∧
        resolveGpu s = ecStage t := by
  obtain ⟨scan, hscan, hf, hv⟩ := sysfsStage_spec s
  rcases hottest_none (sysfsValues scan) with ⟨hnone, hnil⟩ | ⟨v, hsome, hgreatest⟩
  · have hstage : resolveGpu s = andThen (vendorStage (sysfsStage s).2) afterVendor := by
      rw [resolveGpu, hv, hnone]; rfl
    have htool' : ToolReturns (sysfsStage s).2 := by rwa [ToolReturns, hf.tools]
    rcases vendorStage_cases (sysfsStage s).2 with ⟨w, t, run, hvendor, hchan, hrun⟩ | ⟨t, run, -, hhang⟩
    · rw [hf.quiet.cfg] at hrun
      have hboth : SensorRun s (.done () t) () t (.sysfsList (sysfsList s).1 :: scan ++ run) := by
        have h := (hf.run ()).andThen (k := fun _ t => andThen (vendorStage t) fun _ u => .done () u)
          (hvendor.map fun _ => ())
        exact ⟨rfl, h.trace, h.only, h.idle, h.env⟩
      rw [hvendor.eq, andThen_done] at hstage
      cases w with
      | some v =>
        exact .inl ⟨⟨.gpu, v, .vendorTool⟩, t, _, ⟨hstage, hboth.trace, hboth.only, hboth.idle, hboth.env⟩,
          .tool _ _ _ _ hscan hnil hrun, by simp, hchan.trans hf.chan⟩
      | none => exact .inr ⟨_, scan, run, t, hscan, hnil, hrun, hboth, hchan.trans hf.chan, hstage⟩
    · exact absurd htool' hhang.answer
  · have hstage : resolveGpu s = .done ⟨.gpu, v, .driverSysfs⟩ (sysfsStage s).2 := by
      rw [resolveGpu, hv, hsome]; rfl
    exact .inl ⟨_, _, _, hstage ▸ hf.run _, .sysfs _ _ _ hscan hgreatest, by simp, hf.chan⟩

/-- Settles O38: the stages of `resolveGpu_stages` touch no port, and the EC stage after them tests the session. -/
theorem gpuNeedsTheSessionOnlyForTheEc : Obligations.GpuNeedsTheSessionOnlyForTheEc := by
  intro s hs hf htool
  rcases resolveGpu_stages htool with ⟨r, t, es, hrun, hev, hsource, hchan⟩ |
    ⟨entries, scan, run, t, hscan, hnil, htoolrun, hrun, hchan, hec⟩
  · obtain ⟨-, -, -, -, -, -, -, -, -, hfault, -⟩ := (onlyObservation_iff _ _).1 hrun.only
    exact ⟨{ t with ret := some (.reading r) }, es, by rw [exec, execResolveGpu, hrun.eq, finish_eq, returned_done],
      hrun.trace, hev.noPort hsource, hchan, .inl ⟨r, hev, hsource, rfl, hfault.trans hf⟩⟩
  · obtain ⟨-, hsession, -, -, -, -, -, -, -, hfault, -⟩ := (onlyObservation_iff _ _).1 hrun.only
    have hno : channelFault t = some .noSession := channelFault_noSession (by rwa [hsession])
    have hstop : resolveGpu s = faultRes .noSession t := by
      rw [hec, ecStage, gpuTempEcRead_faults hno, andThen_faultRes]
    refine ⟨{ t with fault := some .noSession, ret := none }, _, ?_, hrun.trace, stages_noPort hscan htoolrun, hchan,
      .inr ⟨⟨entries, scan, run, hscan, hnil, htoolrun, rfl⟩, rfl, rfl⟩⟩
    rw [exec, execResolveGpu, hstop, finish_faultRes _ _ (hfault.trans hf)]

/-! ## A tool that never returns -/

/-- An operation that halted returned nothing (log 29). -/
theorem finish_halted {α : Type} {result : α → OpResult} {r : Res α} {t : State} (h : r = .halted t) :
    finish result r = .next { t with ret := none } := by
  rw [h, finish_eq, returned_halted]

theorem SensorRun.refl (s : State) : SensorRun s (.done () s) () s [] :=
  ⟨rfl, (List.append_nil _).symm, rfl, id, rfl⟩

/-- A report that stops after an operation that ran first. -/
theorem ReportStops.after {α : Type} {s u t : State} {r : Res α} {a : α} {es fs : List Event}
    (h : SensorRun s r a u es) (ht : ReportStops u fs t) : ReportStops s (es ++ fs) t := by
  obtain ⟨cpu, e1, hcpu, hstop⟩ := ht
  refine ⟨cpu, e1, h.cfg ▸ hcpu, ?_⟩
  rw [List.append_assoc]
  exact hstop.after h

/-- An operation that ends with the standalone report, whatever the tool does: `before` are the events that led from `s` to
the report's start. -/
theorem finish_report {α : Type} {result : α → OpResult} {a : α} {s u : State} {before : List Event}
    (hok : result a = .ok) (h : SensorRun s (.done () u) () u before) (hr : Ready s) (hB : 1 ≤ s.cfg.pollBudget) :
    ∃ t, finish result (andThen (reportAlone u) fun _ t => .done a t) = .next t ∧
      (ReportsAfter s before t ∨ ReportStops s before t) := by
  rcases reportAlone_cases (h.ready hr) (by rw [h.cfg]; exact hB) with ⟨t, es, hreport, hev⟩ | ⟨t, hhalt, hstop, -⟩
  · have hall := h.andThen (k := fun _ u => andThen (reportAlone u) fun _ t => .done a t) (hreport.map fun _ => a)
    obtain ⟨hexec, hobs⟩ := hall.observes hr.2 result
    obtain ⟨hcfg, -, -, hctl, -⟩ := (onlyObservation_iff _ _).1 h.only
    rw [hcfg, hctl] at hev
    rw [hok] at hexec hobs
    exact ⟨_, hexec, .inl ⟨es, hev, hobs⟩⟩
  · refine ⟨_, finish_halted (by rw [hhalt, andThen_halted]), .inr ?_⟩
    have hafter := hstop.after h
    rwa [List.append_nil] at hafter

theorem execReport_eq (s : State) :
    execReport s = finish (fun _ => .ok) (andThen (reportAlone s) fun _ t => .done () t) := by
  rw [execReport]
  cases reportAlone s <;> rfl

/-- A manual command whose writes ran ends with the report, as an instruction (rules R242 to R244). -/
theorem finish_manualCommand_cases {s u : State} {n : Int} {write : Int → State → Res Bool} {ok : Bool}
    {writes : List Event} (h : ChannelRun s (write n s) ok u writes) (hr : Ready s) (hB : 1 ≤ s.cfg.pollBudget) :
    ∃ t, finish unitResult (manualCommand (.ok n) write s) = .next t ∧
      (ReportsAfter (withFailed (s.cmd.failed || !ok) s) writes t ∨
        ReportStops (withFailed (s.cmd.failed || !ok) s) writes t) := by
  have hreport : manualCommand (.ok n) write s =
      andThen (reportAlone (withFailed (s.cmd.failed || !ok) u)) fun _ t => .done (.ok ()) t := by
    rw [manualCommand, channelFault_none.2 hr]
    simp only [h.eq, andThen_done, reportAfter, failCommand_of_run h]
  rw [hreport]
  exact finish_report rfl (h.sensor.withFailed _) hr hB

/-- Settles O57: the cycle by `controlCycle_cases`, the report and the commands that end with it by `finish_report`. -/
theorem toolThatNeverReturnsStopsTheBlock : Obligations.ToolThatNeverReturnsStopsTheBlock := by
  intro s hc hr
  have hB := budget_of_ok hc
  refine ⟨fun last hl => ?_, fun i hi => ?_, fun p hp => ?_⟩
  · rcases controlCycle_cases hc hr hl with ⟨t, hrun, -, hcycle⟩ | ⟨t, hhalt, hstop, -⟩
    · exact ⟨_, exec_controlCycle_done hrun, .inl hcycle⟩
    · exact ⟨_, finish_halted hhalt, .inr hstop⟩
  · rcases hi with rfl | rfl
    · rw [exec, execReport_eq]
      exact finish_report rfl (.refl s) hr hB
    · exact finish_report (result := unitResult) (a := .ok ()) rfl (.refl s) hr hB
  · have one (ch : Channel) : ∃ writes failed t,
        finish unitResult (manualCommand (validPercent p.toNat) (writeForOne ch) s) = .next t ∧
          OneWritten s ch p.toNat failed writes ∧
          (ReportsAfter (withFailed failed s) writes t ∨ ReportStops (withFailed failed s) writes t) := by
      obtain ⟨ok, u, writes, hrun, hev⟩ := writeForOne_run ch p.toNat hr hB
      obtain ⟨t, hexec, ht⟩ := finish_manualCommand_cases hrun hr hB
      rw [validPercent_of_le hp]
      exact ⟨writes, _, t, hexec, hev, ht⟩
    refine ⟨?_, one .one, one .two⟩
    obtain ⟨ok, u, writes, hrun, hev⟩ := writeForSet_run p.toNat hr hB
    obtain ⟨t, hexec, ht⟩ := finish_manualCommand_cases hrun hr hB
    rw [← validPercent_of_le hp] at hexec
    exact ⟨writes, _, t, hexec, hev, ht⟩

end Sys2Proof.Machine
end

section
/-! The state at process start (rules R41, R310), and that no byte is sent without a wait of its own (rule R315). -/

namespace Sys2Proof.Machine

/-- Settles O6: the model's reset state is a process start, and the fields of `State.boot` and of its `Chan.reset` are the
values of rule R41. -/
theorem resetState : Obligations.ResetState := by
  refine ⟨⟨_, _, _, rfl⟩, fun c e start => ?_⟩
  and_intros <;> rfl

/-- The events between `s` and `t` are those of whole handshakes, in which every byte sent follows its status read. -/
def SendsFollowWaits (s t : State) : Prop :=
  ∃ es, t.trace = s.trace ++ es ∧ HandshakeTrace s.cfg es ∧ ∀ last, sendsAreAwaited s.cfg last es = true

/-- Whole handshakes keep the discipline whatever event came before them (`HandshakeTrace.awaited`). -/
theorem Kept.sendsFollowWaits {s t : State} {es : List Event} (h : Kept s t es) : SendsFollowWaits s t :=
  ⟨es, h.trace, h.handshake, h.handshake.awaited⟩

/-- A move that leaves the trace alone sends nothing. -/
theorem SendsFollowWaits.of_trace_eq {s t : State} (h : t.trace = s.trace) : SendsFollowWaits s t :=
  ⟨[], by rw [h, List.append_nil], .nil, fun _ => rfl⟩

/-- The interrupt source sends nothing. -/
theorem SendsFollowWaits.interrupt {s t : State} (h : SendsFollowWaits s t) : SendsFollowWaits s (interrupt t) := h

/-- Settles O25: an operation and a move of the block run whole handshakes (`Kept.handshake`); the refusal of a bad
configuration and the interrupt source's move emit nothing. -/
theorem everySendFollowsAWait : Obligations.EverySendFollowsAWait := by
  refine ⟨fun s t h => ?_, fun i s t hc h => ?_⟩
  · obtain rfl | ⟨-, u, es, -, hk, rfl⟩ := step_next_keeps h
    · exact SendsFollowWaits.of_trace_eq rfl
    · exact hk.sendsFollowWaits.interrupt
  · obtain ⟨es, hk⟩ := exec_next_keeps hc h
    exact hk.sendsFollowWaits

end Sys2Proof.Machine
end

section
/-! The invariant at process start (rules R41, R310), and what each operation leaves alone (rules R22, R25, R200 to R205,
R242 to R244). -/

namespace Sys2Proof.Machine

/-! ## Process start -/

/-- At process start nothing has run: only the environment's registers are not the block's to reset. -/
theorem boot_stepInv {c : Config} {e : Env} (start : Invocation) (he : ecCellsOk e.ec = true) :
    StepInv (State.boot c e start) where
  channelIdle := ⟨rfl, rfl⟩
  attempts := Nat.zero_le _
  session := .inl ⟨rfl, rfl⟩
  controller := rfl
  loopSession hrunning := nomatch hrunning
  lastRange _ hlast := nomatch hlast
  exitStatus := .inl ⟨rfl, nofun⟩
  registers := he

/-- Settles O7: the reset state is a process start in the environment of which nothing is known, whose EC is lawless. -/
theorem invariantAtReset : Obligations.InvariantAtReset :=
  ⟨boot_stepInv .nothing rfl, fun _ _ start he => boot_stepInv start he⟩

/-! ## The block's state across an operation -/

/-- What operation `i` leaves of the session, the controller and the process. -/
structure Framed (i : Instr) (s t : State) : Prop where
  exit : t.exit = s.exit
  phase : t.cmd.phase = s.cmd.phase
  invocation : t.invocation = s.invocation
  session : i ≠ .acquire → t.session = s.session ∧ t.acquireCount = s.acquireCount ∧ t.env.grants = s.env.grants
  ctl : i ≠ .auto → i ≠ .controlCycle → t.ctl = s.ctl
  loop : i ≠ .auto → t.loop = s.loop
  override : (∀ h l, i ≠ .targetDuty h l) → i ≠ .controlCycle → t.override = s.override
  failed : (∀ p, i ≠ .set p ∧ i ≠ .set1 p ∧ i ≠ .set2 p) → t.cmd.failed = s.cmd.failed

/-- A calm move is framed as far as it respects the three pieces that `Calm` does not speak of. -/
theorem Calm.framed {i : Instr} {n : Nat} {s t : State} {es : List Event} (h : Calm n s t es)
    (hphase : t.cmd.phase = s.cmd.phase) (hctl : i ≠ .auto → i ≠ .controlCycle → t.ctl = s.ctl)
    (hoverride : (∀ h l, i ≠ .targetDuty h l) → i ≠ .controlCycle → t.override = s.override)
    (hfailed : (∀ p, i ≠ .set p ∧ i ≠ .set1 p ∧ i ≠ .set2 p) → t.cmd.failed = s.cmd.failed) : Framed i s t := by
  obtain ⟨hsession, hcount, hloop, hexit, -, hinvocation, hgrants⟩ := h.fields
  exact ⟨hexit, hphase, hinvocation, fun _ => ⟨hsession, hcount, hgrants⟩, hctl, fun _ => hloop, hoverride, hfailed⟩

/-- A quiet move leaves all of it, whichever operation it is of. -/
theorem Quiet.framed {n : Nat} {s t : State} {es : List Event} (h : Quiet n s t es) (i : Instr) : Framed i s t := by
  obtain ⟨hctl, hoverride, hcmd⟩ := h.kept
  exact h.calm.framed (by rw [hcmd]) (fun _ _ => hctl) (fun _ _ => hoverride) (fun _ => by rw [hcmd])

theorem raise_framed {f : FaultKind} (hf : f ≠ .badConfig) (i : Instr) (s : State) : Framed i s (raise f s) :=
  (quiet_raise hf s).framed i

theorem Framed.withRet {i : Instr} {s t : State} (h : Framed i s t) (r : Option OpResult) :
    Framed i s { t with ret := r } :=
  ⟨h.exit, h.phase, h.invocation, h.session, h.ctl, h.loop, h.override, h.failed⟩

theorem Framed.returned {α : Type} {i : Instr} {s : State} {r : Res α} (h : Framed i s r.after) (f : α → OpResult) :
    Framed i s (returned f r) := by
  cases r <;> exact h.withRet _

theorem OpSpec.framed {α : Type} {n : Nat} {s : State} {r : Res α} (h : OpSpec n s r) (i : Instr) :
    Framed i s r.after :=
  h.quiet.elim fun _ hq => hq.framed i

/-- A manual command may raise its failure mark (rules R242 to R244). -/
theorem manualCommand_framed {i : Instr} (hi : ∃ p, i = .set p ∨ i = .set1 p ∨ i = .set2 p) {n : Nat}
    (p : Except Rejected Int) (write : Int → State → Res Bool) {s : State} (hB : 1 ≤ s.cfg.pollBudget)
    (hw : ∀ d, OpSpec n s (write d s)) : Framed i s (manualCommand p write s).after := by
  obtain ⟨es, hcalm⟩ := (manualCommand_calmOp p write s hB hw).calm
  obtain ⟨hctl, hoverride, hcmd⟩ := manualCommand_kept p write s hB hw
  refine hcalm.framed ?_ (fun _ _ => hctl) (fun _ _ => hoverride) fun hnot => ?_
  · rcases hcmd with hcmd | hcmd <;> rw [hcmd]
  · obtain ⟨q, hq⟩ := hi
    obtain ⟨h0, h1, h2⟩ := hnot q
    rcases hq with hq | hq | hq <;> contradiction

/-- A cycle may write the ControlState and the `override` flag (rules R204, R205). -/
theorem controlCycle_framed (s : State) (hB : 1 ≤ s.cfg.pollBudget) :
    Framed .controlCycle s (controlCycle s).after := by
  cases hl : s.ctl with
  | none =>
    rw [controlCycle_none hl]
    exact raise_framed (by decide) _ s
  | some last =>
    obtain ⟨es, hcalm⟩ := (controlCycle_calmOp hl hB).calm
    have hcmd := controlCycle_cmd s hB
    exact hcalm.framed (by rw [hcmd]) (fun _ h => absurd rfl h) (fun _ h => absurd rfl h) (fun _ => by rw [hcmd])

/-- `ACQUIRE` writes the session, its count and the OS's answers (rule R100). -/
theorem acquire_framed (s : State) : Framed .acquire s (acquire s).after := by
  rcases acquire_after s with ⟨-, h⟩ | ⟨-, granted, r, h, -, -⟩ <;> rw [h]
  · exact raise_framed (by decide) _ s
  · exact ⟨rfl, rfl, rfl, fun h => absurd rfl h, fun _ _ => rfl, fun _ => rfl, fun _ _ => rfl, fun _ => rfl⟩

/-- `AUTO` writes the ControlState and the loop's phase (rule R207). -/
theorem startLoop_framed (s : State) : Framed .auto s (startLoop s).after := by
  rcases startLoop_after s with ⟨f, hf, h⟩ | ⟨-, -, h⟩ | ⟨-, -, h⟩ <;> rw [h]
  · exact raise_framed (channelFault_some hf).1 _ s
  · exact (Quiet.refl s).framed _
  · exact ⟨rfl, rfl, rfl, fun _ => ⟨rfl, rfl, rfl⟩, fun h => absurd rfl h, fun h => absurd rfl h, fun _ _ => rfl,
      fun _ => rfl⟩

/-- `TARGET_DUTY` writes the `override` flag (rules R201, R202). -/
theorem setOverride_framed (hot last : Byte) (o : Bool) (s : State) :
    Framed (.targetDuty hot last) s (setOverride o s) :=
  (calm_write s s.ctl (some o) s.cmd).framed rfl (fun _ _ => rfl) (fun h => absurd rfl (h hot last)) fun _ => rfl

theorem exec_framed (i : Instr) (s : State) (hB : 1 ≤ s.cfg.pollBudget) : Framed i s (execState i s) := by
  cases i with
  | set p => exact (manualCommand_framed ⟨p, .inl rfl⟩ _ _ hB fun d => writeForSet_opSpec d s hB).returned _
  | set1 p => exact (manualCommand_framed ⟨p, .inr (.inl rfl)⟩ _ _ hB fun d => writeForOne_opSpec .one d s hB).returned _
  | set2 p => exact (manualCommand_framed ⟨p, .inr (.inr rfl)⟩ _ _ hB fun d => writeForOne_opSpec .two d s hB).returned _
  | dump => exact ((dumpCommand_opSpec s hB).framed _).returned _
  | auto => exact (startLoop_framed s).returned _
  | acquire => exact (acquire_framed s).returned _
  | ecRead a => exact ((ecRead_opSpec a s hB).framed _).returned _
  | ecWrite c a v => exact ((ecWrite_opSpec c a v s hB).framed _).returned _
  | cpuTempRead => exact ((cpuTempRead_opSpec s hB).framed _).returned _
  | gpuTempEcRead => exact ((gpuTempEcRead_opSpec s hB).framed _).returned _
  | fanDutyRead ch => exact ((fanDutyRead_opSpec ch s hB).framed _).returned _
  | fanRpmRead ch => exact ((fanRpmRead_opSpec ch s hB).framed _).returned _
  | fanDutyWrite ch p => exact ((fanDutyWrite_opSpec ch _ s hB).framed _).returned _
  | resolveCpu => exact ((resolveCpu_opSpec s hB).framed _).returned _
  | resolveGpu => exact ((resolveGpu_opSpec s hB).framed _).returned _
  | targetDuty hot last =>
    rw [execState_targetDuty]
    split
    · exact (setOverride_framed hot last _ s).withRet _
    · exact raise_framed (by decide) _ s
  | rateLimit o last target =>
    rw [execState_rateLimit]
    split
    · exact ((Quiet.refl s).framed _).withRet _
    · exact raise_framed (by decide) _ s
  | controlCycle => exact (controlCycle_framed s hB).returned _
  | report => exact ((reportAlone_opSpec s hB).framed _).returned _

/-! ## The operations without EC traffic -/

/-- The channel, the trace and the EC agent are left. -/
def NoTraffic (s t : State) : Prop := t.chan = s.chan ∧ t.trace = s.trace ∧ t.env.ec = s.env.ec

theorem raise_noTraffic (f : FaultKind) (s : State) : NoTraffic s (raise f s) :=
  ⟨raise_chan f s, raise_trace f s, by rw [raise_env]⟩

theorem NoTraffic.returned {α : Type} {s : State} {r : Res α} (h : NoTraffic s r.after) (f : α → OpResult) :
    NoTraffic s (returned f r) := by
  cases r <;> exact h

theorem acquire_noTraffic (s : State) : NoTraffic s (acquire s).after := by
  rcases acquire_after s with ⟨-, h⟩ | ⟨-, granted, r, h, -, -⟩ <;> rw [h]
  · exact raise_noTraffic _ s
  · exact ⟨rfl, rfl, drawGrant_ec s.env⟩

theorem startLoop_noTraffic (s : State) : NoTraffic s (startLoop s).after := by
  rcases startLoop_after s with ⟨f, -, h⟩ | ⟨-, -, h⟩ | ⟨-, -, h⟩ <;> rw [h]
  · exact raise_noTraffic f s
  · exact ⟨rfl, rfl, rfl⟩
  · exact ⟨rfl, rfl, rfl⟩

theorem exec_noTraffic {i : Instr} (s : State)
    (hi : i = .acquire ∨ i = .auto ∨ (∃ h l, i = .targetDuty h l) ∨ ∃ o l g, i = .rateLimit o l g) :
    NoTraffic s (execState i s) := by
  rcases hi with rfl | rfl | ⟨hot, last, rfl⟩ | ⟨o, last, target, rfl⟩
  · exact (acquire_noTraffic s).returned _
  · exact (startLoop_noTraffic s).returned _
  · rw [execState_targetDuty]
    split
    · exact ⟨rfl, rfl, rfl⟩
    · exact raise_noTraffic _ s
  · rw [execState_rateLimit]
    split
    · exact ⟨rfl, rfl, rfl⟩
    · exact raise_noTraffic _ s

/-- Settles O16: the configuration and the interrupt source by `Kept`, the rest of the block's state by `Framed`, and the
EC's side by `NoTraffic`. -/
theorem frameOfEveryInstruction : Obligations.FrameOfEveryInstruction := by
  intro i s t hc h
  rw [exec_eq_next] at h
  subst h
  obtain ⟨es, hkept⟩ := exec_keeps i s (budget_of_ok hc)
  have hframe := exec_framed i s (budget_of_ok hc)
  exact ⟨hkept.cfg, hkept.stop, hframe.exit, hframe.phase, hframe.invocation, hkept.stops, hframe.session, hframe.ctl,
    hframe.loop, hframe.override, hframe.failed, exec_noTraffic s⟩

end Sys2Proof.Machine
end
